-- ==== Sys2Proof/Word.lean ====
section
/-! DEFINITION. The word types of the D2T tone codec engine: the widths that 00_scope.md R10 and R11,
10_state.md R30 and R34 and 20_memory.md R80 and R81 give, as bit vectors. -/

namespace Sys2Proof

/-- A 32-bit register, bus datum or command word (10_state.md R34, 30_encoding.md R110). -/
abbrev Word := BitVec 32

/-- One byte of a buffer (10_state.md R56). -/
abbrev Byte := BitVec 8

/-- The 18-bit byte address `a[17:0]` that the bus port decodes (20_memory.md R81). -/
abbrev Addr := BitVec 18

/-- The bit pattern of an IEEE 754 binary64 value (00_scope.md R11, 10_state.md R72). -/
abbrev F64 := BitVec 64

/-- Depth d, a u1: 0 is 8-bit offset binary, 1 is 16-bit signed big-endian (30_encoding.md R113). -/
abbrev Depth := BitVec 1

/-- Buffer slot s, a u1 (30_encoding.md R114). -/
abbrev Slot := BitVec 1

/-- Nibble i, a u4 (30_encoding.md R115). -/
abbrev Nibble := BitVec 4

end Sys2Proof
end

