-- ==== Sys2Proof/Syntax.lean ====
section
/-! DEFINITION. The command set, version 1 (00_scope.md R2, 30_encoding.md R117): one constructor per row of
spec/opcode_table.json, with the operand fields of 30_encoding.md R111 at their exact widths. -/

namespace Sys2Proof

/-- A command (30_encoding.md R118). -/
inductive Instr where
  /-- NOP, opcode 0x00 (43_control.md R229). -/
  | nop
  /-- SYNTH d, s, i, opcode 0x01 (40_synthesis.md R147). -/
  | synth (d : Depth) (s : Slot) (i : Nibble)
  /-- DETECT d, s, opcode 0x02 (41_detection.md R178). -/
  | detect (d : Depth) (s : Slot)
  /-- MAP, opcode 0x03; its operand is the latched MAP_IN (42_mapping.md R206). -/
  | map
  /-- SRESET, opcode 0x04 (43_control.md R230). -/
  | sreset
  deriving DecidableEq, Repr

end Sys2Proof
end

