-- ==== Sys2Proof/Decode.lean ====
section
/-! DEFINITION. The command word: its fields, the decoder, total over all 2^32 words, and the encoder
(30_encoding.md R110 to R122, R125). -/

namespace Sys2Proof

/-- OPCODE, `c[31:24]` (30_encoding.md R112). -/
def opcodeOf (c : Word) : BitVec 8 := c.extractLsb' 24 8

/-- DEPTH, `c[16]` (30_encoding.md R113). -/
def depthOf (c : Word) : Depth := c.extractLsb' 16 1

/-- SLOT, `c[8]` (30_encoding.md R114). -/
def slotOf (c : Word) : Slot := c.extractLsb' 8 1

/-- NIBBLE, `c[3:0]` (30_encoding.md R115). -/
def nibbleOf (c : Word) : Nibble := c.extractLsb' 0 4

/-- The reserved bits of `c[23:0]` for a defined opcode (30_encoding.md R116). -/
def reservedMask (op : BitVec 8) : Word :=
  if op = 0x01 then 0x00FEFEF0
  else if op = 0x02 then 0x00FEFEFF
  else 0x00FFFFFF

/-- What a command word spells (30_encoding.md R118). -/
inductive Decoded where
  /-- A command. -/
  | cmd (i : Instr)
  /-- An opcode in 0x05..0xFF (30_encoding.md R119). -/
  | illegal
  /-- A defined opcode with a 1 in a reserved bit (30_encoding.md R120). -/
  | reserved
  deriving DecidableEq, Repr

/-- The command of an opcode and operand fields, for a defined opcode (30_encoding.md R117, R122). -/
def commandOf (op : BitVec 8) (d : Depth) (s : Slot) (i : Nibble) : Option Instr :=
  if op = 0x00 then some .nop
  else if op = 0x01 then some (.synth d s i)
  else if op = 0x02 then some (.detect d s)
  else if op = 0x03 then some .map
  else if op = 0x04 then some .sreset
  else none

/-- Decoding a command word (30_encoding.md R118). -/
def decode (c : Word) : Decoded :=
  match commandOf (opcodeOf c) (depthOf c) (slotOf c) (nibbleOf c) with
  | none => .illegal
  | some i => if c &&& reservedMask (opcodeOf c) ≠ 0 then .reserved else .cmd i

/-- The command word of a command (30_encoding.md R125; 40_synthesis.md R147, 41_detection.md R178). -/
def encode : Instr → Word
  | .nop => 0x00000000
  | .synth d s i => 0x01000000 ||| d.zeroExtend 32 <<< 16 ||| s.zeroExtend 32 <<< 8 ||| i.zeroExtend 32
  | .detect d s => 0x02000000 ||| d.zeroExtend 32 <<< 16 ||| s.zeroExtend 32 <<< 8
  | .map => 0x03000000
  | .sreset => 0x04000000

/-- The match value of the command's row (30_encoding.md R117). -/
def Instr.matchWord : Instr → Word
  | .nop => 0x00000000
  | .synth _ _ _ => 0x01000000
  | .detect _ _ => 0x02000000
  | .map => 0x03000000
  | .sreset => 0x04000000

/-- The mask of the command's row (30_encoding.md R116 and R117). -/
def Instr.maskWord : Instr → Word
  | .nop => 0xFFFFFFFF
  | .synth _ _ _ => 0xFFFEFEF0
  | .detect _ _ => 0xFFFEFEFF
  | .map => 0xFFFFFFFF
  | .sreset => 0xFFFFFFFF

/-- The command that the decoder reads from the table's bits `w` of width `nbits`: a command is one 32-bit
word (30_encoding.md R110), and the bits above `nbits` are 0. -/
def decodeTableWord (nbits w : Nat) : Option Instr :=
  match decode (BitVec.ofNat 32 (w % 2 ^ nbits)) with
  | .cmd i => some i
  | .illegal => none
  | .reserved => none

end Sys2Proof
end

