-- ==== Sys2Proof/Machine/State.lean ====
section
/-! DEFINITION. The state of one D2TE instance, component by component (10_state.md R30), together with the
two things the spec puts around it: the host agent (00_scope.md R8) and the order in which the agents step
(20_memory.md R98). Plain data throughout. The tone ROM, the window table, the parameters and MAG are
constants of the instance, not state. -/

namespace Sys2Proof.Machine

/-- `ENG`, the engine phase (10_state.md R31). -/
inductive Phase where
  /-- The block is initialising after reset. -/
  | init
  /-- No command is running. -/
  | idle
  /-- One accepted command is running. -/
  | busy
  deriving DecidableEq, Repr

/-- `LATCH`, the operands of the running command, captured at accept (10_state.md R58). -/
structure Latch where
  /-- The opcode, command word bits 31:24. -/
  op : BitVec 8
  /-- DEPTH. -/
  d : Depth
  /-- SLOT. -/
  s : Slot
  /-- NIBBLE. -/
  nib : Nibble
  /-- MAP_IN at the time of the accepting write. -/
  mapin : F64
  deriving DecidableEq, Repr

/-- A buffer's contents: offset and byte pairs, offsets strictly rising, no entry equal to what an unlisted
offset reads as (10_state.md R56). -/
abbrev Memory := List Host.Cell

/-- A bus transaction (20_memory.md R80): any 18-bit address, any width in bytes, and for a write the byte
strobe, `0xF` when whole (20_memory.md R91). -/
inductive Transaction where
  /-- `BusRead(a, size)`. -/
  | read (a : Addr) (size : Nat)
  /-- `BusWrite(a, size, v)`. -/
  | write (a : Addr) (size : Nat) (strobe : BitVec 4) (v : Word)
  deriving DecidableEq, Repr

/-- A transaction of the system around the block: as the port's, at a system address of any width
(20_memory.md R81). -/
inductive SysTransaction where
  /-- A read at system address `A`. -/
  | read (A : Nat) (size : Nat)
  /-- A write at system address `A`. -/
  | write (A : Nat) (size : Nat) (strobe : BitVec 4) (v : Word)
  deriving DecidableEq, Repr

/-- The bus response (20_memory.md R80). -/
inductive Resp where
  /-- The access was performed. -/
  | okay
  /-- The access was refused. -/
  | slverr
  deriving DecidableEq, Repr

/-- What the port answers; a write answers no data, recorded as 0 (20_memory.md R80). -/
structure BusReply where
  /-- The response. -/
  resp : Resp
  /-- The data of a read. -/
  data : Word
  deriving DecidableEq, Repr

/-- A value the host writes: a number or one of its variables (30_encoding.md R123). -/
inductive HostVal where
  /-- An immediate operand. -/
  | imm (v : Word)
  /-- A host variable. -/
  | var (x : Nat)
  deriving DecidableEq, Repr

/-- One line of a host program: the bus mnemonics of 30_encoding.md R124, whose addresses are offsets in the block, and raw
transactions at the port or at a system address. R123 has numbers and host
variables as operands and ties neither to a mnemonic: here only the value of `wr` may be a variable, while every
address, `m` and `v` of `poll` and `v` of `expect` are numbers, which is all that the expansions of R126 use
(DESIGN CHOICE, notes/assumptions/6.md). -/
inductive HostOp where
  /-- `wr a, v`. -/
  | wr (a : Addr) (v : HostVal)
  /-- `rd x, a`. -/
  | rd (x : Nat) (a : Addr)
  /-- `poll a, m, v`: one read a turn until `(t & m) = v`. -/
  | poll (a : Addr) (m v : Word)
  /-- `expect a, v`: a read and a check, no effect on the block. -/
  | expect (a : Addr) (v : Word)
  /-- Any transaction, of any width, address and strobe (20_memory.md R80). -/
  | bus (t : Transaction)
  /-- Any transaction at a system address, which may or may not reach the block (20_memory.md R81). -/
  | sys (t : SysTransaction)
  deriving DecidableEq, Repr

/-- The host: one bus transaction at a time, in program order (00_scope.md R8, 20_memory.md R98). -/
structure HostAgent where
  /-- The lines still to run, in program order. -/
  prog : List HostOp
  /-- The host's variables, the latest value first (30_encoding.md R123). -/
  vars : List (Nat × Word)
  /-- The port's answers so far, the latest first. -/
  replies : List BusReply
  /-- Every `expect` line so far read the value it names (30_encoding.md R124). -/
  checksOk : Bool
  deriving DecidableEq, Repr

/-- Who takes the next step (00_scope.md R8, 70_reset_and_hazards.md R290). -/
inductive Agent where
  /-- The host issues its next transaction. -/
  | host
  /-- The engine takes its enabled step. -/
  | engine
  /-- The reset input is asserted. -/
  | reset
  deriving DecidableEq, Repr

/-- The state (10_state.md R30), then the host and the schedule. -/
structure State where
  /-- Engine phase (10_state.md R31). -/
  eng : Phase
  /-- Operands of the running command (10_state.md R58). -/
  latch : Latch
  /-- CTRL (10_state.md R46). -/
  ctrl : Word
  /-- ERRINFO (10_state.md R48). -/
  errinfo : Word
  /-- ERR_CMD (10_state.md R49). -/
  errCmd : Word
  /-- STATUS.DONE (10_state.md R40). -/
  done : Bool
  /-- STATUS.ERR (10_state.md R41). -/
  err : Bool
  /-- STATUS.PEAK (10_state.md R42). -/
  peak : Bool
  /-- STATUS.NIBV (10_state.md R43). -/
  nibv : Bool
  /-- STATUS.BERR (10_state.md R44). -/
  berr : Bool
  /-- MAP_IN (10_state.md R50). -/
  mapIn : F64
  /-- RES_PEAK (10_state.md R51). -/
  resPeak : Word
  /-- RES_NIBBLE (10_state.md R52). -/
  resNibble : Nibble
  /-- RES_CORR (10_state.md R53). -/
  resCorr : F64
  /-- RES_FREQ (10_state.md R54). -/
  resFreq : F64
  /-- WINBUF (10_state.md R56). -/
  winbuf : Memory
  /-- TONEBUF (10_state.md R56). -/
  tonebuf : Memory
  /-- The host agent (00_scope.md R8). -/
  host : HostAgent
  /-- The turns still to take, in order; when it is empty the engine goes first (70_reset_and_hazards.md R318). -/
  sched : List Agent
  deriving DecidableEq, Repr

/-- Why the machine stops. No rule of the spec stops it. -/
inductive Fault where
  /-- `Complete` is due and LATCH.op is above 0x04. Raised by Machine/Engine.lean only, in no state that a run
  reaches: "LATCH.op is always in 0x00..0x04 then, because only a decoded command is latched"
  (43_control.md R227). Safe: the model stops. -/
  | latchHoldsNoCommand
  deriving DecidableEq, Repr

/-- Why an instruction or an instance has no meaning in the model. -/
inductive Refusal where
  /-- The instruction has no meaning yet. No arm of Machine/Dispatch.lean answers it. Safe. -/
  | notModelled (mnemonic : String)
  /-- The parameter record breaks a constraint of 00_scope.md R5: "Parameter sets that break a constraint of
  rule R5 are not valid instances, and a model refuses them" (00_scope.md R6). Raised by Machine/Step.lean.
  Safe. -/
  | invalidInstance
  deriving DecidableEq, Repr

/-- The machine right after reset (10_state.md R70, 70_reset_and_hazards.md R291), with an idle host and no turn
scheduled. LATCH is unspecified there, and so are the buffers until InitDone; notes/assumptions/1.md names the
values that stand here. -/
def State.reset : State where
  eng := .init
  latch := { op := 0, d := 0, s := 0, nib := 0, mapin := 0 }
  ctrl := 0
  errinfo := 0
  errCmd := 0
  done := false
  err := false
  peak := false
  nibv := false
  berr := false
  mapIn := 0
  resPeak := 0
  resNibble := 0
  resCorr := 0
  resFreq := 0
  winbuf := []
  tonebuf := []
  host := { prog := [], vars := [], replies := [], checksOk := true }
  sched := []

end Sys2Proof.Machine
end

