-- ==== Sys2Proof/Machine/Flags.lean ====
section
/-! DEFINITION. The STATUS word, the interrupt output and the fields of CTRL and ERRINFO
(10_state.md R37 to R48, R55). -/

namespace Sys2Proof.Machine

/-- STATUS.READY: `ENG ≠ INIT` (10_state.md R38). -/
def State.ready (s : State) : Bool := s.eng != .init

/-- STATUS.BUSY: `ENG ≠ IDLE` (10_state.md R39). -/
def State.busy (s : State) : Bool := s.eng != .idle

/-- STATUS reads `{25'b0, BERR, NIBV, PEAK, ERR, DONE, BUSY, READY}` (10_state.md R37). -/
def statusWord (s : State) : Word :=
  BitVec.zeroExtend 32
    (BitVec.ofBool s.berr ++ BitVec.ofBool s.nibv ++ BitVec.ofBool s.peak ++ BitVec.ofBool s.err
      ++ BitVec.ofBool s.done ++ BitVec.ofBool s.busy ++ BitVec.ofBool s.ready)

/-- CTRL.DONE_IE, bit 0 (10_state.md R46). -/
def doneIe (s : State) : Bool := s.ctrl.getLsbD 0

/-- CTRL.ERR_IE, bit 1 (10_state.md R46). -/
def errIe (s : State) : Bool := s.ctrl.getLsbD 1

/-- `IRQ = (DONE and CTRL.DONE_IE) or (ERR and CTRL.ERR_IE)` (10_state.md R55, 60_exceptions.md R264). -/
def irq (s : State) : Bool := (s.done && doneIe s) || (s.err && errIe s)

/-- The bits of CTRL that are not reserved (10_state.md R46). -/
def ctrlMask : Word := 0x00000003

/-- The bits of ERRINFO that are not reserved (10_state.md R48). -/
def errinfoMask : Word := 0x0000010F

/-- ERRINFO.CODE, bits 3:0 (10_state.md R48). -/
def errCode (w : Word) : BitVec 4 := w.extractLsb' 0 4

/-- ERRINFO.OVF, bit 8 (10_state.md R48). -/
def errOvf (w : Word) : Bool := w.getLsbD 8

/-- ERRINFO with `CODE <- code` and `OVF <- 0` (60_exceptions.md R252). -/
def errinfoFirst (w : Word) (code : BitVec 4) : Word := (w &&& ~~~errinfoMask) ||| code.zeroExtend 32

/-- ERRINFO with `OVF <- 1` (60_exceptions.md R252). -/
def errinfoOverflow (w : Word) : Word := w ||| 0x00000100

end Sys2Proof.Machine
end

