-- ==== Sys2Proof/Machine/FixedTrig.lean ====
section
/-! DEFINITION. Sine and cosine of rational fractions of a turn, as integers in units of 2^-128. The tone
table and the window of 40_synthesis.md R141 and R142 and of 41_detection.md R164 are exact real numbers;
these functions settle their floors wherever the error that Laws/FixedTrig.lean proves allows it; ExactTrig settles the
others. -/

namespace Sys2Proof.FixedTrig

/-- The number of units in 1. -/
def one : Nat := 2 ^ 128

/-- `floor(pi * 2^192)`; Laws/Pi.lean proves it. -/
def piScaled : Nat := 0x3243f6a8885a308d313198a2e03707344a4093822299f31d0

/-- The Horner form of the sine series from its `k`-th term on, with `j` terms left, as numerator and
denominator: `1 - x^2/(2k(2k+1)) * (1 - ...)`, where `x^2 = n2 / d2`. -/
def sinSeries (n2 d2 : Nat) : Nat → Nat → Nat × Nat
  | 0, _ => (1, 1)
  | j + 1, k =>
    match sinSeries n2 d2 j (k + 1) with
    | (hn, hd) => (d2 * (2 * k * (2 * k + 1)) * hd - n2 * hn, d2 * (2 * k * (2 * k + 1)) * hd)

/-- `sin(pi * a / b)` for `0 <= a/b <= 1/2`, in units of 2^-128, rounded down from 22 terms of the series. -/
def sinPi (a b : Nat) : Nat :=
  match sinSeries ((piScaled * a) ^ 2) ((2 ^ 192 * b) ^ 2) 21 1 with
  | (hn, hd) => piScaled * a * hn * one / (2 ^ 192 * b * hd)

/-- The reflection `sin(pi * r/b) = sin(pi * (b-r)/b)` into the first quarter turn, for `r <= b`. -/
def sinHalf (r b : Nat) : Nat := sinPi (if 2 * r ≤ b then r else b - r) b

/-- `sin(2 * pi * a / b)` for any `a` and `b > 0`, in units of 2^-128. -/
def sinTurn (a b : Nat) : Int :=
  if 2 * a % (2 * b) < b then sinHalf (2 * a % (2 * b)) b
  else -(sinHalf (2 * a % (2 * b) - b) b : Int)

/-- `cos(2 * pi * a / b)` as the sine a quarter turn later, in units of 2^-128. -/
def cosTurn (a b : Nat) : Int := sinTurn (4 * a + b) (4 * b)

/-- The Hann window `0.5 * (1 - cos(2 * pi * t / (L-1))) = sin(pi * t / (L-1))^2` of 40_synthesis.md R142,
for `t < L`, in units of 2^-256. The squared form is exactly 0 at both ends. -/
def hannFixed (t L : Nat) : Nat := sinHalf t (L - 1) ^ 2

end Sys2Proof.FixedTrig
end

