-- ==== Sys2Proof/Laws/Pi.lean ====
section
/-! SUPPORT. The constant piScaled of Machine/FixedTrig.lean is the integer part of pi * 2^192, by Machin's
formula and the alternating series of the arctangent. -/

namespace Sys2Proof.FixedTrig

/-- A partial sum of the arctangent series at `1/q`. -/
def arctanSum (q : ℚ) (n : ℕ) : ℚ := ∑ i ∈ Finset.range n, (-1) ^ i * ((1 / q) ^ (2 * i + 1) / (2 * i + 1))

/-- The arctangent series at `1/q` alternates around its limit. -/
theorem arctan_between (q : ℚ) (hq : 1 < q) (n : ℕ) :
    (arctanSum q (2 * n) : ℝ) ≤ Real.arctan ((q : ℝ))⁻¹ ∧
      Real.arctan ((q : ℝ))⁻¹ ≤ arctanSum q (2 * n + 1) := by
  have hq1 : (1 : ℝ) < q := by exact_mod_cast hq
  have hx0 : (0 : ℝ) < (q : ℝ)⁻¹ := by positivity
  have hx1 : (q : ℝ)⁻¹ < 1 := inv_lt_one_of_one_lt₀ hq1
  have hs := (Real.hasSum_arctan (x := (q : ℝ)⁻¹) (by rw [Real.norm_eq_abs, abs_of_pos hx0]; exact hx1)).tendsto_sum_nat
  have hcast : ∀ m, (arctanSum q m : ℝ)
      = ∑ i ∈ Finset.range m, (-1 : ℝ) ^ i * (((q : ℝ)⁻¹) ^ (2 * i + 1) / (2 * i + 1)) := by
    intro m; unfold arctanSum; push_cast; simp [one_div]
  have hs' : Filter.Tendsto
      (fun m => ∑ i ∈ Finset.range m, (-1 : ℝ) ^ i * (((q : ℝ)⁻¹) ^ (2 * i + 1) / (2 * i + 1)))
      Filter.atTop (nhds (Real.arctan ((q : ℝ))⁻¹)) := by
    refine hs.congr fun m => Finset.sum_congr rfl fun i _ => ?_
    push_cast; ring
  have hanti : Antitone fun i : ℕ => ((q : ℝ)⁻¹) ^ (2 * i + 1) / (2 * (i : ℝ) + 1) := by
    refine antitone_nat_of_succ_le fun i => ?_
    apply div_le_div₀ (by positivity)
    · exact pow_le_pow_of_le_one hx0.le hx1.le (by omega)
    · positivity
    · push_cast; linarith
  rw [hcast, hcast]
  exact ⟨hanti.alternating_series_le_tendsto hs' n, hanti.tendsto_le_alternating_series hs' n⟩

theorem machin_lower :
    (piScaled : ℚ) ≤ 2 ^ 192 * (4 * (4 * arctanSum 5 44 - arctanSum 239 15)) := by
  decide +kernel

theorem machin_upper :
    2 ^ 192 * (4 * (4 * arctanSum 5 45 - arctanSum 239 14)) ≤ (piScaled : ℚ) + 1 := by
  decide +kernel

/-- `piScaled` is pi * 2^192 rounded down. -/
theorem piScaled_bounds : (piScaled : ℝ) ≤ Real.pi * 2 ^ 192 ∧ Real.pi * 2 ^ 192 ≤ (piScaled : ℝ) + 1 := by
  have h := Real.four_mul_arctan_inv_5_sub_arctan_inv_239
  obtain ⟨a1, a2⟩ := arctan_between 5 (by norm_num) 22
  obtain ⟨b1, b2⟩ := arctan_between 239 (by norm_num) 7
  have lo : (piScaled : ℝ) ≤ 2 ^ 192 * (4 * (4 * (arctanSum 5 44 : ℝ) - arctanSum 239 15)) := by
    exact_mod_cast machin_lower
  have hi : 2 ^ 192 * (4 * (4 * (arctanSum 5 45 : ℝ) - arctanSum 239 14)) ≤ (piScaled : ℝ) + 1 := by
    exact_mod_cast machin_upper
  norm_num only [Nat.reduceMul, Nat.reduceAdd] at a1 a2 b1 b2
  constructor
  · refine lo.trans ?_
    nlinarith
  · refine le_trans ?_ hi
    nlinarith

end Sys2Proof.FixedTrig
end

