-- ==== Sys2Proof/Machine/Float64.lean ====
section
/-! DEFINITION. IEEE 754 binary64 arithmetic on bit patterns, rounding to nearest, ties to even
(00_scope.md R11 and R12, 10_state.md R72). A finite pattern is read as an exact integer number of
units of 2^-1074, an operation is computed exactly on those integers, and one function rounds. -/

namespace Sys2Proof.F64

/-- The magnitude bits of +infinity: exponent field 2047, fraction 0. -/
def infBits : Nat := 2047 * 2 ^ 52

/-- Bit 63, the sign (10_state.md R72). -/
def sign (x : F64) : Bool := x.getLsbD 63

/-- Bits 62:0, the biased exponent and the fraction as one number. -/
def absBits (x : F64) : Nat := x.toNat % 2 ^ 63

/-- Neither a NaN nor an infinity. -/
def isFinite (x : F64) : Bool := decide (absBits x < infBits)

/-- A NaN of either sign with any payload (42_mapping.md R204). -/
def isNaN (x : F64) : Bool := decide (infBits < absBits x)

/-- An infinity of either sign. -/
def isInf (x : F64) : Bool := decide (absBits x = infBits)

/-- The pattern with the given sign and magnitude bits. -/
def ofBits (neg : Bool) (bits : Nat) : F64 :=
  BitVec.ofNat 64 (if neg then 2 ^ 63 + bits else bits)

/-- The value that magnitude bits stand for, in units of 2^-1074 (G1: the field layout of binary64). -/
def unitsOfBits (bits : Nat) : Nat :=
  if bits / 2 ^ 52 = 0 then bits else (2 ^ 52 + bits % 2 ^ 52) * 2 ^ (bits / 2 ^ 52 - 1)

/-- `|x|` of a finite `x`, in units of 2^-1074. -/
def units (x : F64) : Nat := unitsOfBits (absBits x)

/-- The value of a finite `x`, in units of 2^-1074. -/
def scaled (x : F64) : Int := if sign x then -(units x : Int) else units x

/-- The integer nearest to `n / d`, ties to even. -/
def roundHalfEven (n d : Nat) : Nat :=
  if 2 * (n % d) < d then n / d
  else if d < 2 * (n % d) then n / d + 1
  else n / d + n / d % 2

/-- The exponent step of a value of `q` whole units: 0 while 53 bits hold it, else the number of low bits
that the significand drops. -/
def expStep (q : Nat) : Nat := q.log2 - 52

/-- The magnitude bits of the f64 nearest to `n / d` units, ties to even. A significand that rounds up to
2^53 carries into the exponent field, and a value past the largest finite one becomes infinity. -/
def roundBits (n d : Nat) : Nat :=
  min (expStep (n / d) * 2 ^ 52 + roundHalfEven n (d * 2 ^ expStep (n / d))) infBits

/-- `RNE`: the f64 nearest to plus or minus `n / d` units of 2^-1074, ties to even (00_scope.md R11). -/
def rne (neg : Bool) (n d : Nat) : F64 := ofBits neg (roundBits n d)

/-- The NaN that an invalid operation gives. No rule of the spec lets the block produce one
(93_implementation_defined.md I18); notes/assumptions/4.md. -/
def nan : F64 := ofBits false (infBits + 2 ^ 51)

/-- Positive zero, the pattern 0. -/
def zero : F64 := 0

/-- IEEE 754 negation: the sign bit is flipped. -/
def neg (x : F64) : F64 := ofBits (!sign x) (absBits x)

/-- IEEE 754 addition (00_scope.md R11). An exact sum of zero is +0.0 unless both operands are negative. -/
def add (x y : F64) : F64 :=
  if isNaN x || isNaN y then nan
  else if isInf x then (if isInf y && (sign x != sign y) then nan else x)
  else if isInf y then y
  else if scaled x + scaled y = 0 then ofBits (sign x && sign y) 0
  else rne (decide (scaled x + scaled y < 0)) (scaled x + scaled y).natAbs 1

/-- IEEE 754 subtraction (00_scope.md R11). -/
def sub (x y : F64) : F64 := add x (neg y)

/-- IEEE 754 multiplication (00_scope.md R11). -/
def mul (x y : F64) : F64 :=
  if isNaN x || isNaN y then nan
  else if isInf x then (if units y = 0 then nan else ofBits (sign x != sign y) infBits)
  else if isInf y then (if units x = 0 then nan else ofBits (sign x != sign y) infBits)
  else rne (sign x != sign y) (units x * units y) (2 ^ 1074)

/-- IEEE 754 division (00_scope.md R11). -/
def div (x y : F64) : F64 :=
  if isNaN x || isNaN y then nan
  else if isInf x then (if isInf y then nan else ofBits (sign x != sign y) infBits)
  else if isInf y then ofBits (sign x != sign y) 0
  else if units y = 0 then (if units x = 0 then nan else ofBits (sign x != sign y) infBits)
  else rne (sign x != sign y) (units x * 2 ^ 1074) (units y)

/-- `toF64`: an exactly representable integer as f64 (00_scope.md R11). -/
def ofInt (i : Int) : F64 := rne (decide (i < 0)) (i.natAbs * 2 ^ 1074) 1

/-- One half, the constant of 41_detection.md R173. -/
def half : F64 := rne false (2 ^ 1073) 1

/-- The order of f64 values that are not NaN: both zeros are 0, and magnitude bits grow with magnitude. -/
def orderKey (x : F64) : Int := if sign x then -(absBits x : Int) else absBits x

/-- The IEEE 754 comparison `x > y`, false on a NaN (41_detection.md R170). -/
def gt (x y : F64) : Bool := !isNaN x && !isNaN y && decide (orderKey y < orderKey x)

/-- `roundHalfAway q = sign(q) * floor(|q| + 1/2)` on the exact value of a finite f64
(00_scope.md R12, 42_mapping.md R202). -/
def roundHalfAway (q : F64) : Int :=
  if sign q then -((2 * units q + 2 ^ 1074) / 2 ^ 1075 : Nat) else ((2 * units q + 2 ^ 1074) / 2 ^ 1075 : Nat)

end Sys2Proof.F64
end

