-- ==== Sys2Proof/Machine/RealSpec.lean ====
section
/-! DEFINITION. The real-number expressions of the spec, word for word over Mathlib's reals and complex
numbers: the value of an f64, rounding to nearest even, the Hann window, the tone waveform, the exact DFT,
and the property MAG_ACC. The step function never evaluates them; Config.mag's type and the claims name them. -/

namespace Sys2Proof.RealSpec

/-- The real value of a finite f64 (00_scope.md R11). -/
noncomputable def toReal (x : F64) : ℝ := (F64.scaled x : ℝ) / 2 ^ 1074

/-- `z` is `RNE(r)` for a real `r` whose rounding is finite: no finite f64 value is nearer to `r`, and where
another value is as near, `z` has the even significand (00_scope.md R11). -/
def IsRNE (r : ℝ) (z : F64) : Prop :=
  F64.isFinite z = true ∧ ∀ z' : F64, F64.isFinite z' = true →
    toReal z' = toReal z ∨ |toReal z - r| < |toReal z' - r| ∨
      (|toReal z - r| = |toReal z' - r| ∧ z.getLsbD 0 = false)

/-- The Hann window `w(t, L)` (40_synthesis.md R142). -/
noncomputable def hann (t L : ℕ) : ℝ := 0.5 * (1 - Real.cos (2 * Real.pi * t / ((L : ℝ) - 1)))

/-- The waveform `v` of a tone of `f` Hz at sample `t`, for sample rate `sr` and length `n`
(40_synthesis.md R141). -/
noncomputable def waveform (f sr n t : ℕ) : ℝ := Real.sin (2 * Real.pi * f * t / sr) * hann t n

/-- `trunc`, rounding toward zero (00_scope.md R12). -/
noncomputable def trunc (r : ℝ) : ℤ := if 0 ≤ r then ⌊r⌋ else ⌈r⌉

/-- `roundHalfAway`, the nearest integer, ties away from zero (00_scope.md R12, 42_mapping.md R202). -/
noncomputable def roundHalfAway (r : ℝ) : ℤ := if 0 ≤ r then ⌊r + 1 / 2⌋ else -⌊-r + 1 / 2⌋

/-- `X(k)`, the DFT of exact length `F` of the values of `y` (41_detection.md R168). -/
noncomputable def dft (F : ℕ) (y : List F64) (k : ℕ) : ℂ :=
  ∑ n ∈ Finset.range F,
    (toReal (y.getD n 0#64) : ℂ) * Complex.exp (-2 * Real.pi * Complex.I * k * n / F)

/-- `|y[0]| + ... + |y[F-1]|` (41_detection.md R166). -/
noncomputable def absSum (F : ℕ) (y : List F64) : ℝ :=
  ∑ n ∈ Finset.range F, |toReal (y.getD n 0#64)|

/-- The inputs on which MAG_ACC's accuracy clause is asked for: `F` finite values, all of them zero or their
absolute sum between 2^-1000 and 2^1000. Every input that DETECT forms is one
(Laws/DetectInput.lean); outside this range no f64 need lie within the bound (notes/assumptions/3.md). -/
def MagInput (F : ℕ) (y : List F64) : Prop :=
  y.length = F ∧ (∀ x ∈ y, F64.isFinite x = true) ∧
    (absSum F y = 0 ∨ (1 / 2 ^ 1000 ≤ absSum F y ∧ absSum F y ≤ 2 ^ 1000))

/-- **MAG_ACC** (41_detection.md R166): `m[0..F/2-1]` depends on `y` alone, every `m[k]` is finite and at
least +0.0, and `| m[k] - |X(k)| | <= MAG_TOL * (|y[0]| + ... + |y[F-1]|)`. -/
def MagAcc (F : ℕ) (tol : ℝ) (mag : List F64 → List F64) : Prop :=
  ∀ y : List F64, (mag y).length = F / 2 ∧
    ∀ k < F / 2,
      F64.isFinite ((mag y).getD k 0#64) = true ∧ F64.sign ((mag y).getD k 0#64) = false ∧
      (MagInput F y → |toReal ((mag y).getD k 0#64) - ‖dft F y k‖| ≤ tol * absSum F y)

/-- `m` is **MAG_REF**`(y)` (41_detection.md R167): each `m[k]` is the correctly rounded modulus of the exact
DFT. -/
def IsMagRef (F : ℕ) (y m : List F64) : Prop :=
  m.length = F / 2 ∧ ∀ k < F / 2, F64.sign (m.getD k 0#64) = false ∧ IsRNE ‖dft F y k‖ (m.getD k 0#64)

end Sys2Proof.RealSpec
end

