-- ==== Sys2Proof/Laws/FixedTrig.lean ====
section
/-! SUPPORT. How far the fixed-point sine, cosine and Hann window of Machine/FixedTrig.lean stand from the
exact real functions of 00_scope.md R12 and 40_synthesis.md R142: less than two units of 2^-128. -/

namespace Sys2Proof.FixedTrig

/-- The Horner recursion never truncates, and it is the tail of the sine series. -/
theorem sinSeries_spec {n2 d2 : ℕ} (hd : 0 < d2) (hx : n2 ≤ 3 * d2) (j k : ℕ) (hk : 0 < k) :
    0 < (sinSeries n2 d2 j k).2 ∧ (sinSeries n2 d2 j k).1 ≤ (sinSeries n2 d2 j k).2 ∧
      ((sinSeries n2 d2 j k).1 : ℝ) / (sinSeries n2 d2 j k).2
        = ∑ i ∈ Finset.range (j + 1),
          (-1) ^ i * ((n2 : ℝ) / d2) ^ i * ((2 * k - 1).factorial / (2 * k - 1 + 2 * i).factorial) := by
  induction j generalizing k with
  | zero => simp [sinSeries, div_self, Nat.factorial_ne_zero]
  | succ j ih =>
    obtain ⟨h1, h2, h3⟩ := ih (k + 1) (by omega)
    have e : sinSeries n2 d2 (j + 1) k
        = (d2 * (2 * k * (2 * k + 1)) * (sinSeries n2 d2 j (k + 1)).2 - n2 * (sinSeries n2 d2 j (k + 1)).1,
          d2 * (2 * k * (2 * k + 1)) * (sinSeries n2 d2 j (k + 1)).2) := rfl
    rw [e]
    generalize sinSeries n2 d2 j (k + 1) = h at *
    obtain ⟨hn, hdn⟩ := h
    dsimp only at *
    have hkk : 0 < 2 * k * (2 * k + 1) := by positivity
    have hden : 0 < d2 * (2 * k * (2 * k + 1)) * hdn := by positivity
    have hsub : n2 * hn ≤ d2 * (2 * k * (2 * k + 1)) * hdn := by
      refine Nat.mul_le_mul (hx.trans ?_) h2
      rw [Nat.mul_comm]
      refine Nat.mul_le_mul_left _ ?_
      calc 3 ≤ 2 * k * 1 * 3 / 2 := by omega
        _ ≤ 2 * k * (2 * k + 1) := by
          rw [Nat.div_le_iff_le_mul_add_pred (by omega)]; nlinarith
    refine ⟨hden, Nat.sub_le _ _, ?_⟩
    rw [Nat.cast_sub hsub, sub_div, div_self (by exact_mod_cast hden.ne'), Finset.sum_range_succ']
    have hfac : ∀ i, ((2 * k - 1).factorial : ℝ) / (2 * k - 1 + 2 * (i + 1)).factorial
        = ((2 * (k + 1) - 1).factorial : ℝ) / (2 * (k + 1) - 1 + 2 * i).factorial
          / (2 * k * (2 * k + 1)) := by
      intro i
      have a : 2 * k - 1 + 2 * (i + 1) = 2 * (k + 1) - 1 + 2 * i := by omega
      have b : 2 * (k + 1) - 1 = (2 * k - 1) + 1 + 1 := by omega
      rw [a, b, Nat.factorial_succ, Nat.factorial_succ]
      have c : ((2 * k - 1 + 1 : ℕ) : ℝ) = 2 * k := by
        have : 2 * k - 1 + 1 = 2 * k := by omega
        rw [this]; push_cast; ring
      have c' : ((2 * k - 1 + 1 + 1 : ℕ) : ℝ) = 2 * k + 1 := by push_cast at c ⊢; linarith
      rw [Nat.cast_mul, Nat.cast_mul, c, c']
      have hk' : (0 : ℝ) < k := by exact_mod_cast hk
      field_simp
    have hsum : ∑ i ∈ Finset.range (j + 1), (-1 : ℝ) ^ (i + 1) * ((n2 : ℝ) / d2) ^ (i + 1)
          * ((2 * k - 1).factorial / (2 * k - 1 + 2 * (i + 1)).factorial)
        = -((n2 : ℝ) / d2 / (2 * k * (2 * k + 1)) * (hn / hdn)) := by
      rw [h3, Finset.mul_sum, ← Finset.sum_neg_distrib]
      refine Finset.sum_congr rfl fun i _ => ?_
      rw [hfac i, pow_succ, pow_succ]; ring
    rw [hsum]
    have h1' : (0 : ℝ) < hdn := by exact_mod_cast h1
    have hd' : (0 : ℝ) < d2 := by exact_mod_cast hd
    have hk' : (0 : ℝ) < k := by exact_mod_cast hk
    push_cast
    simp only [pow_zero, mul_one, add_zero,
      div_self (show (((2 * k - 1).factorial : ℕ) : ℝ) ≠ 0 by exact_mod_cast Nat.factorial_ne_zero _)]
    field_simp
    ring

/-- The sine series alternates around its limit while `x^2 <= 6`. -/
theorem sin_between {x : ℝ} (hx0 : 0 ≤ x) (hx : x ^ 2 ≤ 6) (n : ℕ) :
    ∑ i ∈ Finset.range (2 * n), (-1 : ℝ) ^ i * (x ^ (2 * i + 1) / (2 * i + 1).factorial) ≤ Real.sin x ∧
      Real.sin x ≤ ∑ i ∈ Finset.range (2 * n + 1), (-1 : ℝ) ^ i * (x ^ (2 * i + 1) / (2 * i + 1).factorial) := by
  have hs := (Real.hasSum_sin x).tendsto_sum_nat
  have hs' : Filter.Tendsto
      (fun m => ∑ i ∈ Finset.range m, (-1 : ℝ) ^ i * (x ^ (2 * i + 1) / (2 * i + 1).factorial))
      Filter.atTop (nhds (Real.sin x)) :=
    hs.congr fun m => Finset.sum_congr rfl fun i _ => by ring
  have hanti : Antitone fun i : ℕ => x ^ (2 * i + 1) / ((2 * i + 1).factorial : ℝ) := by
    refine antitone_nat_of_succ_le fun i => ?_
    have a : 2 * (i + 1) + 1 = (2 * i + 1) + 1 + 1 := by ring
    rw [a, Nat.factorial_succ, Nat.factorial_succ, pow_succ, pow_succ, div_le_div_iff₀ (by positivity) (by positivity)]
    have hf : (0 : ℝ) < (2 * i + 1).factorial := by exact_mod_cast Nat.factorial_pos _
    have hp : 0 ≤ x ^ (2 * i + 1) := by positivity
    have h6 : x * x ≤ ((2 * i + 1 + 1 + 1 : ℕ) : ℝ) * ((2 * i + 1 + 1 : ℕ) : ℝ) := by
      push_cast
      have hi : (0 : ℝ) ≤ i := Nat.cast_nonneg i
      nlinarith
    push_cast at h6 ⊢
    calc x ^ (2 * i + 1) * x * x * ((2 * i + 1).factorial : ℝ)
        = x ^ (2 * i + 1) * ((2 * i + 1).factorial : ℝ) * (x * x) := by ring
      _ ≤ x ^ (2 * i + 1) * ((2 * i + 1).factorial : ℝ) * ((2 * i + 1 + 1 + 1) * (2 * i + 1 + 1)) := by
          exact mul_le_mul_of_nonneg_left h6 (by positivity)
      _ = _ := by ring
  exact ⟨hanti.alternating_series_le_tendsto hs' n, hanti.tendsto_le_alternating_series hs' n⟩

/-- The first 22 terms of the sine series. -/
noncomputable def sinPartial (x : ℝ) : ℝ :=
  ∑ i ∈ Finset.range 22, (-1 : ℝ) ^ i * (x ^ (2 * i + 1) / (2 * i + 1).factorial)

/-- 22 terms of the sine series are within 2^-130 below the sine up to an angle of 1.6. -/
theorem sinPartial_bounds {x : ℝ} (hx0 : 0 ≤ x) (hx : x ≤ 1.6) :
    sinPartial x ≤ Real.sin x ∧ Real.sin x ≤ sinPartial x + 1 / 2 ^ 130 := by
  obtain ⟨t1, t2⟩ := sin_between hx0 (by nlinarith) 11
  rw [Finset.sum_range_succ] at t2
  refine ⟨t1, t2.trans ?_⟩
  have h1 : x ^ 45 ≤ 1.6 ^ 45 := pow_le_pow_left₀ hx0 hx 45
  have h2 : (1.6 : ℝ) ^ 45 / (Nat.factorial 45) ≤ 1 / 2 ^ 130 := by norm_num [Nat.factorial]
  have h3 : (-1 : ℝ) ^ (2 * 11) * (x ^ (2 * (2 * 11) + 1) / (2 * (2 * 11) + 1).factorial)
      = x ^ 45 / (Nat.factorial 45) := by norm_num only [Nat.reduceMul, Nat.reduceAdd, one_mul]
  rw [h3]
  have h4 : x ^ 45 / (Nat.factorial 45) ≤ (1.6 : ℝ) ^ 45 / (Nat.factorial 45) := by gcongr
  exact add_le_add (le_refl _) (h4.trans h2)

/-- The angle that `sinPi` uses. -/
noncomputable def angle (a b : ℕ) : ℝ := ((piScaled * a : ℕ) : ℝ) / ((2 ^ 192 * b : ℕ) : ℝ)

/-- The angle that `sinPi` uses is within 2^-192 below `pi * a / b`. -/
theorem angle_bounds {a b : ℕ} (hb : 0 < b) (hab : 2 * a ≤ b) :
    0 ≤ angle a b ∧ angle a b ≤ Real.pi * a / b ∧ Real.pi * a / b ≤ angle a b + 1 / 2 ^ 192 ∧
      Real.pi * a / b ≤ Real.pi / 2 := by
  obtain ⟨p1, p2⟩ := piScaled_bounds
  have hbR : (0 : ℝ) < b := by exact_mod_cast hb
  have hu : (a : ℝ) / b ≤ 1 / 2 := by
    rw [div_le_div_iff₀ hbR (by norm_num)]
    have : (2 * a : ℝ) ≤ b := by exact_mod_cast hab
    linarith
  have hu0 : (0 : ℝ) ≤ (a : ℝ) / b := by positivity
  have hP : (0 : ℝ) < 2 ^ 192 := by positivity
  have hxe : angle a b = (piScaled : ℝ) / 2 ^ 192 * (a / b) := by
    unfold angle
    rw [Nat.cast_mul, Nat.cast_mul, Nat.cast_pow, Nat.cast_ofNat, mul_div_mul_comm]
  have hang : Real.pi * a / b = Real.pi * (a / b) := mul_div_assoc _ _ _
  rw [hang, hxe]
  generalize (a : ℝ) / b = u at *
  generalize (2 : ℝ) ^ 192 = P at *
  have hpi : (piScaled : ℝ) / P ≤ Real.pi := by rw [div_le_iff₀ hP]; exact p1
  have hpi' : Real.pi ≤ (piScaled : ℝ) / P + 1 / P := by rw [← add_div, le_div_iff₀ hP]; exact p2
  have hP1 : 0 < 1 / P := by positivity
  refine ⟨by positivity, mul_le_mul_of_nonneg_right hpi hu0, ?_, ?_⟩
  · calc Real.pi * u ≤ ((piScaled : ℝ) / P + 1 / P) * u := mul_le_mul_of_nonneg_right hpi' hu0
      _ ≤ _ := by nlinarith
  · have := Real.pi_pos; nlinarith

/-- `sinPi` rounds the series down. -/
theorem sinPi_series {a b : ℕ} (hb : 0 < b) (hx : angle a b ≤ 1.6) :
    (sinPi a b : ℝ) ≤ 2 ^ 128 * sinPartial (angle a b) ∧
      2 ^ 128 * sinPartial (angle a b) ≤ sinPi a b + 1 := by
  have hD0 : 0 < 2 ^ 192 * b := by positivity
  have hdef : sinPi a b = piScaled * a * (sinSeries ((piScaled * a) ^ 2) ((2 ^ 192 * b) ^ 2) 21 1).1 * one
        / (2 ^ 192 * b * (sinSeries ((piScaled * a) ^ 2) ((2 ^ 192 * b) ^ 2) 21 1).2) := rfl
  rw [hdef]
  unfold angle at *
  generalize piScaled * a = N at *
  generalize 2 ^ 192 * b = D at *
  have hDR : (0 : ℝ) < D := by exact_mod_cast hD0
  have hn2 : N ^ 2 ≤ 3 * D ^ 2 := by
    have h : (N : ℝ) ≤ 1.6 * D := by rwa [div_le_iff₀ hDR] at hx
    have h0 : (0 : ℝ) ≤ N := Nat.cast_nonneg _
    have : (N : ℝ) ^ 2 ≤ 3 * (D : ℝ) ^ 2 := by nlinarith
    exact_mod_cast this
  obtain ⟨s1, -, s3⟩ := sinSeries_spec (by positivity) hn2 21 1 one_pos
  have hseries : sinPartial ((N : ℝ) / D) = (N : ℝ) / D *
      (((sinSeries (N ^ 2) (D ^ 2) 21 1).1 : ℝ) / (sinSeries (N ^ 2) (D ^ 2) 21 1).2) := by
    rw [s3, Finset.mul_sum]
    refine Finset.sum_congr rfl fun i _ => ?_
    have a1 : ((N ^ 2 : ℕ) : ℝ) / ((D ^ 2 : ℕ) : ℝ) = ((N : ℝ) / D) ^ 2 := by
      rw [Nat.cast_pow, Nat.cast_pow, div_pow]
    have a2 : 2 * 1 - 1 + 2 * i = 2 * i + 1 := by omega
    rw [a1, a2, ← pow_mul, pow_succ]
    simp only [show 2 * 1 - 1 = 1 from rfl, Nat.factorial_one, Nat.cast_one]
    ring
  rw [hseries]
  generalize sinSeries (N ^ 2) (D ^ 2) 21 1 = h at *
  obtain ⟨hn, hd⟩ := h
  dsimp only at *
  have hDD : 0 < D * hd := by positivity
  have hone : (2 : ℝ) ^ 128 = ((one : ℕ) : ℝ) := by rw [one, Nat.cast_pow, Nat.cast_ofNat]
  have heq : (2 : ℝ) ^ 128 * ((N : ℝ) / D * ((hn : ℝ) / hd)) = ((N * hn * one : ℕ) : ℝ) / ((D * hd : ℕ) : ℝ) := by
    rw [hone, Nat.cast_mul, Nat.cast_mul, Nat.cast_mul]; ring
  rw [heq]
  refine ⟨Nat.cast_div_le, ?_⟩
  rw [div_le_iff₀ (by exact_mod_cast hDD)]
  have : N * hn * one ≤ (N * hn * one / (D * hd) + 1) * (D * hd) := by
    have := Nat.lt_div_mul_add (a := N * hn * one) hDD
    rw [Nat.add_mul]; omega
  exact_mod_cast this

/-- `sinPi` is within two units below the exact sine. -/
theorem sinPi_bounds {a b : ℕ} (hb : 0 < b) (hab : 2 * a ≤ b) :
    (sinPi a b : ℝ) ≤ 2 ^ 128 * Real.sin (Real.pi * a / b) ∧
      2 ^ 128 * Real.sin (Real.pi * a / b) ≤ sinPi a b + 2 := by
  obtain ⟨x0, x1, x2, x3⟩ := angle_bounds hb hab
  have hx16 : angle a b ≤ 1.6 := by
    have := Real.pi_lt_d2; linarith
  obtain ⟨v1, v2⟩ := sinPi_series hb hx16
  obtain ⟨t1, t2⟩ := sinPartial_bounds x0 hx16
  have hmono : Real.sin (angle a b) ≤ Real.sin (Real.pi * a / b) :=
    Real.sin_le_sin_of_le_of_le_pi_div_two (by linarith [Real.pi_pos]) x3 x1
  have hlip : Real.sin (Real.pi * a / b) ≤ Real.sin (angle a b) + 1 / 2 ^ 192 := by
    have h1 := Real.abs_sin_sub_sin_le (Real.pi * a / b) (angle a b)
    have h2 := le_abs_self (Real.sin (Real.pi * a / b) - Real.sin (angle a b))
    have h3 : |Real.pi * a / b - angle a b| ≤ 1 / 2 ^ 192 := by
      rw [abs_of_nonneg (by linarith)]; linarith
    linarith
  have hsmall : (2 : ℝ) ^ 128 * (1 / 2 ^ 130 + 1 / 2 ^ 192) ≤ 1 := by norm_num
  have hQ : (0 : ℝ) ≤ 2 ^ 128 := by positivity
  generalize sinPartial (angle a b) = S at *
  generalize Real.sin (Real.pi * a / b) = y at *
  have g1 := mul_le_mul_of_nonneg_left (t1.trans hmono) hQ
  have g2 : y ≤ S + (1 / 2 ^ 130 + 1 / 2 ^ 192) := by linarith
  have g3 := mul_le_mul_of_nonneg_left g2 hQ
  rw [mul_add] at g3
  exact ⟨v1.trans g1, by linarith⟩

/-- `sinHalf` is within two units below the exact sine over the half turn. -/
theorem sinHalf_bounds {r b : ℕ} (hb : 0 < b) (hr : r ≤ b) :
    (sinHalf r b : ℝ) ≤ 2 ^ 128 * Real.sin (Real.pi * r / b) ∧
      2 ^ 128 * Real.sin (Real.pi * r / b) ≤ sinHalf r b + 2 := by
  unfold sinHalf
  split
  · next h => exact sinPi_bounds hb h
  · next h =>
    have hbR : (b : ℝ) ≠ 0 := by exact_mod_cast hb.ne'
    have : Real.sin (Real.pi * r / b) = Real.sin (Real.pi * (b - r : ℕ) / b) := by
      rw [Nat.cast_sub hr, ← Real.sin_pi_sub]
      congr 1
      field_simp
    rw [this]
    exact sinPi_bounds hb (by omega)

/-- A sine of any number of turns is the sine of its remainder, in half turns. -/
theorem sin_turn_mod (a : ℕ) {b : ℕ} (hb : 0 < b) :
    Real.sin (2 * Real.pi * a / b) = Real.sin (Real.pi * (2 * a % (2 * b) : ℕ) / b) := by
  have hbR : (b : ℝ) ≠ 0 := by exact_mod_cast hb.ne'
  have h : ((2 * b * (2 * a / (2 * b)) + 2 * a % (2 * b) : ℕ) : ℝ) = (2 * a : ℕ) := by rw [Nat.div_add_mod]
  generalize 2 * a / (2 * b) = q at *
  generalize 2 * a % (2 * b) = r at *
  have : 2 * Real.pi * a / b = Real.pi * r / b + q * (2 * Real.pi) := by
    push_cast at h
    have : 2 * Real.pi * a / b = Real.pi * (2 * a) / b := by ring
    rw [this, ← h]; field_simp; ring
  rw [this, Real.sin_add_nat_mul_two_pi]

/-- **`sinTurn` is within two units of the exact sine** of any rational number of turns. -/
theorem sinTurn_error (a : ℕ) {b : ℕ} (hb : 0 < b) :
    |(sinTurn a b : ℝ) - 2 ^ 128 * Real.sin (2 * Real.pi * a / b)| ≤ 2 := by
  have hbR : (b : ℝ) ≠ 0 := by exact_mod_cast hb.ne'
  have hr2 : 2 * a % (2 * b) < 2 * b := Nat.mod_lt _ (by omega)
  unfold sinTurn
  rw [sin_turn_mod a hb]
  generalize 2 * a % (2 * b) = r at *
  split
  · next h =>
    obtain ⟨h1, h2⟩ := sinHalf_bounds hb h.le
    rw [abs_le]; push_cast; constructor <;> linarith
  · next h =>
    obtain ⟨h1, h2⟩ := sinHalf_bounds hb (r := r - b) (by omega)
    have : Real.sin (Real.pi * (r - b : ℕ) / b) = -Real.sin (Real.pi * r / b) := by
      rw [Nat.cast_sub (by omega), ← Real.sin_sub_pi]
      congr 1
      field_simp
    rw [this] at h1 h2
    rw [abs_le]; push_cast; constructor <;> linarith

/-- **`cosTurn` is within two units of the exact cosine.** -/
theorem cosTurn_error (a : ℕ) {b : ℕ} (hb : 0 < b) :
    |(cosTurn a b : ℝ) - 2 ^ 128 * Real.cos (2 * Real.pi * a / b)| ≤ 2 := by
  have hbR : (b : ℝ) ≠ 0 := by exact_mod_cast hb.ne'
  have h := sinTurn_error (4 * a + b) (b := 4 * b) (by omega)
  have : Real.sin (2 * Real.pi * ((4 * a + b : ℕ) : ℝ) / ((4 * b : ℕ) : ℝ)) = Real.cos (2 * Real.pi * a / b) := by
    rw [← Real.sin_add_pi_div_two]
    congr 1
    push_cast
    field_simp
    ring
  rwa [this] at h

/-- The Hann window of the spec is a squared sine (40_synthesis.md R142). -/
theorem hann_eq_sin_sq (t L : ℕ) :
    RealSpec.hann t L = Real.sin (Real.pi * t / ((L : ℝ) - 1)) ^ 2 := by
  unfold RealSpec.hann
  rw [Real.sin_sq_eq_half_sub]
  have : 2 * Real.pi * t / ((L : ℝ) - 1) = 2 * (Real.pi * t / ((L : ℝ) - 1)) := by ring
  rw [this]; ring

/-- The Hann window lies between 0 and 1. -/
theorem hann_mem (t L : ℕ) : 0 ≤ RealSpec.hann t L ∧ RealSpec.hann t L ≤ 1 := by
  rw [hann_eq_sin_sq]
  exact ⟨sq_nonneg _, Real.sin_sq_le_one _⟩

/-- **`hannFixed` is within 2^-125 below the exact Hann window** for `t < L` and `2 <= L`. -/
theorem hannFixed_bounds {t L : ℕ} (hL : 2 ≤ L) (ht : t < L) :
    (hannFixed t L : ℝ) ≤ 2 ^ 256 * RealSpec.hann t L ∧
      2 ^ 256 * RealSpec.hann t L ≤ hannFixed t L + 2 ^ 131 ∧ hannFixed t L ≤ 2 ^ 256 := by
  obtain ⟨h1, h2⟩ := sinHalf_bounds (r := t) (b := L - 1) (by omega) (by omega)
  have hL1 : ((L - 1 : ℕ) : ℝ) = (L : ℝ) - 1 := by rw [Nat.cast_sub (by omega)]; simp
  rw [hann_eq_sin_sq, ← hL1]
  have hle : (sinHalf t (L - 1) : ℝ) ≤ 2 ^ 128 :=
    h1.trans (by nlinarith [Real.sin_le_one (Real.pi * t / ((L - 1 : ℕ) : ℝ))])
  have hleN : sinHalf t (L - 1) ≤ 2 ^ 128 := by exact_mod_cast hle
  have h0 : (0 : ℝ) ≤ sinHalf t (L - 1) := Nat.cast_nonneg _
  unfold hannFixed
  generalize Real.sin (Real.pi * t / ((L - 1 : ℕ) : ℝ)) = s at *
  generalize sinHalf t (L - 1) = S at *
  have e : (2 : ℝ) ^ 256 * s ^ 2 = (2 ^ 128 * s) ^ 2 := by ring
  rw [e]
  generalize (2 : ℝ) ^ 128 * s = y at *
  refine ⟨?_, ?_, ?_⟩
  · push_cast; exact pow_le_pow_left₀ h0 h1 2
  · have : y ^ 2 ≤ ((S : ℝ) + 2) ^ 2 := pow_le_pow_left₀ (h0.trans h1) h2 2
    push_cast
    nlinarith
  · calc S ^ 2 ≤ (2 ^ 128) ^ 2 := Nat.pow_le_pow_left hleN 2
      _ = 2 ^ 256 := by rw [← pow_mul]

end Sys2Proof.FixedTrig
end

