-- ==== Sys2Proof/Laws/Float64.lean ====
section
/-! SUPPORT. What the binary64 functions of Machine/Float64.lean do: fields of a pattern, the rounding
function's error, monotonicity and exactness, and the order. -/

namespace Sys2Proof.F64

theorem infBits_lt : infBits < 2 ^ 63 := by decide

theorem absBits_lt (x : F64) : absBits x < 2 ^ 63 := Nat.mod_lt _ (by decide)

theorem toNat_ofBits (s : Bool) (b : Nat) (h : b < 2 ^ 63) :
    (ofBits s b).toNat = if s then 2 ^ 63 + b else b := by
  unfold ofBits
  rw [BitVec.toNat_ofNat, Nat.mod_eq_of_lt]
  cases s
  · simp; omega
  · simp; omega

@[simp] theorem absBits_ofBits (s : Bool) (b : Nat) (h : b < 2 ^ 63) : absBits (ofBits s b) = b := by
  unfold absBits
  rw [toNat_ofBits s b h]
  cases s <;> simp <;> omega

theorem sign_eq (x : F64) : sign x = decide (2 ^ 63 ≤ x.toNat) := by
  unfold sign
  rw [← BitVec.msb_eq_getLsbD_last (x := x), BitVec.msb_eq_decide]

@[simp] theorem sign_ofBits (s : Bool) (b : Nat) (h : b < 2 ^ 63) : sign (ofBits s b) = s := by
  rw [sign_eq, toNat_ofBits s b h]
  cases s <;> simp <;> omega

/-- A pattern is its sign and its magnitude bits. -/
theorem ofBits_sign_absBits (x : F64) : ofBits (sign x) (absBits x) = x := by
  apply BitVec.eq_of_toNat_eq
  rw [toNat_ofBits _ _ (absBits_lt x), sign_eq]
  unfold absBits
  have := x.isLt
  by_cases h : 2 ^ 63 ≤ x.toNat
  · rw [decide_eq_true h, if_pos rfl]; omega
  · rw [decide_eq_false h, if_neg (by decide)]; omega

theorem roundHalfEven_spec (n d : Nat) (hd : 0 < d) :
    2 * (roundHalfEven n d * d) ≤ 2 * n + d ∧ 2 * n ≤ 2 * (roundHalfEven n d * d) + d ∧
      ((2 * (roundHalfEven n d * d) = 2 * n + d ∨ 2 * n = 2 * (roundHalfEven n d * d) + d) →
        roundHalfEven n d % 2 = 0) := by
  have h0 : n / d * d + n % d = n := by rw [Nat.mul_comm]; exact Nat.div_add_mod n d
  have h1 := Nat.mod_lt n hd
  unfold roundHalfEven
  split
  · refine ⟨by omega, by omega, fun h => by omega⟩
  · split
    · have : (n / d + 1) * d = n / d * d + d := by ring
      refine ⟨by omega, by omega, fun h => by omega⟩
    · have h2 : 2 * (n % d) = d := by omega
      rcases Nat.mod_two_eq_zero_or_one (n / d) with h | h
      · rw [h]; simp only [Nat.add_zero]
        exact ⟨by omega, by omega, fun _ => h⟩
      · rw [h]
        have : (n / d + 1) * d = n / d * d + d := by ring
        exact ⟨by omega, by omega, fun _ => by omega⟩

/-- Rounding half to even is monotone in the fraction. -/
theorem roundHalfEven_mono {n d n' d' : Nat} (hd : 0 < d) (hd' : 0 < d') (h : n * d' ≤ n' * d) :
    roundHalfEven n d ≤ roundHalfEven n' d' := by
  by_contra hlt
  obtain ⟨a1, a2, a3⟩ := roundHalfEven_spec n d hd
  obtain ⟨b1, b2, b3⟩ := roundHalfEven_spec n' d' hd'
  generalize roundHalfEven n d = k at *
  generalize roundHalfEven n' d' = k' at *
  have hk : k' + 1 ≤ k := by omega
  have e1 : 2 * (k * d) * d' ≤ (2 * n + d) * d' := Nat.mul_le_mul_right _ a1
  have e2 : 2 * n' * d ≤ (2 * (k' * d') + d') * d := Nat.mul_le_mul_right _ b2
  have e3 : (k' + 1) * (d * d') ≤ k * (d * d') := Nat.mul_le_mul_right _ hk
  have hdd : 0 < d * d' := Nat.mul_pos hd hd'
  have f1 : 2 * (k * (d * d')) = 2 * (k * d) * d' := by ring
  have f2 : (2 * n + d) * d' = 2 * (n * d') + d * d' := by ring
  have f3 : 2 * n' * d = 2 * (n' * d) := by ring
  have f4 : (2 * (k' * d') + d') * d = 2 * (k' * (d * d')) + d * d' := by ring
  have f5 : (k' + 1) * (d * d') = k' * (d * d') + d * d' := by ring
  have hkk : k * (d * d') = k' * (d * d') + d * d' := by omega
  have hkk' : k = k' + 1 := by
    have : k * (d * d') = (k' + 1) * (d * d') := by omega
    exact Nat.eq_of_mul_eq_mul_right hdd this
  have g1 : 2 * (k * d) = 2 * n + d := by
    have : 2 * (k * d) * d' = (2 * n + d) * d' := by omega
    exact Nat.eq_of_mul_eq_mul_right hd' this
  have g2 : 2 * n' = 2 * (k' * d') + d' := by
    have : 2 * n' * d = (2 * (k' * d') + d') * d := by omega
    exact Nat.eq_of_mul_eq_mul_right hd this
  have := a3 (Or.inl g1)
  have := b3 (Or.inr g2)
  omega

theorem roundHalfEven_exact (k d : Nat) (hd : 0 < d) : roundHalfEven (k * d) d = k := by
  unfold roundHalfEven
  rw [Nat.mul_mod_left, Nat.mul_div_cancel _ hd]
  simp [hd]

/-! ## Exponent step and significand -/

theorem expStep_eq_zero {q : Nat} (h : q < 2 ^ 53) : expStep q = 0 := by
  unfold expStep
  rcases Nat.eq_zero_or_pos q with rfl | hq
  · decide
  · have : q.log2 < 53 := (Nat.log2_lt (by omega)).2 h
    omega

theorem expStep_pos {q : Nat} (h : 2 ^ 53 ≤ q) :
    2 ^ (expStep q + 52) ≤ q ∧ q < 2 ^ (expStep q + 53) ∧ 0 < expStep q := by
  have hq : q ≠ 0 := by rintro rfl; revert h; decide
  have h1 : 53 ≤ q.log2 := (Nat.le_log2 hq).2 h
  have h2 : expStep q + 52 = q.log2 := by unfold expStep; omega
  refine ⟨by rw [h2]; exact Nat.log2_self_le hq, ?_, by omega⟩
  have : expStep q + 53 = q.log2 + 1 := by omega
  rw [this]
  exact Nat.lt_log2_self

theorem expStep_mono {q q' : Nat} (h : q ≤ q') : expStep q ≤ expStep q' := by
  by_cases h1 : q < 2 ^ 53
  · rw [expStep_eq_zero h1]; exact Nat.zero_le _
  · have a := expStep_pos (q := q) (by omega)
    have b := expStep_pos (q := q') (by omega)
    have : 2 ^ (expStep q + 52) < 2 ^ (expStep q' + 53) := by omega
    have := (Nat.pow_lt_pow_iff_right (by decide : 1 < 2)).1 this
    omega

/-- The significand that a fraction rounds to. -/
def significand (n d : Nat) : Nat := roundHalfEven n (d * 2 ^ expStep (n / d))

theorem roundBits_eq (n d : Nat) :
    roundBits n d = min (expStep (n / d) * 2 ^ 52 + significand n d) infBits := rfl

/-- A significand has at most 53 bits or is 2^53, and at least 53 bits once the exponent moves. -/
theorem significand_bounds (n d : Nat) (hd : 0 < d) :
    significand n d ≤ 2 ^ 53 ∧ (0 < expStep (n / d) → 2 ^ 52 ≤ significand n d) := by
  have hD : 0 < d * 2 ^ expStep (n / d) := Nat.mul_pos hd (Nat.two_pow_pos _)
  have up : n < (n / d + 1) * d := by
    have := Nat.div_add_mod n d
    have := Nat.mod_lt n hd
    have e : (n / d + 1) * d = d * (n / d) + d := by ring
    omega
  have lo : n / d * d ≤ n := Nat.div_mul_le_self n d
  constructor
  · have key : n * 1 ≤ 2 ^ 53 * (d * 2 ^ expStep (n / d)) := by
      by_cases h : n / d < 2 ^ 53
      · rw [expStep_eq_zero h]
        have : (n / d + 1) * d ≤ 2 ^ 53 * d := Nat.mul_le_mul_right _ h
        omega
      · have b := (expStep_pos (q := n / d) (by omega)).2.1
        have : (n / d + 1) * d ≤ 2 ^ (expStep (n / d) + 53) * d := Nat.mul_le_mul_right _ b
        have e : 2 ^ (expStep (n / d) + 53) * d = 2 ^ 53 * (d * 2 ^ expStep (n / d)) := by
          rw [pow_add]; ring
        omega
    have := roundHalfEven_mono (n := n) (n' := 2 ^ 53) (d' := 1) hD one_pos key
    unfold significand
    refine this.trans (le_of_eq ?_)
    exact roundHalfEven_exact (2 ^ 53) 1 one_pos
  · intro he
    have h : 2 ^ 53 ≤ n / d := by
      by_contra h
      rw [expStep_eq_zero (by omega)] at he
      omega
    have b := (expStep_pos h).1
    have key : 2 ^ 52 * (d * 2 ^ expStep (n / d)) ≤ n * 1 := by
      have : 2 ^ (expStep (n / d) + 52) * d ≤ n / d * d := Nat.mul_le_mul_right _ b
      have e : 2 ^ (expStep (n / d) + 52) * d = 2 ^ 52 * (d * 2 ^ expStep (n / d)) := by
        rw [pow_add]; ring
      omega
    have := roundHalfEven_mono (n := 2 ^ 52) (d := 1) one_pos hD key
    unfold significand
    refine le_trans (le_of_eq ?_) this
    exact (roundHalfEven_exact (2 ^ 52) 1 one_pos).symm

/-- The value of magnitude bits built from an exponent step and a significand, the carry into the exponent
field included. -/
theorem unitsOfBits_build (e k : Nat) (hk : k ≤ 2 ^ 53) (hn : 0 < e → 2 ^ 52 ≤ k) :
    unitsOfBits (e * 2 ^ 52 + k) = k * 2 ^ e := by
  unfold unitsOfBits
  rcases Nat.eq_zero_or_pos e with rfl | he
  · by_cases h1 : k < 2 ^ 52
    · rw [if_pos (by omega)]
      omega
    · by_cases h2 : k = 2 ^ 53
      · subst h2; decide
      · have : (0 * 2 ^ 52 + k) / 2 ^ 52 = 1 := by omega
        rw [if_neg (by omega), this]
        simp only [Nat.sub_self, pow_zero, Nat.mul_one]
        omega
  · have hk0 := hn he
    by_cases h2 : k = 2 ^ 53
    · subst h2
      have a : (e * 2 ^ 52 + 2 ^ 53) / 2 ^ 52 = e + 2 := by omega
      have b : (e * 2 ^ 52 + 2 ^ 53) % 2 ^ 52 = 0 := by omega
      rw [a, b, if_neg (by omega)]
      have : e + 2 - 1 = e + 1 := by omega
      rw [this, pow_succ]; ring
    · have a : (e * 2 ^ 52 + k) / 2 ^ 52 = e + 1 := by omega
      have b : (e * 2 ^ 52 + k) % 2 ^ 52 = k - 2 ^ 52 := by omega
      rw [a, b, if_neg (by omega)]
      have : 2 ^ 52 + (k - 2 ^ 52) = k := by omega
      rw [this]
      rfl

theorem roundBits_le (n d : Nat) : roundBits n d ≤ infBits := min_le_right _ _

theorem roundBits_lt (n d : Nat) : roundBits n d < 2 ^ 63 :=
  lt_of_le_of_lt (roundBits_le n d) infBits_lt

/-- A rounded magnitude that is not infinite is the significand times its power of two. -/
theorem unitsOfBits_roundBits {n d : Nat} (hd : 0 < d) (h : roundBits n d < infBits) :
    unitsOfBits (roundBits n d) = significand n d * 2 ^ expStep (n / d) := by
  have b := significand_bounds n d hd
  rw [roundBits_eq] at h ⊢
  have : expStep (n / d) * 2 ^ 52 + significand n d < infBits := by
    rcases lt_or_ge (expStep (n / d) * 2 ^ 52 + significand n d) infBits with h' | h'
    · exact h'
    · rw [min_eq_right h'] at h; exact absurd h (lt_irrefl _)
  rw [min_eq_left this.le]
  exact unitsOfBits_build _ _ b.1 b.2

/-- A fraction below 2^2097 units does not round to infinity. -/
theorem roundBits_finite {n d : Nat} (hd : 0 < d) (h : n / d < 2 ^ 2097) : roundBits n d < infBits := by
  have b := (significand_bounds n d hd).1
  have he : expStep (n / d) ≤ 2044 := by
    by_cases h1 : n / d < 2 ^ 53
    · rw [expStep_eq_zero h1]; omega
    · have a := (expStep_pos (q := n / d) (by omega)).1
      have : 2 ^ (expStep (n / d) + 52) < 2 ^ 2097 := lt_of_le_of_lt a h
      have := (Nat.pow_lt_pow_iff_right (by decide : 1 < 2)).1 this
      omega
  rw [roundBits_eq]
  refine lt_of_le_of_lt (min_le_left _ _) ?_
  unfold infBits
  have : expStep (n / d) * 2 ^ 52 ≤ 2044 * 2 ^ 52 := Nat.mul_le_mul_right _ he
  omega

/-- The rounding error: at most half a step, and the step is at most 2^-52 of the value once it exceeds a
unit. -/
theorem unitsOfBits_roundBits_error {n d : Nat} (hd : 0 < d) (h : roundBits n d < infBits) :
    2 * (unitsOfBits (roundBits n d) * d) ≤ 2 * n + d * 2 ^ expStep (n / d) ∧
      2 * n ≤ 2 * (unitsOfBits (roundBits n d) * d) + d * 2 ^ expStep (n / d) := by
  rw [unitsOfBits_roundBits hd h]
  have hD : 0 < d * 2 ^ expStep (n / d) := Nat.mul_pos hd (Nat.two_pow_pos _)
  obtain ⟨a, b, -⟩ := roundHalfEven_spec n _ hD
  have e : significand n d * 2 ^ expStep (n / d) * d
      = roundHalfEven n (d * 2 ^ expStep (n / d)) * (d * 2 ^ expStep (n / d)) := by
    unfold significand; ring
  rw [e]
  exact ⟨a, b⟩

/-- The step is 1, or at most 2^-52 of the fraction. -/
theorem expStep_small (n d : Nat) :
    2 ^ expStep (n / d) = 1 ∨ 2 ^ 52 * (d * 2 ^ expStep (n / d)) ≤ n := by
  by_cases h : n / d < 2 ^ 53
  · left; rw [expStep_eq_zero h]; rfl
  · right
    have a := (expStep_pos (q := n / d) (by omega)).1
    have lo : n / d * d ≤ n := Nat.div_mul_le_self n d
    have : 2 ^ (expStep (n / d) + 52) * d ≤ n / d * d := Nat.mul_le_mul_right _ a
    have e : 2 ^ (expStep (n / d) + 52) * d = 2 ^ 52 * (d * 2 ^ expStep (n / d)) := by
      rw [pow_add]; ring
    omega

/-- Rounding is monotone. -/
theorem roundBits_mono {n d n' d' : Nat} (hd : 0 < d) (hd' : 0 < d') (h : n * d' ≤ n' * d) :
    roundBits n d ≤ roundBits n' d' := by
  have hq : n / d ≤ n' / d' := by
    rw [Nat.le_div_iff_mul_le hd']
    have h1 : n / d * d' * d ≤ n' * d := by
      calc n / d * d' * d = n / d * d * d' := by ring
        _ ≤ n * d' := Nat.mul_le_mul_right _ (Nat.div_mul_le_self n d)
        _ ≤ n' * d := h
    exact Nat.le_of_mul_le_mul_right h1 hd
  have b := significand_bounds n d hd
  have b' := significand_bounds n' d' hd'
  rw [roundBits_eq, roundBits_eq]
  refine min_le_min_right _ ?_
  have he := expStep_mono hq
  rcases Nat.lt_or_ge (expStep (n / d)) (expStep (n' / d')) with h1 | h1
  · have := b'.2 (by omega)
    have : (expStep (n / d) + 1) * 2 ^ 52 ≤ expStep (n' / d') * 2 ^ 52 := Nat.mul_le_mul_right _ h1
    omega
  · have heq : expStep (n / d) = expStep (n' / d') := by omega
    have : significand n d ≤ significand n' d' := by
      unfold significand
      rw [heq]
      refine roundHalfEven_mono (Nat.mul_pos hd (Nat.two_pow_pos _))
        (Nat.mul_pos hd' (Nat.two_pow_pos _)) ?_
      calc n * (d' * 2 ^ expStep (n' / d')) = n * d' * 2 ^ expStep (n' / d') := by ring
        _ ≤ n' * d * 2 ^ expStep (n' / d') := Nat.mul_le_mul_right _ h
        _ = n' * (d * 2 ^ expStep (n' / d')) := by ring
    omega

/-- Every finite magnitude is an exponent step and a significand. -/
theorem unitsOfBits_split (b : Nat) :
    ∃ e k, b = e * 2 ^ 52 + k ∧ k < 2 ^ 53 ∧ (0 < e → 2 ^ 52 ≤ k) ∧ unitsOfBits b = k * 2 ^ e := by
  by_cases h : b / 2 ^ 52 = 0
  · refine ⟨0, b, by omega, by omega, by omega, ?_⟩
    have := unitsOfBits_build 0 b (by omega) (by omega)
    simpa using this
  · refine ⟨b / 2 ^ 52 - 1, 2 ^ 52 + b % 2 ^ 52, by omega, by omega, by omega, ?_⟩
    unfold unitsOfBits
    rw [if_neg h]

/-- Rounding an f64 value gives it back. -/
theorem roundBits_units (b : Nat) (hb : b ≤ infBits) : roundBits (unitsOfBits b) 1 = b := by
  obtain ⟨e, k, rfl, hk, hn, hu⟩ := unitsOfBits_split b
  rw [hu]
  have hstep : expStep (k * 2 ^ e / 1) = e := by
    rw [Nat.div_one]
    rcases Nat.eq_zero_or_pos e with rfl | he
    · exact expStep_eq_zero (by simpa using hk)
    · have hk0 := hn he
      have h1 : 2 ^ (e + 52) ≤ k * 2 ^ e := by
        rw [Nat.add_comm, pow_add]; exact Nat.mul_le_mul_right _ hk0
      have h2 : k * 2 ^ e < 2 ^ (e + 53) := by
        rw [Nat.add_comm, pow_add]; exact Nat.mul_lt_mul_of_pos_right hk (Nat.two_pow_pos _)
      have h3 : k * 2 ^ e ≠ 0 := by have := Nat.two_pow_pos (e + 52); omega
      unfold expStep
      have a : e + 52 ≤ (k * 2 ^ e).log2 := (Nat.le_log2 h3).2 h1
      have b : (k * 2 ^ e).log2 < e + 53 := (Nat.log2_lt h3).2 h2
      omega
  rw [roundBits_eq, hstep]
  unfold significand
  rw [hstep, Nat.one_mul, roundHalfEven_exact _ _ (Nat.two_pow_pos _), min_eq_left hb]

/-- Magnitude bits order as their values do. -/
theorem unitsOfBits_le_iff {a b : Nat} (ha : a ≤ infBits) (hb : b ≤ infBits) :
    unitsOfBits a ≤ unitsOfBits b ↔ a ≤ b := by
  have mono : ∀ {x y : Nat}, x ≤ infBits → y ≤ infBits → unitsOfBits x ≤ unitsOfBits y → x ≤ y := by
    intro x y hx hy h
    have := roundBits_mono (d := 1) (d' := 1) one_pos one_pos (by simpa using h)
    rwa [roundBits_units x hx, roundBits_units y hy] at this
  refine ⟨mono ha hb, fun h => ?_⟩
  by_contra hlt
  have hba := mono hb ha (by omega)
  have : a = b := by omega
  subst this
  omega

theorem unitsOfBits_lt_iff {a b : Nat} (ha : a ≤ infBits) (hb : b ≤ infBits) :
    unitsOfBits a < unitsOfBits b ↔ a < b := by
  rw [← not_le, ← not_le, unitsOfBits_le_iff hb ha]

/-! ## Rounded patterns -/

@[simp] theorem absBits_rne (s : Bool) (n d : Nat) : absBits (rne s n d) = roundBits n d :=
  absBits_ofBits s _ (roundBits_lt n d)

@[simp] theorem sign_rne (s : Bool) (n d : Nat) : sign (rne s n d) = s :=
  sign_ofBits s _ (roundBits_lt n d)

theorem isFinite_iff (x : F64) : isFinite x = true ↔ absBits x < infBits := by simp [isFinite]

theorem isNaN_of_finite {x : F64} (h : isFinite x = true) : isNaN x = false := by
  rw [isFinite_iff] at h; simp [isNaN]; omega

theorem isInf_of_finite {x : F64} (h : isFinite x = true) : isInf x = false := by
  rw [isFinite_iff] at h; simp [isInf]; omega

theorem isFinite_rne {n d : Nat} (s : Bool) (hd : 0 < d) (h : n / d < 2 ^ 2097) :
    isFinite (rne s n d) = true := by
  rw [isFinite_iff, absBits_rne]; exact roundBits_finite hd h

@[simp] theorem units_rne (s : Bool) (n d : Nat) : units (rne s n d) = unitsOfBits (roundBits n d) := by
  unfold units; rw [absBits_rne]

/-- Adding finite values rounds the exact sum, unless that sum is zero. -/
theorem add_finite {x y : F64} (hx : isFinite x = true) (hy : isFinite y = true) :
    add x y = if scaled x + scaled y = 0 then ofBits (sign x && sign y) 0
      else rne (decide (scaled x + scaled y < 0)) (scaled x + scaled y).natAbs 1 := by
  simp [add, isNaN_of_finite hx, isNaN_of_finite hy, isInf_of_finite hx, isInf_of_finite hy]

/-- Multiplying finite values rounds the exact product. -/
theorem mul_finite {x y : F64} (hx : isFinite x = true) (hy : isFinite y = true) :
    mul x y = rne (sign x != sign y) (units x * units y) (2 ^ 1074) := by
  simp only [mul, isNaN_of_finite hx, isNaN_of_finite hy, isInf_of_finite hx, isInf_of_finite hy,
    Bool.or_self, Bool.false_eq_true, if_false]

/-- Dividing finite values by a nonzero one rounds the exact quotient. -/
theorem div_finite {x y : F64} (hx : isFinite x = true) (hy : isFinite y = true) (h0 : units y ≠ 0) :
    div x y = rne (sign x != sign y) (units x * 2 ^ 1074) (units y) := by
  simp only [div, isNaN_of_finite hx, isNaN_of_finite hy, isInf_of_finite hx, isInf_of_finite hy, h0,
    Bool.or_self, Bool.false_eq_true, if_false]

@[simp] theorem absBits_neg (x : F64) : absBits (neg x) = absBits x := absBits_ofBits _ _ (absBits_lt x)

@[simp] theorem sign_neg (x : F64) : sign (neg x) = !sign x := sign_ofBits _ _ (absBits_lt x)

@[simp] theorem isFinite_neg (x : F64) : isFinite (neg x) = isFinite x := by simp [isFinite]

@[simp] theorem units_neg (x : F64) : units (neg x) = units x := by simp [units]

@[simp] theorem scaled_neg (x : F64) : scaled (neg x) = -scaled x := by
  unfold scaled; rw [sign_neg, units_neg]; cases sign x <;> simp

theorem natAbs_scaled (x : F64) : (scaled x).natAbs = units x := by
  unfold scaled; split <;> simp

end Sys2Proof.F64
end

