-- ==== Sys2Proof/Laws/Float64Real.lean ====
section
/-! SUPPORT. The binary64 functions against the reals: rounding gives the nearest f64 with ties to even
(00_scope.md R11), its error, the exactness of small integers, and the order. -/

namespace Sys2Proof.F64

open RealSpec

theorem scaled_rne (s : Bool) (n d : Nat) :
    scaled (rne s n d) = if s then -(unitsOfBits (roundBits n d) : Int) else unitsOfBits (roundBits n d) := by
  unfold scaled; rw [sign_rne, units_rne]

/-- A multiple of the step other than the nearest one is at least as far. -/
theorem step_multiple_far {r E : ℝ} {k j : ℕ} (hE : 0 < E) (hle : |(k : ℝ) * E - r| ≤ E / 2) (hjk : j ≠ k) :
    |(k : ℝ) * E - r| < |(j : ℝ) * E - r| ∨
      (|(k : ℝ) * E - r| = |(j : ℝ) * E - r| ∧ |(k : ℝ) * E - r| = E / 2) := by
  have hfar : E ≤ |(j : ℝ) * E - k * E| := by
    rw [← sub_mul, abs_mul, abs_of_pos hE]
    have : (1 : ℝ) ≤ |(j : ℝ) - k| := by
      have hz : (j : ℤ) - k ≠ 0 := by omega
      have := Int.one_le_abs hz
      exact_mod_cast this
    nlinarith
  have htri : |(j : ℝ) * E - k * E| ≤ |(j : ℝ) * E - r| + |(k : ℝ) * E - r| := by
    calc |(j : ℝ) * E - k * E| = |((j : ℝ) * E - r) - (k * E - r)| := by ring_nf
      _ ≤ _ := abs_sub _ _
  rcases lt_or_ge |(k : ℝ) * E - r| |(j : ℝ) * E - r| with hlt | hge
  · exact Or.inl hlt
  · exact Or.inr ⟨by linarith, by linarith⟩

/-- A value below the binade of `r` is farther than the nearest multiple of the step. -/
theorem below_binade_far {r u c v E : ℝ} (hle : |u - r| ≤ E / 2) (hE : 0 < E) (hv : v < c) (hcr : c ≤ r)
    (hu : u = c ∨ c + E ≤ u) : |u - r| < |v - r| := by
  have hcd : |v - r| = r - v := by rw [abs_sub_comm]; exact abs_of_nonneg (by linarith)
  rw [hcd]
  have := abs_le.1 hle
  rcases lt_or_ge r u with h | h
  · rw [abs_of_pos (by linarith)]
    rcases hu with rfl | hu <;> linarith
  · rw [abs_of_nonpos (by linarith)]
    rcases hu with rfl | hu <;> linarith

/-- The significand times the step lies within half a step of the fraction, and a tie is even. -/
theorem significand_error (n d : Nat) (hd : 0 < d) :
    |(significand n d : ℝ) * 2 ^ expStep (n / d) - n / d| ≤ 2 ^ expStep (n / d) / 2 ∧
      (|(significand n d : ℝ) * 2 ^ expStep (n / d) - n / d| = 2 ^ expStep (n / d) / 2 →
        significand n d % 2 = 0) := by
  have hD : 0 < d * 2 ^ expStep (n / d) := Nat.mul_pos hd (Nat.two_pow_pos _)
  obtain ⟨a1, a2, a3⟩ := roundHalfEven_spec n _ hD
  rw [show roundHalfEven n (d * 2 ^ expStep (n / d)) = significand n d from rfl] at a1 a2 a3
  have hdR : (0 : ℝ) < d := by exact_mod_cast hd
  have hrd : (n : ℝ) / d * d = n := by field_simp
  have c1 : 2 * ((significand n d : ℝ) * (d * 2 ^ expStep (n / d))) ≤ 2 * n + d * 2 ^ expStep (n / d) := by
    exact_mod_cast a1
  have c2 : 2 * (n : ℝ) ≤ 2 * ((significand n d : ℝ) * (d * 2 ^ expStep (n / d)))
      + d * 2 ^ expStep (n / d) := by exact_mod_cast a2
  have c3 : (2 * ((significand n d : ℝ) * (d * 2 ^ expStep (n / d))) = 2 * n + d * 2 ^ expStep (n / d) ∨
      2 * (n : ℝ) = 2 * ((significand n d : ℝ) * (d * 2 ^ expStep (n / d))) + d * 2 ^ expStep (n / d)) →
      significand n d % 2 = 0 := fun h => a3 (by rcases h with h | h <;> [left; right] <;> exact_mod_cast h)
  generalize (2 : ℝ) ^ expStep (n / d) = E at *
  generalize (significand n d : ℝ) = k at *
  generalize (n : ℝ) / d = r at *
  rw [← hrd] at c1 c2 c3
  have d1 : k * E - r ≤ E / 2 := by
    by_contra hc
    push Not at hc
    nlinarith [mul_lt_mul_of_pos_right hc hdR]
  have d2 : r - k * E ≤ E / 2 := by
    by_contra hc
    push Not at hc
    nlinarith [mul_lt_mul_of_pos_right hc hdR]
  refine ⟨abs_le.2 ⟨by linarith, by linarith⟩, fun habs => c3 ?_⟩
  rcases abs_cases (k * E - r) with ⟨h1, -⟩ | ⟨h1, -⟩
  · left
    have : k * E = r + E / 2 := by linarith
    calc 2 * (k * (d * E)) = 2 * (k * E) * d := by ring
      _ = _ := by rw [this]; ring
  · right
    have : r = k * E + E / 2 := by linarith
    rw [this]; ring

/-- Among magnitudes, the rounded one is nearest, with ties to even. -/
theorem roundBits_nearest {n d : Nat} (hd : 0 < d) (h : roundBits n d < infBits) (b : Nat) :
    (unitsOfBits b : ℝ) = unitsOfBits (roundBits n d) ∨
      |(unitsOfBits (roundBits n d) : ℝ) - n / d| < |(unitsOfBits b : ℝ) - n / d| ∨
      (|(unitsOfBits (roundBits n d) : ℝ) - n / d| = |(unitsOfBits b : ℝ) - n / d| ∧
        roundBits n d % 2 = 0) := by
  have hu := unitsOfBits_roundBits hd h
  have hsb := (significand_bounds n d hd).2
  have hbits : roundBits n d = expStep (n / d) * 2 ^ 52 + significand n d := by
    rw [roundBits_eq] at h ⊢
    exact min_eq_left (by
      by_contra hc
      rw [min_eq_right (by omega)] at h
      exact absurd h (lt_irrefl _))
  obtain ⟨e', k', -, hk', -, hu'⟩ := unitsOfBits_split b
  obtain ⟨hle, htie⟩ := significand_error n d hd
  have hdR : (0 : ℝ) < d := by exact_mod_cast hd
  have hlow : 0 < expStep (n / d) → ((2 ^ 52 * 2 ^ expStep (n / d) : ℕ) : ℝ) ≤ (n : ℝ) / d := by
    intro he
    rw [le_div_iff₀ hdR]
    rcases expStep_small n d with h1 | h1
    · have : 2 ^ 1 ≤ 2 ^ expStep (n / d) := Nat.pow_le_pow_right (by decide) he
      omega
    · have : 2 ^ 52 * 2 ^ expStep (n / d) * d ≤ n := by
        calc _ = 2 ^ 52 * (d * 2 ^ expStep (n / d)) := by ring
          _ ≤ n := h1
      exact_mod_cast this
  rw [hu, hbits, hu', Nat.cast_mul, Nat.cast_mul, Nat.cast_pow, Nat.cast_pow, Nat.cast_ofNat]
  generalize significand n d = k at *
  generalize expStep (n / d) = e at *
  generalize (n : ℝ) / d = r at *
  have hE : (0 : ℝ) < 2 ^ e := by positivity
  by_cases hee : e ≤ e'
  · have hj : (k' : ℝ) * 2 ^ e' = (k' * 2 ^ (e' - e) : ℕ) * 2 ^ e := by
      push_cast
      rw [mul_assoc, ← pow_add, Nat.sub_add_cancel hee]
    rw [hj]
    rcases eq_or_ne (k' * 2 ^ (e' - e)) k with hjk | hjk
    · exact Or.inl (by rw [hjk])
    · right
      rcases step_multiple_far hE hle hjk with h1 | ⟨h1, h2⟩
      · exact Or.inl h1
      · have := htie h2
        exact Or.inr ⟨h1, by omega⟩
  · have he0 : 0 < e := by omega
    have hk52 := hsb he0
    right; left
    have hv : (k' : ℝ) * 2 ^ e' < (2 ^ 52 * 2 ^ e : ℕ) := by
      have h1 : k' * 2 ^ e' < 2 ^ 53 * 2 ^ e' := Nat.mul_lt_mul_of_pos_right hk' (Nat.two_pow_pos _)
      have h2 : 2 ^ 53 * 2 ^ e' ≤ 2 ^ 52 * 2 ^ e := by
        have : 2 ^ (e' + 1) ≤ 2 ^ e := Nat.pow_le_pow_right (by decide) (by omega)
        calc 2 ^ 53 * 2 ^ e' = 2 ^ 52 * 2 ^ (e' + 1) := by rw [pow_succ]; ring
          _ ≤ _ := Nat.mul_le_mul_left _ this
      exact_mod_cast lt_of_lt_of_le h1 h2
    refine below_binade_far hle hE hv (hlow he0) ?_
    rcases Nat.lt_or_ge (2 ^ 52) k with h1 | h1
    · right
      have : (2 ^ 52 + 1) * 2 ^ e ≤ k * 2 ^ e := Nat.mul_le_mul_right _ h1
      have : 2 ^ 52 * 2 ^ e + 2 ^ e ≤ k * 2 ^ e := by rw [Nat.add_mul] at this; omega
      exact_mod_cast this
    · left
      have : k = 2 ^ 52 := by omega
      rw [this]; push_cast; rfl

theorem toReal_eq (x : F64) : toReal x = (if sign x then -1 else 1) * (units x : ℝ) / 2 ^ 1074 := by
  unfold toReal scaled
  split <;> simp

theorem getLsbD_zero_ofBits (s : Bool) (b : Nat) (h : b < 2 ^ 63) (he : b % 2 = 0) :
    (ofBits s b).getLsbD 0 = false := by
  rw [BitVec.getLsbD, toNat_ofBits s b h, Nat.testBit_zero]
  cases s
  · simp; omega
  · simp; omega

/-- **Rounding is correct** (00_scope.md R11): a rounding that stays finite gives the f64 nearest to the
exact fraction, with ties to even. -/
theorem isRNE_rne (s : Bool) {n d : Nat} (hd : 0 < d) (h : roundBits n d < infBits) :
    IsRNE ((if s then -1 else 1) * ((n : ℝ) / d) / 2 ^ 1074) (rne s n d) := by
  refine ⟨by rw [isFinite_iff, absBits_rne]; exact h, fun z' _ => ?_⟩
  have hlsb : roundBits n d % 2 = 0 → (rne s n d).getLsbD 0 = false :=
    getLsbD_zero_ofBits s _ (roundBits_lt n d)
  have hP : (0 : ℝ) < 2 ^ 1074 := by positivity
  have hdR : (0 : ℝ) < d := by exact_mod_cast hd
  have hr : (0 : ℝ) ≤ (n : ℝ) / d := by positivity
  have key := roundBits_nearest hd h (absBits z')
  rw [toReal_eq (rne s n d), toReal_eq z', sign_rne, units_rne]
  rw [show unitsOfBits (absBits z') = units z' from rfl] at key
  have hzero : (n : ℝ) / d = 0 → (unitsOfBits (roundBits n d) : ℝ) = 0 := by
    intro h0
    have hn : n = 0 := by
      have : (n : ℝ) = 0 := by
        rcases div_eq_zero_iff.1 h0 with h | h
        · exact h
        · exact absurd h hdR.ne'
      exact_mod_cast this
    subst hn
    have : roundBits 0 d = 0 := by
      rw [roundBits_eq]
      simp [significand, roundHalfEven, expStep, Nat.zero_div, hd]
    rw [this]; simp [unitsOfBits]
  generalize (n : ℝ) / d = r at *
  have hU : (0 : ℝ) ≤ (unitsOfBits (roundBits n d) : ℝ) := Nat.cast_nonneg _
  have hV : (0 : ℝ) ≤ (units z' : ℝ) := Nat.cast_nonneg _
  generalize (unitsOfBits (roundBits n d) : ℝ) = U at *
  generalize (units z' : ℝ) = V at *
  have dist : ∀ a b : ℝ, |a / 2 ^ 1074 - b / 2 ^ 1074| = |a - b| / 2 ^ 1074 := by
    intro a b; rw [← sub_div, abs_div, abs_of_pos hP]
  rw [dist, dist]
  -- the same sign: the magnitudes decide; the other sign: only zero can be as near
  have same : ∀ σ : ℝ, (σ = 1 ∨ σ = -1) → |σ * U - σ * r| = |U - r| := by
    intro σ hσ
    rw [← mul_sub, abs_mul]
    rcases hσ with rfl | rfl <;> simp
  have hs : ((if s = true then (-1 : ℝ) else 1) = 1 ∨ (if s = true then (-1 : ℝ) else 1) = -1) := by
    cases s <;> simp
  generalize (if s = true then (-1 : ℝ) else 1) = σ at *
  have ht : ((if sign z' = true then (-1 : ℝ) else 1) = σ ∨
      (if sign z' = true then (-1 : ℝ) else 1) = -σ) := by
    rcases hs with rfl | rfl <;> cases sign z' <;> simp
  generalize (if sign z' = true then (-1 : ℝ) else 1) = τ at *
  rw [same σ hs]
  rcases ht with rfl | rfl
  · have : |τ * V - τ * r| = |V - r| := by
      rw [← mul_sub, abs_mul]
      rcases hs with rfl | rfl <;> simp
    rw [this]
    rcases key with h1 | h1 | ⟨h1, h2⟩
    · exact Or.inl (by rw [h1])
    · exact Or.inr (Or.inl (by gcongr))
    · exact Or.inr (Or.inr ⟨by rw [h1], hlsb h2⟩)
  · have hopp : |-σ * V - σ * r| = V + r := by
      have : -σ * V - σ * r = -σ * (V + r) := by ring
      rw [this, abs_mul, abs_of_nonneg (add_nonneg hV hr)]
      rcases hs with rfl | rfl <;> simp
    rw [hopp]
    have hle : |U - r| ≤ |V - r| := by
      rcases key with h1 | h1 | ⟨h1, -⟩
      · rw [h1]
      · exact h1.le
      · exact h1.le
    rcases eq_or_lt_of_le hV with hV0 | hV0
    · -- the other value is a zero
      rw [← hV0]
      rcases key with h1 | h1 | ⟨h1, h2⟩
      · left; rw [← h1, ← hV0]; simp
      · right; left
        rw [← hV0, zero_sub, abs_neg, abs_of_nonneg hr] at h1
        rw [zero_add]
        exact div_lt_div_of_pos_right h1 hP
      · right; right
        rw [← hV0, zero_sub, abs_neg, abs_of_nonneg hr] at h1
        refine ⟨by rw [h1, zero_add], hlsb h2⟩
    · right; left
      rcases eq_or_lt_of_le hr with hr0 | hr0
      · have := hzero hr0.symm
        rw [this, ← hr0]
        simpa using div_pos hV0 hP
      · have : |V - r| < V + r := by rw [abs_lt]; constructor <;> linarith
        exact div_lt_div_of_pos_right (lt_of_le_of_lt hle this) hP

/-- The rounding error in units: half a unit, or 2^-53 of the value. -/
theorem rne_units_error {n d : Nat} (hd : 0 < d) (h : roundBits n d < infBits) :
    |(unitsOfBits (roundBits n d) : ℝ) - n / d| ≤ max (1 / 2) ((n : ℝ) / d / 2 ^ 53) := by
  obtain ⟨h1, h2⟩ := unitsOfBits_roundBits_error hd h
  have hdR : (0 : ℝ) < d := by exact_mod_cast hd
  have hstep : (2 : ℝ) ^ expStep (n / d) / 2 ≤ max (1 / 2) ((n : ℝ) / d / 2 ^ 53) := by
    rcases expStep_small n d with h3 | h3
    · have : (2 : ℝ) ^ expStep (n / d) = 1 := by exact_mod_cast h3
      rw [this]; exact le_max_left _ _
    · refine le_trans ?_ (le_max_right _ _)
      have : (2 : ℝ) ^ 52 * (d * 2 ^ expStep (n / d)) ≤ n := by exact_mod_cast h3
      rw [div_div, le_div_iff₀ (by positivity)]
      nlinarith
  refine le_trans ?_ hstep
  generalize expStep (n / d) = e at *
  have g1 : 2 * ((unitsOfBits (roundBits n d) : ℝ) * d) ≤ 2 * n + d * 2 ^ e := by exact_mod_cast h1
  have g2 : 2 * (n : ℝ) ≤ 2 * ((unitsOfBits (roundBits n d) : ℝ) * d) + d * 2 ^ e := by exact_mod_cast h2
  have hr : ((n : ℝ) / d) * d = n := by field_simp
  generalize (n : ℝ) / d = r at *
  generalize (unitsOfBits (roundBits n d) : ℝ) = u at *
  rw [abs_le]
  constructor <;> nlinarith

/-! ## Exact integers and the order -/

theorem unitsOfBits_roundBits_one {u : Nat} (b : Nat) (hb : b < infBits) (h : unitsOfBits b = u) :
    unitsOfBits (roundBits u 1) = u := by
  rw [← h, roundBits_units b hb.le]

/-- A multiple of a power of two with at most 53 significant bits is a magnitude. -/
theorem roundBits_exact (k e : Nat) (hk : k ≤ 2 ^ 53) (he : e ≤ 2044) :
    roundBits (k * 2 ^ e) 1 < infBits ∧ unitsOfBits (roundBits (k * 2 ^ e) 1) = k * 2 ^ e := by
  have main : ∀ k e : Nat, k ≤ 2 ^ 53 → e ≤ 2044 → ∃ b < infBits, unitsOfBits b = k * 2 ^ e := by
    intro k e
    induction e generalizing k with
    | zero =>
      intro hk _
      exact ⟨0 * 2 ^ 52 + k, by unfold infBits; omega, unitsOfBits_build 0 k hk (by omega)⟩
    | succ e ih =>
      intro hk he
      by_cases h : k < 2 ^ 52
      · obtain ⟨b, hb, hu⟩ := ih (2 * k) (by omega) (by omega)
        exact ⟨b, hb, by rw [hu, pow_succ]; ring⟩
      · refine ⟨(e + 1) * 2 ^ 52 + k, ?_, unitsOfBits_build _ _ hk (by omega)⟩
        have : (e + 1) * 2 ^ 52 ≤ 2044 * 2 ^ 52 := Nat.mul_le_mul_right _ he
        unfold infBits; omega
  obtain ⟨b, hb, hu⟩ := main k e hk he
  refine ⟨?_, unitsOfBits_roundBits_one b hb hu⟩
  rw [← hu, roundBits_units b hb.le]; exact hb

/-- `toF64` of an integer of at most 53 bits is exact (00_scope.md R11). -/
theorem ofInt_exact {i : Int} (h : i.natAbs ≤ 2 ^ 53) :
    isFinite (ofInt i) = true ∧ toReal (ofInt i) = i := by
  obtain ⟨h1, h2⟩ := roundBits_exact i.natAbs 1074 h (by omega)
  refine ⟨by rw [isFinite_iff, ofInt, absBits_rne]; exact h1, ?_⟩
  rw [toReal_eq, ofInt, sign_rne, units_rne, h2, div_eq_iff (by positivity), Nat.cast_mul, Nat.cast_pow,
    Nat.cast_ofNat, ← mul_assoc]
  congr 1
  by_cases hi : i < 0
  · rw [if_pos (by simpa using hi), Nat.cast_natAbs, abs_of_neg hi]; push_cast; ring
  · rw [if_neg (by simpa using hi), Nat.cast_natAbs, abs_of_nonneg (by omega), one_mul]

/-- The comparison of finite values is the comparison of reals. -/
theorem gt_iff {x y : F64} (hx : isFinite x = true) (hy : isFinite y = true) :
    gt x y = true ↔ toReal y < toReal x := by
  have hP : (0 : ℝ) < 2 ^ 1074 := by positivity
  rw [isFinite_iff] at hx hy
  have e1 : gt x y = decide (orderKey y < orderKey x) := by
    simp [gt, isNaN_of_finite ((isFinite_iff x).2 hx), isNaN_of_finite ((isFinite_iff y).2 hy)]
  rw [e1, decide_eq_true_iff]
  unfold toReal
  rw [div_lt_div_iff_of_pos_right hP, Int.cast_lt]
  unfold orderKey scaled units
  have hlt := fun a b ha hb => @unitsOfBits_lt_iff a b ha hb
  have z0 : unitsOfBits 0 = 0 := by decide
  have a1 := hlt (absBits x) (absBits y) hx.le hy.le
  have a2 := hlt (absBits y) (absBits x) hy.le hx.le
  have a3 := hlt 0 (absBits x) (Nat.zero_le _) hx.le
  have a4 := hlt 0 (absBits y) (Nat.zero_le _) hy.le
  rw [z0] at a3 a4
  cases sign x <;> cases sign y <;> simp <;> omega

/-! ## Rounding a real between two grid points -/

/-- A value from 2^-27 on is a multiple of 2^-79. -/
theorem toReal_grid {z : F64} (h : 1 / 2 ^ 27 ≤ toReal z) : ∃ k : ℤ, toReal z = k / 2 ^ 79 := by
  have hs : sign z = false := by
    by_contra hs
    have hs' : sign z = true := by simpa using hs
    rw [toReal_eq, hs'] at h
    have : (0 : ℝ) ≤ units z / 2 ^ 1074 := by positivity
    simp only [if_true, neg_mul, one_mul, neg_div] at h
    have : (0 : ℝ) < 1 / 2 ^ 27 := by positivity
    linarith
  rw [toReal_eq, hs] at h ⊢
  simp only [Bool.false_eq_true, if_false, one_mul] at h ⊢
  obtain ⟨e, k, -, hk, -, hu⟩ := unitsOfBits_split (absBits z)
  change units z = _ at hu
  have h1 : 2 ^ 1047 ≤ units z := by
    rw [div_le_div_iff₀ (by positivity) (by positivity), one_mul] at h
    have h' : 2 ^ 1047 * (2 : ℝ) ^ 27 ≤ units z * 2 ^ 27 := by rwa [← pow_add]
    exact_mod_cast le_of_mul_le_mul_right h' (by positivity)
  have he : 995 ≤ e := by
    by_contra hlt
    have : units z < 2 ^ 53 * 2 ^ 994 := by
      rw [hu]
      exact Nat.mul_lt_mul_of_lt_of_le hk (Nat.pow_le_pow_right two_pos (by omega)) (Nat.two_pow_pos _)
    rw [← pow_add] at this
    exact absurd (h1.trans_lt this) (lt_irrefl _)
  refine ⟨(k * 2 ^ (e - 995) : ℕ), ?_⟩
  rw [hu, div_eq_div_iff (by positivity) (by positivity)]
  obtain ⟨j, rfl⟩ := Nat.exists_eq_add_of_le he
  rw [Nat.add_sub_cancel_left]
  push_cast
  rw [pow_add, show (2 : ℝ) ^ 1074 = 2 ^ 995 * 2 ^ 79 by rw [← pow_add]]
  ring

theorem exists_toReal_pow {e : ℕ} (he : e ≤ 1074) : ∃ z : F64, isFinite z = true ∧ toReal z = 1 / 2 ^ e := by
  obtain ⟨h1, h2⟩ := roundBits_exact 1 (1074 - e) (by decide) (by omega)
  refine ⟨rne false (1 * 2 ^ (1074 - e)) 1, by rw [isFinite_iff, absBits_rne]; exact h1, ?_⟩
  rw [toReal_eq, sign_rne, units_rne, h2, div_eq_div_iff (by positivity) (by positivity)]
  push_cast
  rw [one_mul, one_mul, one_mul, ← pow_add, Nat.sub_add_cancel he]

/-- **Two reals from 2^-26 on that lie strictly between the same multiples of 2^-80 round alike.** -/
theorem isRNE_of_between {r s : ℝ} {a : ℤ} {z : F64} (h : IsRNE r z) (hr : 1 / 2 ^ 26 ≤ r)
    (r0 : a / 2 ^ 80 < r) (r1 : r < (a + 1) / 2 ^ 80) (s0 : a / 2 ^ 80 < s) (s1 : s < (a + 1) / 2 ^ 80) :
    IsRNE s z := by
  obtain ⟨hz, hmin⟩ := h
  have hlow : 1 / 2 ^ 26 ≤ toReal z := by
    obtain ⟨y, hy, hy'⟩ := exists_toReal_pow (e := 26) (by norm_num)
    by_contra hlt
    have hlt := not_le.1 hlt
    rcases hmin y hy with h1 | h1 | ⟨h1, -⟩
    · linarith
    all_goals
      rw [hy', abs_sub_comm, abs_of_nonneg (by linarith), abs_sub_comm, abs_of_nonneg (by linarith)] at h1
      linarith
  have h26 : (1 : ℝ) / 2 ^ 26 = 2 * (1 / 2 ^ 27) := by norm_num
  have h27 : (0 : ℝ) < 1 / 2 ^ 27 := by positivity
  obtain ⟨k, hk⟩ := toReal_grid (by linarith : 1 / 2 ^ 27 ≤ toReal z)
  have grid : ∀ z' : F64, isFinite z' = true → 1 / 2 ^ 27 ≤ toReal z' → toReal z' ≠ toReal z →
      (toReal z' < toReal z → (toReal z' + toReal z) / 2 < s) ∧
        (toReal z < toReal z' → s < (toReal z' + toReal z) / 2) := by
    intro z' hz' hge hne
    obtain ⟨j, hj⟩ := toReal_grid hge
    have hmid : (toReal z' + toReal z) / 2 = ((j + k : ℤ) : ℝ) / 2 ^ 80 := by
      rw [hj, hk]; push_cast; ring
    have hd := (hmin z' hz').resolve_left hne
    have hle : |toReal z - r| ≤ |toReal z' - r| := by
      rcases hd with h1 | ⟨h1, -⟩
      · exact h1.le
      · exact h1.le
    have hsq := sq_le_sq.2 hle
    rw [hmid]
    constructor
    · intro hlt
      have : ((j + k : ℤ) : ℝ) / 2 ^ 80 ≤ r := by rw [← hmid]; nlinarith
      have : ((j + k : ℤ) : ℝ) < ((a + 1 : ℤ) : ℝ) := by
        push_cast
        have := this.trans_lt r1
        rw [div_lt_div_iff_of_pos_right (by positivity)] at this
        exact_mod_cast this
      have : ((j + k : ℤ) : ℝ) ≤ a := by exact_mod_cast Int.lt_add_one_iff.1 (by exact_mod_cast this)
      exact (div_le_div_of_nonneg_right this (by positivity)).trans_lt s0
    · intro hlt
      have : r ≤ ((j + k : ℤ) : ℝ) / 2 ^ 80 := by rw [← hmid]; nlinarith
      have : (a : ℝ) < ((j + k : ℤ) : ℝ) := by
        have := r0.trans_le this
        rwa [div_lt_div_iff_of_pos_right (by positivity)] at this
      have : (a : ℝ) + 1 ≤ ((j + k : ℤ) : ℝ) := by exact_mod_cast Int.add_one_le_iff.2 (by exact_mod_cast this)
      exact s1.trans_le (div_le_div_of_nonneg_right this (by positivity))
  refine ⟨hz, fun z' hz' => ?_⟩
  by_cases hne : toReal z' = toReal z
  · exact .inl hne
  refine .inr (.inl ?_)
  rw [← sq_lt_sq]
  rcases lt_or_ge (toReal z') (1 / 2 ^ 27) with hsm | hge
  · obtain ⟨y, hy, hy'⟩ := exists_toReal_pow (e := 27) (by norm_num)
    have := (grid y hy hy'.ge (by rw [hy']; linarith)).1 (by rw [hy']; linarith)
    rw [hy'] at this
    nlinarith
  · obtain ⟨g1, g2⟩ := grid z' hz' hge hne
    rcases lt_or_gt_of_ne hne with hlt | hlt
    · have := g1 hlt; nlinarith
    · have := g2 hlt; nlinarith
end Sys2Proof.F64
end

