-- ==== Sys2Proof/Machine/Magnitude.lean ====
section
/-! DEFINITION. One magnitude function that satisfies MAG_ACC (41_detection.md R166), by a direct DFT in
integers. It is NOT the model's MAG: Config.mag is an opaque member of the type of all such functions, and
this one only shows that the type has a member (41_detection.md R183 leaves the algorithm free). -/

namespace Sys2Proof.Magnitude

/-- The DFT sum over the list `y` with one twiddle function, in units of 2^-1074 * 2^-128. -/
def dftSum (twiddle : Nat → Int) : Nat → List F64 → Int
  | _, [] => 0
  | n, x :: xs => F64.scaled x * twiddle n + dftSum twiddle (n + 1) xs

/-- `|y[0]| + ... + |y[F-1]|` in units of 2^-1074. -/
def absUnits (y : List F64) : Nat := (y.map F64.units).sum

/-- `|X(k)|` rounded to f64 from an integer square root. -/
def binMagnitude (F : Nat) (y : List F64) (k : Nat) : F64 :=
  F64.rne false
    (Nat.sqrt ((dftSum (fun n => FixedTrig.cosTurn (k * n) F) 0 y ^ 2
      + dftSum (fun n => FixedTrig.sinTurn (k * n) F) 0 y ^ 2).toNat))
    FixedTrig.one

/-- The magnitude spectrum of a list of finite values of moderate size, and zeros for any other input. -/
def reference (F : Nat) (y : List F64) : List F64 :=
  if y.all F64.isFinite && decide (y.length = F) && decide (absUnits y ≤ 2 ^ 2074) then
    (List.range (F / 2)).map (binMagnitude F y)
  else List.replicate (F / 2) F64.zero

end Sys2Proof.Magnitude
end

