-- ==== Sys2Proof/Laws/Magnitude.lean ====
section
/-! SUPPORT. A magnitude function with property MAG_ACC exists (41_detection.md R166): the integer DFT of
Machine/Magnitude.lean is one. Config.mag needs this only to be declared; nothing else uses the function. -/

namespace Sys2Proof.Magnitude

open RealSpec

theorem dftSum_eq (tw : Nat → Int) (off : Nat) (y : List F64) :
    dftSum tw off y = ∑ i ∈ Finset.range y.length, F64.scaled (y.getD i 0#64) * tw (off + i) := by
  induction y generalizing off with
  | nil => simp [dftSum]
  | cons x xs ih =>
    rw [dftSum, ih, List.length_cons, Finset.sum_range_succ']
    simp only [List.getD_cons_succ, List.getD_cons_zero, Nat.add_zero]
    rw [Int.add_comm]
    congr 1
    exact Finset.sum_congr rfl fun i _ => by rw [Nat.add_assoc, Nat.add_comm 1 i]

theorem absUnits_eq (y : List F64) :
    (absUnits y : ℝ) = ∑ i ∈ Finset.range y.length, |(F64.scaled (y.getD i 0#64) : ℝ)| := by
  induction y with
  | nil => simp [absUnits]
  | cons x xs ih =>
    have h : (absUnits (x :: xs) : ℝ) = F64.units x + absUnits xs := by
      simp [absUnits]
    rw [h, ih, List.length_cons, Finset.sum_range_succ']
    simp only [List.getD_cons_succ, List.getD_cons_zero]
    rw [add_comm, ← F64.natAbs_scaled x, Nat.cast_natAbs, Int.cast_abs]

theorem absSum_eq {F : ℕ} {y : List F64} (hy : y.length = F) :
    absSum F y = absUnits y / 2 ^ 1074 := by
  rw [absUnits_eq, hy, Finset.sum_div]
  refine Finset.sum_congr rfl fun i _ => ?_
  unfold toReal
  rw [abs_div, abs_of_pos (by positivity : (0 : ℝ) < 2 ^ 1074)]

/-- A weighted sum moves by at most twice the absolute sum when each weight moves by at most two. -/
theorem weighted_error {F : ℕ} {y : List F64} (hy : y.length = F) (w : ℕ → ℝ) (tw : ℕ → ℤ)
    (h : ∀ n, |(tw n : ℝ) - 2 ^ 128 * w n| ≤ 2) :
    |(dftSum tw 0 y : ℝ) - 2 ^ 128 * ∑ n ∈ Finset.range F, (F64.scaled (y.getD n 0#64) : ℝ) * w n|
      ≤ 2 * (absUnits y : ℝ) := by
  rw [dftSum_eq, absUnits_eq, hy, Finset.mul_sum]
  push_cast
  rw [← Finset.sum_sub_distrib, Finset.mul_sum]
  refine (Finset.abs_sum_le_sum_abs _ _).trans (Finset.sum_le_sum fun i _ => ?_)
  rw [Nat.zero_add]
  have : (F64.scaled (y.getD i 0#64) : ℝ) * (tw i : ℝ) - 2 ^ 128 * ((F64.scaled (y.getD i 0#64) : ℝ) * w i)
      = (F64.scaled (y.getD i 0#64) : ℝ) * ((tw i : ℝ) - 2 ^ 128 * w i) := by ring
  rw [this, abs_mul, mul_comm]
  exact mul_le_mul_of_nonneg_right (h i) (abs_nonneg _)

/-- The real and imaginary parts of the exact DFT, in units of 2^-1074. -/
theorem dft_eq (F : ℕ) (y : List F64) (k : ℕ) :
    dft F y k = ((⟨∑ n ∈ Finset.range F, (F64.scaled (y.getD n 0#64) : ℝ) * Real.cos (2 * Real.pi * (k * n : ℕ) / F),
      -∑ n ∈ Finset.range F, (F64.scaled (y.getD n 0#64) : ℝ) * Real.sin (2 * Real.pi * (k * n : ℕ) / F)⟩ : ℂ))
        / ((2 ^ 1074 : ℝ) : ℂ) := by
  have hz : ∀ n : ℕ, Complex.exp (-2 * Real.pi * Complex.I * k * n / F)
      = (⟨Real.cos (2 * Real.pi * (k * n : ℕ) / F), -Real.sin (2 * Real.pi * (k * n : ℕ) / F)⟩ : ℂ) := by
    intro n
    have : -2 * (Real.pi : ℂ) * Complex.I * k * n / F
        = ((-(2 * Real.pi * (k * n : ℕ) / F) : ℝ) : ℂ) * Complex.I := by push_cast; ring
    rw [this, Complex.exp_mul_I, ← Complex.ofReal_cos, ← Complex.ofReal_sin, Real.cos_neg, Real.sin_neg]
    generalize Real.cos (2 * Real.pi * (k * n : ℕ) / F) = c
    generalize Real.sin (2 * Real.pi * (k * n : ℕ) / F) = s
    apply Complex.ext <;> simp
  unfold dft toReal
  simp only [hz]
  generalize (2 ^ 1074 : ℝ) = P
  have hterm : ∀ (a c s : ℝ), (((a / P : ℝ)) : ℂ) * (⟨c, -s⟩ : ℂ) = (⟨a * c, -(a * s)⟩ : ℂ) / ((P : ℝ) : ℂ) := by
    intro a c s
    rw [Complex.ofReal_div, div_mul_eq_mul_div]
    congr 1
    apply Complex.ext <;> simp
  simp only [hterm]
  rw [← Finset.sum_div]
  congr 1
  apply Complex.ext
  · simp [Complex.re_sum]
  · simp [Complex.im_sum]

/-- The modulus of the exact DFT is at most the absolute sum. -/
theorem norm_dft_le (F : ℕ) (y : List F64) (k : ℕ) : ‖dft F y k‖ ≤ absSum F y := by
  unfold dft absSum
  refine (norm_sum_le _ _).trans (Finset.sum_le_sum fun n _ => ?_)
  have : -2 * (Real.pi : ℂ) * Complex.I * k * n / F
      = ((-(2 * Real.pi * k * n / F) : ℝ) : ℂ) * Complex.I := by push_cast; ring
  rw [norm_mul, this, Complex.norm_exp_ofReal_mul_I, mul_one, Complex.norm_real, Real.norm_eq_abs]

/-- The integer modulus is close to the exact one, both in units of 2^-1074 * 2^-128. -/
theorem sqrt_error {F : ℕ} (hF : 0 < F) {y : List F64} (hy : y.length = F) (k : ℕ) :
    |(Nat.sqrt ((dftSum (fun n => FixedTrig.cosTurn (k * n) F) 0 y ^ 2
      + dftSum (fun n => FixedTrig.sinTurn (k * n) F) 0 y ^ 2).toNat) : ℝ)
      - 2 ^ 128 * (2 ^ 1074 * ‖dft F y k‖)| ≤ 4 * (absUnits y : ℝ) + 1 := by
  have hA := weighted_error hy (fun n => Real.cos (2 * Real.pi * (k * n : ℕ) / F))
    (fun n => FixedTrig.cosTurn (k * n) F) fun n => FixedTrig.cosTurn_error (k * n) hF
  have hB := weighted_error hy (fun n => Real.sin (2 * Real.pi * (k * n : ℕ) / F))
    (fun n => FixedTrig.sinTurn (k * n) F) fun n => FixedTrig.sinTurn_error (k * n) hF
  have hd := dft_eq F y k
  generalize dftSum (fun n => FixedTrig.cosTurn (k * n) F) 0 y = A at *
  generalize dftSum (fun n => FixedTrig.sinTurn (k * n) F) 0 y = B at *
  generalize ∑ n ∈ Finset.range F, (F64.scaled (y.getD n 0#64) : ℝ) * Real.cos (2 * Real.pi * (k * n : ℕ) / F) = a at *
  generalize ∑ n ∈ Finset.range F, (F64.scaled (y.getD n 0#64) : ℝ) * Real.sin (2 * Real.pi * (k * n : ℕ) / F) = b at *
  have hnorm : 2 ^ 1074 * ‖dft F y k‖ = ‖(⟨a, -b⟩ : ℂ)‖ := by
    rw [hd, norm_div, Complex.norm_real, Real.norm_eq_abs, abs_of_pos (by positivity : (0 : ℝ) < 2 ^ 1074)]
    exact mul_div_cancel₀ _ (by positivity)
  rw [hnorm]
  generalize (absUnits y : ℝ) = U at *
  -- the modulus of the integer sums
  have hAB : ‖(⟨A, -B⟩ : ℂ)‖ = Real.sqrt ((A ^ 2 + B ^ 2 : ℤ) : ℝ) := by
    rw [Complex.norm_eq_sqrt_sq_add_sq]; push_cast; ring_nf
  have htri : |‖(⟨A, -B⟩ : ℂ)‖ - 2 ^ 128 * ‖(⟨a, -b⟩ : ℂ)‖| ≤ 4 * U := by
    have hQ : (0 : ℝ) < 2 ^ 128 := by positivity
    generalize (2 : ℝ) ^ 128 = Q at *
    have e : Q * ‖(⟨a, -b⟩ : ℂ)‖ = ‖(⟨Q * a, -(Q * b)⟩ : ℂ)‖ := by
      have : (⟨Q * a, -(Q * b)⟩ : ℂ) = (Q : ℂ) * (⟨a, -b⟩ : ℂ) := by apply Complex.ext <;> simp
      rw [this, norm_mul, Complex.norm_real, Real.norm_eq_abs, abs_of_pos hQ]
    rw [e]
    refine (abs_norm_sub_norm_le _ _).trans ((Complex.norm_le_abs_re_add_abs_im _).trans ?_)
    have r2 : -(B : ℝ) - -(Q * b) = -(B - Q * b) := by ring
    rw [Complex.sub_re, Complex.sub_im, r2, abs_neg]
    linarith
  have hN : (0 : ℤ) ≤ A ^ 2 + B ^ 2 := by positivity
  have hs1 : (Nat.sqrt (A ^ 2 + B ^ 2).toNat : ℝ) ≤ Real.sqrt ((A ^ 2 + B ^ 2 : ℤ) : ℝ) := by
    have := Real.nat_sqrt_le_real_sqrt (a := (A ^ 2 + B ^ 2).toNat)
    have e : (((A ^ 2 + B ^ 2).toNat : ℕ) : ℝ) = ((A ^ 2 + B ^ 2 : ℤ) : ℝ) := by
      rw [← Int.cast_natCast, Int.toNat_of_nonneg hN]
    rwa [e] at this
  have hs2 : Real.sqrt ((A ^ 2 + B ^ 2 : ℤ) : ℝ) ≤ (Nat.sqrt (A ^ 2 + B ^ 2).toNat : ℝ) + 1 := by
    have := Real.real_sqrt_le_nat_sqrt_succ (a := (A ^ 2 + B ^ 2).toNat)
    have e : (((A ^ 2 + B ^ 2).toNat : ℕ) : ℝ) = ((A ^ 2 + B ^ 2 : ℤ) : ℝ) := by
      rw [← Int.cast_natCast, Int.toNat_of_nonneg hN]
    rwa [e] at this
  rw [hAB] at htri
  rw [abs_le] at *
  constructor <;> linarith

theorem pow_div_pow (a b : ℕ) : (2 : ℝ) ^ a = 2 ^ (a + b) / 2 ^ b := by
  rw [pow_add, mul_div_cancel_right₀ _ (by positivity)]

/-- The arithmetic of the error budget, in units. -/
theorem budget {u s n U : ℝ} (hu : |u - s / 2 ^ 128| ≤ max (1 / 2) (s / 2 ^ 128 / 2 ^ 53))
    (hs : |s - 2 ^ 128 * n| ≤ 4 * U + 1) (hn : n ≤ U) (hU : 2 ^ 74 ≤ U) : |u - n| ≤ U / 2 ^ 40 := by
  have h1 : |s / 2 ^ 128 - n| ≤ (4 * U + 1) / 2 ^ 128 := by
    have : s / 2 ^ 128 - n = (s - 2 ^ 128 * n) / 2 ^ 128 := by
      rw [sub_div, mul_div_cancel_left₀ _ (by positivity)]
    rw [this, abs_div, abs_of_pos (by positivity : (0 : ℝ) < 2 ^ 128)]
    gcongr
  have h2 : s / 2 ^ 128 ≤ U + (4 * U + 1) / 2 ^ 128 := by
    have := (abs_le.1 h1).2; linarith
  have h3 : |u - n| ≤ |u - s / 2 ^ 128| + |s / 2 ^ 128 - n| := abs_sub_le _ _ _
  have h4 : max (1 / 2) (s / 2 ^ 128 / 2 ^ 53) ≤ 1 / 2 + (U + (4 * U + 1) / 2 ^ 128) / 2 ^ 53 := by
    apply max_le
    · have : 0 ≤ (U + (4 * U + 1) / 2 ^ 128) / 2 ^ 53 := by
        have : (0 : ℝ) ≤ U := le_trans (by positivity) hU
        positivity
      linarith
    · have : s / 2 ^ 128 / 2 ^ 53 ≤ (U + (4 * U + 1) / 2 ^ 128) / 2 ^ 53 := by gcongr
      linarith
  have h5 : 1 / 2 + (U + (4 * U + 1) / 2 ^ 128) / 2 ^ 53 + (4 * U + 1) / 2 ^ 128 ≤ U / 2 ^ 40 := by
    norm_num at hU ⊢
    linarith
  linarith

/-- **MAG_ACC has an instance**: the integer DFT satisfies it with MAG_TOL = 2^-40 for every window length. -/
theorem reference_magAcc (F : ℕ) : MagAcc F (1 / 2 ^ 40) (reference F) := by
  intro y
  unfold reference
  split
  · next hg =>
    simp only [Bool.and_eq_true, decide_eq_true_eq] at hg
    obtain ⟨⟨hfin, hlen⟩, hU⟩ := hg
    refine ⟨by simp, fun k hk => ?_⟩
    have hF : 0 < F := by omega
    have hget : ((List.range (F / 2)).map (binMagnitude F y)).getD k 0#64 = binMagnitude F y k := by
      simp [List.getD_eq_getElem?_getD, List.getElem?_map, List.getElem?_range hk]
    rw [hget]
    unfold binMagnitude
    have hs := sqrt_error hF hlen k
    have hle := norm_dft_le F y k
    rw [absSum_eq hlen, le_div_iff₀ (by positivity), mul_comm] at hle
    generalize Nat.sqrt ((dftSum (fun n => FixedTrig.cosTurn (k * n) F) 0 y ^ 2
      + dftSum (fun n => FixedTrig.sinTurn (k * n) F) 0 y ^ 2).toNat) = s at *
    have hone : (0 : ℕ) < FixedTrig.one := Nat.two_pow_pos _
    have honeR : ((FixedTrig.one : ℕ) : ℝ) = 2 ^ 128 := by rw [FixedTrig.one, Nat.cast_pow, Nat.cast_ofNat]
    have hbits : F64.roundBits s FixedTrig.one < F64.infBits := by
      apply F64.roundBits_finite hone
      have hsU : (s : ℝ) ≤ 2 ^ 128 * (absUnits y : ℝ) + (4 * absUnits y + 1) := by
        have := (abs_le.1 hs).2
        have := mul_le_mul_of_nonneg_left hle (show (0 : ℝ) ≤ 2 ^ 128 by positivity)
        linarith
      have hsN : s ≤ 2 ^ 128 * absUnits y + (4 * absUnits y + 1) := by exact_mod_cast hsU
      have h1 : s ≤ 2 ^ 128 * (5 * absUnits y + 1) := by omega
      have h2 : s / FixedTrig.one ≤ 5 * absUnits y + 1 := by
        rw [FixedTrig.one]; exact Nat.div_le_of_le_mul h1
      have h3 : 5 * 2 ^ 2074 + 1 < 2 ^ 2097 := by decide +kernel
      omega
    refine ⟨by rw [F64.isFinite_iff, F64.absBits_rne]; exact hbits, by simp, fun hin => ?_⟩
    obtain ⟨-, -, hsum⟩ := hin
    rw [absSum_eq hlen] at hsum ⊢
    have hreal : toReal (F64.rne false s FixedTrig.one)
        = (F64.unitsOfBits (F64.roundBits s FixedTrig.one) : ℝ) / 2 ^ 1074 := by
      unfold toReal; rw [F64.scaled_rne]; simp
    rw [hreal]
    have herr := F64.rne_units_error hone hbits
    rw [honeR] at herr
    have hP : (0 : ℝ) < 2 ^ 1074 := by positivity
    have hdist : ∀ u : ℝ, |u / 2 ^ 1074 - ‖dft F y k‖| = |u - 2 ^ 1074 * ‖dft F y k‖| / 2 ^ 1074 := by
      intro u
      rw [← abs_of_pos hP, ← abs_div, abs_of_pos hP, sub_div, mul_div_cancel_left₀ _ hP.ne']
    rw [hdist, ← mul_div_assoc]
    gcongr
    rw [one_div_mul_eq_div]
    rcases hsum with h0 | ⟨h1, -⟩
    · -- all samples are zero
      have hU0 : (absUnits y : ℝ) = 0 := by
        rcases div_eq_zero_iff.1 h0 with h | h
        · exact h
        · exact absurd h hP.ne'
      have hn0 : 2 ^ 1074 * ‖dft F y k‖ = 0 := by
        rw [hU0] at hle
        exact le_antisymm hle (mul_nonneg hP.le (norm_nonneg _))
      rw [hn0, hU0] at hs
      have hs0 : s ≤ 1 := by
        have := (abs_le.1 hs).2
        have : (s : ℝ) ≤ 1 := by linarith
        exact_mod_cast this
      have hz : ∀ m ≤ 1, F64.unitsOfBits (F64.roundBits m FixedTrig.one) = 0 := by decide +kernel
      rw [hz s hs0, hn0, hU0]; simp
    · refine budget herr hs hle ?_
      rw [le_div_iff₀ hP, one_div_mul_eq_div] at h1
      exact le_trans (le_of_eq (pow_div_pow 74 1000)) h1
  · next hg =>
    refine ⟨by simp, fun k hk => ?_⟩
    have hget : (List.replicate (F / 2) F64.zero).getD k 0#64 = F64.zero := by
      simp [List.getD_eq_getElem?_getD, hk]
    rw [hget]
    refine ⟨by decide, by decide, fun ⟨hlen, hfin, hsum⟩ => ?_⟩
    -- an input of the accuracy clause passes the guard
    refine absurd ?_ hg
    have hP : (0 : ℝ) < 2 ^ 1074 := by positivity
    have hU : (absUnits y : ℝ) ≤ 2 ^ 2074 := by
      rw [absSum_eq hlen] at hsum
      rcases hsum with h | ⟨-, h⟩
      · rcases div_eq_zero_iff.1 h with h | h
        · rw [h]; positivity
        · exact absurd h hP.ne'
      · rw [div_le_iff₀ hP, ← pow_add] at h
        exact h
    have hUN : absUnits y ≤ 2 ^ 2074 := by exact_mod_cast hU
    rw [Bool.and_eq_true, Bool.and_eq_true, decide_eq_true_eq, decide_eq_true_eq, List.all_eq_true]
    exact ⟨⟨hfin, hlen⟩, hUN⟩

end Sys2Proof.Magnitude
end

