-- ==== Sys2Proof/Config.lean ====
section
/-! DEFINITION. What an instance of the block fixes: the elaboration parameters of 00_scope.md R5, with the
defaults of the instance the spec describes, and the magnitude function MAG, which the spec leaves open. -/

namespace Sys2Proof

/-- The parameter record (00_scope.md R5), every parameter an integer; MAG_TOL is the fraction
`magTolNum / magTolDen`; and with it where the integrator put the block (92_eei_decisions.md, the open parameters;
93_implementation_defined.md I9). BUS_PROTOCOL changes no rule (20_memory.md R80, notes/assumptions/10.md). -/
structure Params where
  SR : Nat
  N : Nat
  F : Nat
  BASE : Nat
  STEP : Nat
  NT : Nat
  AMP8 : Nat
  BIAS8 : Nat
  AMP16 : Nat
  magTolNum : Nat
  magTolDen : Nat
  /-- The system address at which the block sits (20_memory.md R81, 60_exceptions.md R272). -/
  BASE_ADDR : Nat
  /-- The further system addresses from which the block's 256 KiB are reached, if the integrator lets it alias
  (20_memory.md R81; their form, whole windows, is notes/assumptions/10.md). -/
  ALIASES : List Nat
  deriving DecidableEq, Repr

/-- A magnitude function of an instance: any function with property MAG_ACC (41_detection.md R166). -/
structure Magnitude (P : Params) where
  fn : List F64 → List F64
  acc : RealSpec.MagAcc P.F ((P.magTolNum : ℝ) / P.magTolDen) fn

/-- An instance of the block: its parameter record and its magnitude function. They are constants of the instance,
not state, and the model takes them as arguments (00_scope.md R5, 10_state.md R30). The tone ROM and the window table
are functions of the parameters. -/
structure Instance where
  /-- The parameter record. -/
  params : Params
  /-- **MAG** of this instance. -/
  mag : Magnitude params

namespace Config

/-- A free value: the system address of the block, which the spec leaves to the integrator (20_memory.md R81,
92_eei_decisions.md D18; notes/assumptions/10.md). -/
opaque baseAddr : Nat

/-- A free value: where the block is aliased (20_memory.md R81; notes/assumptions/10.md). -/
opaque aliases : List Nat

/-- The default instance: every value is the default column of 00_scope.md R5, and its place in the system is open. -/
def params : Params where
  SR := 44100
  N := 8820
  F := 8820
  BASE := 1000
  STEP := 25
  NT := 16
  AMP8 := 127
  BIAS8 := 128
  AMP16 := 32767
  magTolNum := 1
  magTolDen := 2 ^ 40
  BASE_ADDR := baseAddr
  ALIASES := aliases

/-- A witness that MAG_ACC can be met, which `opaqueMagnitude` needs to be declared. -/
def witness : Magnitude params where
  fn := Magnitude.reference params.F
  acc := by
    have h : ((params.magTolNum : ℝ) / params.magTolDen) = 1 / 2 ^ 40 := by
      norm_num [params]
    rw [h]
    exact Magnitude.reference_magAcc params.F

/-- A free value: some magnitude function with property MAG_ACC, with no body (41_detection.md R166: "A
model takes MAG as an uninterpreted function and assumes only MAG_ACC of it"; notes/assumptions/2.md). -/
opaque opaqueMagnitude [Inhabited (Magnitude params)] : Magnitude params

/-- **MAG** of the instance. Nothing is known of it but `Config.mag.acc`. -/
def mag : Magnitude params := @opaqueMagnitude ⟨witness⟩

/-- The instance this spec describes: the default column of R5, with an open MAG (notes/assumptions/7.md). -/
def inst : Instance := { params := params, mag := mag }

end Config
end Sys2Proof
end

