-- ==== Sys2Proof/Machine/Operands.lean ====
section
/-! DEFINITION. Operand forms: bytes per sample, slot bases, the sample layout in a buffer
(20_memory.md R86 to R88), the halves of a 64-bit register (20_memory.md R89), and the port's address for a system
address (20_memory.md R81). -/

namespace Sys2Proof.Machine

/-- Bytes per sample, `bps(d)` (00_scope.md R5). -/
def bps (d : Depth) : Nat := if d = 0 then 1 else 2

/-- The TONEBUF offset of tone slot `s` (20_memory.md R86). -/
def toneSlotBase (P : Params) (s : Slot) (d : Depth) : Nat := s.toNat * P.N * bps d

/-- The WINBUF offset of window slot `s` (20_memory.md R86). -/
def winSlotBase (P : Params) (s : Slot) (d : Depth) : Nat := s.toNat * P.F * bps d

/-- `sext16(h, l)`: the s16 value of the pattern with high byte `h` (00_scope.md R11). -/
def sext16 (h l : Byte) : Int := (h ++ l).toInt

/-- The two bytes of a 16-bit sample, high byte first (40_synthesis.md R145). -/
def sample16 (x : Int) : List Byte :=
  [(BitVec.ofInt 16 x).extractLsb' 8 8, (BitVec.ofInt 16 x).extractLsb' 0 8]

/-- A word as four bytes, most significant first (20_memory.md R87). -/
def wordBytes (v : Word) : List Byte :=
  [v.extractLsb' 24 8, v.extractLsb' 16 8, v.extractLsb' 8 8, v.extractLsb' 0 8]

/-- Four bytes as a word, the first in bits 31:24 (20_memory.md R87). -/
def wordOfBytes (b0 b1 b2 b3 : Byte) : Word := b0 ++ b1 ++ b2 ++ b3

/-- Bits 31:0 of a 64-bit register, its `_LO` half (20_memory.md R89). -/
def loHalf (x : F64) : Word := x.extractLsb' 0 32

/-- Bits 63:32 of a 64-bit register, its `_HI` half (20_memory.md R89). -/
def hiHalf (x : F64) : Word := x.extractLsb' 32 32

/-- A 64-bit register with its `_LO` half replaced (10_state.md R50). -/
def withLo (x : F64) (v : Word) : F64 := hiHalf x ++ v

/-- A 64-bit register with its `_HI` half replaced (10_state.md R50). -/
def withHi (x : F64) (v : Word) : F64 := v ++ loHalf x

/-- The size of the block's address space, 256 KiB (20_memory.md R81). -/
def blockBytes : Nat := 2 ^ 18

/-- Whether system address `A` reaches the block: it lies in the 256 KiB from BASE_ADDR on, or from an alias of it on
(20_memory.md R81, 60_exceptions.md R272). -/
def selects (P : Params) (A : Nat) : Bool :=
  (P.BASE_ADDR :: P.ALIASES).any fun b => decide (b ≤ A) && decide (A < b + blockBytes)

/-- The address that the port decodes for system address `A`: its low 18 bits, if `A` reaches the block at all
(20_memory.md R81). -/
def portAddr (P : Params) (A : Nat) : Option Addr := if selects P A then some (BitVec.ofNat 18 A) else none

end Sys2Proof.Machine
end

