-- ==== Sys2Proof/Machine/Ops.lean ====
section
/-! DEFINITION. The shared operations: buffer memory, the two fault effects and their clearing, STATUS writes,
and the acceptance of a command. -/

namespace Sys2Proof.Machine

/-! ## Buffer memory -/

/-- What a byte that nothing has written reads as: InitDone sets every byte of both buffers to 0x00
(70_reset_and_hazards.md R293, 20_memory.md R84). -/
def Memory.initByte : Byte := 0x00

/-- Bytes in a buffer (10_state.md R56). -/
def bufferBytes : Nat := 65536

/-- Byte `o` of a buffer. -/
def Memory.read (m : Memory) (o : Nat) : Byte :=
  match m with
  | [] => Memory.initByte
  | (k, b) :: rest => if k = o then b else Memory.read rest o

/-- Bytes from offset `o` on, without those that an unlisted offset reads as. -/
def Memory.cellsFrom (o : Nat) : List Byte → Memory
  | [] => []
  | b :: bs => if b = Memory.initByte then Memory.cellsFrom (o + 1) bs else (o, b) :: Memory.cellsFrom (o + 1) bs

/-- Consecutive bytes stored from offset `o` on. -/
def Memory.writeBlock (m : Memory) (o : Nat) (bs : List Byte) : Memory :=
  m.filter (fun c => decide (c.1 < o)) ++ Memory.cellsFrom o bs
    ++ m.filter (fun c => decide (o + bs.length ≤ c.1))

/-- `n` consecutive bytes from offset `o` on. -/
def Memory.readBlock (m : Memory) (o n : Nat) : List Byte := (List.range n).map fun k => m.read (o + k)

/-- The packed word at offset `o` (20_memory.md R87). -/
def Memory.readWord (m : Memory) (o : Nat) : Word :=
  wordOfBytes (m.read o) (m.read (o + 1)) (m.read (o + 2)) (m.read (o + 3))

/-- A packed word stored at offset `o` (20_memory.md R87). -/
def Memory.writeWord (m : Memory) (o : Nat) (v : Word) : Memory := m.writeBlock o (wordBytes v)

/-- The canonical form above offset `lo`: offsets strictly rising and inside the buffer, no entry equal to
what an unlisted offset reads as. -/
def Memory.wfFrom (lo : Nat) : Memory → Bool
  | [] => true
  | (k, b) :: rest =>
    decide (lo ≤ k) && decide (k < bufferBytes) && (b != Memory.initByte) && Memory.wfFrom (k + 1) rest

/-- The canonical form of a buffer. -/
def Memory.wf (m : Memory) : Bool := Memory.wfFrom 0 m

/-! ## Faults: taking one and clearing it -/

/-- Why a CMD write is rejected (60_exceptions.md R251). -/
inductive CmdErr where
  /-- OPCODE is in 0x05..0xFF. -/
  | illegalOpcode
  /-- OPCODE is defined and a reserved bit is 1. -/
  | reservedField
  /-- `ENG = BUSY`. -/
  | busy
  /-- `ENG = INIT`. -/
  | notReady
  deriving DecidableEq, Repr

/-- The code of a command error (60_exceptions.md R251). -/
def CmdErr.code : CmdErr → BitVec 4
  | .illegalOpcode => 1
  | .reservedField => 2
  | .busy => 3
  | .notReady => 4

/-- `raise CmdError(code, c)` (60_exceptions.md R252): the first rejection is captured, a later one sets OVF. -/
def raiseCmdError (e : CmdErr) (c : Word) (s : State) : State :=
  if s.err then { s with errinfo := errinfoOverflow s.errinfo }
  else { s with err := true, errinfo := errinfoFirst s.errinfo e.code, errCmd := c }

/-- The state effect of `raise BusError` (60_exceptions.md R262). -/
def raiseBusError (s : State) : State := { s with berr := true }

/-- A write of `v` to STATUS (10_state.md R45): the way back from a fault (60_exceptions.md R255, R263, R269). -/
def writeStatus (v : Word) (s : State) : State :=
  { s with
    done := s.done && !v.getLsbD 2
    err := s.err && !v.getLsbD 3
    errinfo := if v.getLsbD 3 then 0 else s.errinfo
    errCmd := if v.getLsbD 3 then 0 else s.errCmd
    berr := s.berr && !v.getLsbD 6 }

/-! ## Accepting a command -/

/-- The operands that an accepting write of `c` captures, used by the opcode or not (43_control.md R223). -/
def latchOf (c : Word) (s : State) : Latch :=
  { op := opcodeOf c, d := depthOf c, s := slotOf c, nib := nibbleOf c, mapin := s.mapIn }

/-- An accepted command: `LATCH` and `ENG` change and nothing else (43_control.md R224, R225). -/
def startCommand (c : Word) (s : State) : State := { s with latch := latchOf c s, eng := .busy }

/-- The acceptance procedure, the effect of a write of `c` to CMD (43_control.md R221). -/
def acceptCommand (c : Word) (s : State) : State :=
  match s.eng with
  | .init => raiseCmdError .notReady c s
  | .busy => raiseCmdError .busy c s
  | .idle =>
    match decode c with
    | .illegal => raiseCmdError .illegalOpcode c s
    | .reserved => raiseCmdError .reservedField c s
    | .cmd _ => startCommand c s

/-- The command that LATCH holds (43_control.md R227). -/
def latchedInstr (l : Latch) : Option Instr := commandOf l.op l.d l.s l.nib

end Sys2Proof.Machine
end

