-- ==== Sys2Proof/Machine/Control.lean ====
section
/-! DEFINITION. The housekeeping commands NOP and SRESET (43_control.md R229, R230). -/

namespace Sys2Proof.Machine

/-- NOP: `DONE <- 1`, nothing else (43_control.md R229). -/
def execNop (s : State) : Host.Outcome State Fault Refusal := .next { s with done := true }

/-- SRESET: the result and error state to zero, `DONE <- 1`; CTRL, MAP_IN and both buffers unchanged
(43_control.md R230). -/
def execSreset (s : State) : Host.Outcome State Fault Refusal :=
  .next { s with
    err := false, errinfo := 0, errCmd := 0
    berr := false
    peak := false, nibv := false
    resPeak := 0, resNibble := 0, resCorr := 0, resFreq := 0
    done := true }

end Sys2Proof.Machine
end

