-- ==== Sys2Proof/Machine/ExactTrig.lean ====
section
/-! DEFINITION. The floor of a real expression of 00_scope.md R12, evaluated exactly: rational approximations of the sine
and of the Hann window to any precision, refined until the floor is settled. Two different values of the expressions
of 40_synthesis.md R141 and R142 cannot lie closer together than a bound that their algebraic degree gives
(Laws/Separation.lean), so past that precision a value that has not settled is an integer. -/

namespace Sys2Proof.ExactTrig

/-- The first `n` terms of the arctangent series at `1/m`. -/
def arctanInv (m : Nat) : Nat → ℚ
  | 0 => 0
  | n + 1 => arctanInv m n + (if n % 2 = 0 then 1 else -1) / ((m ^ (2 * n + 1) * (2 * n + 1) : Nat) : ℚ)

/-- A multiple of `1 / 2^k` at most `4 / 2^k` below pi, by Machin's formula. -/
def piLower (k : Nat) : ℚ := ⌊4 * (4 * arctanInv 5 (2 * k) - arctanInv 239 (2 * k + 1)) * 2 ^ k⌋ / 2 ^ k

/-- `n` terms of the sine series at `x`, from term `i` on, whose value is `term`; `x2` is `x^2`. -/
def sinSum (x2 : ℚ) : Nat → Nat → ℚ → ℚ
  | 0, _, _ => 0
  | n + 1, i, term => term + sinSum x2 n (i + 1) (-(term * x2 / ((2 * i + 2) * (2 * i + 3))))

/-- `sin(pi * a / b)` for `0 <= a/b <= 1/2`, within `4 / 2^k`. -/
def sinPi (k a b : Nat) : ℚ :=
  let x := piLower k * (a / b)
  sinSum (x ^ 2) (2 * k) 0 x

/-- `sin(pi * r / b)` for `r <= b`, by reflection into the first quarter turn. -/
def sinHalf (k r b : Nat) : ℚ := sinPi k (if 2 * r ≤ b then r else b - r) b

/-- `sin(2 * pi * a / b)`. -/
def sinTurn (k a b : Nat) : ℚ :=
  if 2 * a % (2 * b) < b then sinHalf k (2 * a % (2 * b)) b else -sinHalf k (2 * a % (2 * b) - b) b

/-- The Hann window `w(t, L) = sin(pi * t / (L-1))^2` (40_synthesis.md R142), within `1 / 2^k`. -/
def hannApprox (t L k : Nat) : ℚ := sinHalf (k + 5) t (L - 1) ^ 2

/-- The waveform `sin(2 * pi * f * t / sr) * w(t, n)` (40_synthesis.md R141), within `1 / 2^k`. -/
def waveApprox (f sr n t k : Nat) : ℚ := sinTurn (k + 5) (f * t) sr * hannApprox t n k

/-- The floor of a real number that `f k` approximates within `c / 2^k` for every `k`: the precision is doubled until
the floors of both ends of the interval agree, at most `fuel` times. -/
def floorWithin (f : Nat → ℚ) (c : ℚ) : Nat → Nat → Int
  | 0, k => ⌊f k + c / 2 ^ k⌋
  | fuel + 1, k =>
    if ⌊f k - c / 2 ^ k⌋ = ⌊f k + c / 2 ^ k⌋ then ⌊f k + c / 2 ^ k⌋ else floorWithin f c fuel (2 * k)

/-- Doublings from 128 bits on that pass the separation bound of a number in the field of the `n`-th roots of unity
(Laws/Separation.lean). -/
def doublings (n : Nat) : Nat := n.log2 + 1

/-- The floor that an integer `num / den` approximates within `err / den`, if it is settled. -/
def settledFloor (num err den : Int) : Option Int :=
  if (num - err) / den = (num + err) / den then some ((num + err) / den) else none

end Sys2Proof.ExactTrig
end

