-- ==== Sys2Proof/Machine/Mapping.lean ====
section
/-! DEFINITION. The frequency-to-nibble mapping and the MAP command (42_mapping.md). -/

namespace Sys2Proof.Machine

/-- The f64 quotient `q = (f - BASE) / STEP` (42_mapping.md R201). -/
def mapQuotient (P : Params) (f : F64) : F64 :=
  F64.div (F64.sub f (F64.ofInt P.BASE)) (F64.ofInt P.STEP)

/-- `mapNibble(f)`, as `(nibv, nib)` (42_mapping.md R201). -/
def mapNibble (P : Params) (f : F64) : Bool × Nibble :=
  if F64.isFinite f then
    if 0 ≤ F64.roundHalfAway (mapQuotient P f) ∧ F64.roundHalfAway (mapQuotient P f) ≤ 15 then
      (true, BitVec.ofInt 4 (F64.roundHalfAway (mapQuotient P f)))
    else (false, 0)
  else (false, 0)

/-- The writes of a MAP (42_mapping.md R206, R207). -/
def commitMap (r : Bool × Nibble) (s : State) : State :=
  { s with resNibble := r.2, nibv := r.1, done := true }

/-- MAP on an instance: map the latched MAP_IN (42_mapping.md R206). -/
def mapAt (I : Instance) (s : State) : Host.Outcome State Fault Refusal :=
  .next (commitMap (mapNibble I.params s.latch.mapin) s)

/-- MAP (42_mapping.md R206). -/
def execMap (s : State) : Host.Outcome State Fault Refusal := mapAt Config.inst s

end Sys2Proof.Machine
end

