-- ==== Sys2Proof/Machine/Detect.lean ====
section
/-! DEFINITION. The frequency detector and the DETECT command (41_detection.md). -/

namespace Sys2Proof.Machine

/-! ## Window, dequantization (R160 to R165) -/

/-- 8-bit dequantization of one byte (41_detection.md R162). -/
def dequant8 (P : Params) (b : Byte) : F64 := F64.div (F64.ofInt ((b.toNat : Int) - P.BIAS8)) (F64.ofInt 128)

/-- 16-bit dequantization of one byte pair (41_detection.md R163). -/
def dequant16 (h l : Byte) : F64 := F64.div (F64.ofInt (sext16 h l)) (F64.ofInt 32768)

/-- Sample `x[n]` of the window whose bytes start at offset `b` (41_detection.md R160, R162, R163;
20_memory.md R88). -/
def windowSample (P : Params) (d : Depth) (m : Memory) (b n : Nat) : F64 :=
  if d = 0 then dequant8 P (m.read (b + n)) else dequant16 (m.read (b + 2 * n)) (m.read (b + 2 * n + 1))

/-- `floor(A * w(n, F))` of the exact real Hann window, for an integer `A` (00_scope.md R12). The window is 0 at both ends
and 3/4 at one third and two thirds of its length. -/
def hannFloor (F n : Nat) (A : Int) : Int :=
  if n = 0 ∨ n = F - 1 then 0
  else if 3 * n = F - 1 ∨ 3 * n = 2 * (F - 1) then 3 * A / 4
  else
    match ExactTrig.settledFloor (A * FixedTrig.hannFixed n F) (A.natAbs * 2 ^ 131) (2 ^ 256) with
    | some z => z
    | none =>
      ExactTrig.floorWithin (fun k => A * ExactTrig.hannApprox n F k) A.natAbs (ExactTrig.doublings (F - 1)) 128

/-- `WF[n] = RNE(w(n, F))` (41_detection.md R164). Every f64 from 2^-27 to 1 and every midpoint of two of them is a
multiple of 2^-80, so the rounding of the window is that of its floor and ceiling in those units, averaged. -/
def windowCoeff (F n : Nat) : F64 :=
  F64.rne false ((hannFloor F n (2 ^ 80) - hannFloor F n (-2 ^ 80)).toNat * 2 ^ 993) 1

/-- The windowed samples `y[n] = x[n] * WF[n]` (41_detection.md R165). -/
def windowed (P : Params) (d : Depth) (sl : Slot) (m : Memory) : List F64 :=
  (List.range P.F).map fun n =>
    F64.mul (windowSample P d m (winSlotBase P sl d) n) (windowCoeff P.F n)

/-! ## Peak scan, interpolation and frequency (R170 to R176) -/

/-- The peak scan from bin `k` on, over the magnitudes from `m[k-1]` on (41_detection.md R170). -/
def scanFrom (k peak : Nat) (best : F64) : List F64 → Nat
  | α :: β :: γ :: rest =>
    if F64.gt β α && F64.gt β γ && F64.gt β best then scanFrom (k + 1) k β (β :: γ :: rest)
    else scanFrom (k + 1) peak best (β :: γ :: rest)
  | _ => peak

/-- The peak bin over bins 1 to F/2 - 2, or 0 when no interior strict local maximum exists
(41_detection.md R170 to R172). -/
def scan (m : List F64) : Nat := scanFrom 1 0 F64.zero m

/-- The parabolic correction, evaluated left to right (41_detection.md R173). -/
def correction (α β γ : F64) : F64 :=
  F64.div (F64.mul F64.half (F64.sub α γ))
    (F64.add (F64.sub α (F64.mul (F64.ofInt 2) β)) γ)

/-- The frequency estimate of the refined bin `k + c`, in Hz (41_detection.md R176). -/
def freqEstimate (P : Params) (k : Nat) (c : F64) : F64 :=
  F64.div (F64.mul (F64.add (F64.ofInt k) c) (F64.ofInt P.SR)) (F64.ofInt P.F)

/-- What a DETECT commits (41_detection.md R178). -/
structure Detection where
  peak : Nat
  found : Bool
  corr : F64
  freq : F64
  nibv : Bool
  nib : Nibble
  deriving DecidableEq, Repr

/-- The result for a magnitude spectrum (41_detection.md R170 to R177). -/
def detectSpectrum (P : Params) (m : List F64) : Detection :=
  if scan m = 0 then
    { peak := 0, found := false, corr := F64.zero, freq := F64.zero, nibv := false, nib := 0 }
  else
    let c := correction (m.getD (scan m - 1) 0#64) (m.getD (scan m) 0#64) (m.getD (scan m + 1) 0#64)
    let f := freqEstimate P (scan m) c
    { peak := scan m, found := true, corr := c, freq := f, nibv := (mapNibble P f).1, nib := (mapNibble P f).2 }

/-- The writes of a DETECT, all of them in one step (41_detection.md R179). -/
def commitDetect (r : Detection) (s : State) : State :=
  { s with
    resPeak := BitVec.ofNat 32 r.peak
    resCorr := r.corr
    resFreq := r.freq
    resNibble := r.nib
    peak := r.found
    nibv := r.nibv
    done := true }

/-- DETECT on an instance: the dominant frequency of window slot `sl` at depth `d`, mapped to a nibble
(41_detection.md R178). -/
def detectAt (I : Instance) (d : Depth) (sl : Slot) (s : State) : Host.Outcome State Fault Refusal :=
  .next (commitDetect (detectSpectrum I.params (I.mag.fn (windowed I.params d sl s.winbuf))) s)

/-- DETECT (41_detection.md R178). -/
def execDetect (d : Depth) (sl : Slot) (s : State) : Host.Outcome State Fault Refusal :=
  detectAt Config.inst d sl s

end Sys2Proof.Machine
end

