-- ==== Sys2Proof/Machine/ToneRom.lean ====
section
/-! DEFINITION. The tone ROM (40_synthesis.md R140 to R146): the bytes of each entry, from the floor of the exact real
waveform (00_scope.md R12). The fixed-point waveform settles a floor at once where it can; ExactTrig settles every
other one. -/

namespace Sys2Proof.Machine

/-- `f_i = BASE + i * STEP`, in Hz (40_synthesis.md R141). -/
def toneFreq (P : Params) (i : Nibble) : Nat := P.BASE + i.toNat * P.STEP

/-- The waveform `v(i, t)` in units of 2^-384 (40_synthesis.md R141). -/
def waveFixed (P : Params) (i : Nibble) (t : Nat) : Int :=
  FixedTrig.sinTurn (toneFreq P i * t) P.SR * FixedTrig.hannFixed t P.N

/-- More than the error of `waveFixed`, in its units. -/
def waveGuard : Nat := 2 ^ 260

/-- The waveform `v(i, t)` is exactly 0 (40_synthesis.md R146). -/
def waveZero (P : Params) (i : Nibble) (t : Nat) : Bool :=
  t == 0 || t == P.N - 1 || 2 * toneFreq P i * t % P.SR == 0

/-- `floor(A * v(i, t) + B)` of the exact real waveform, for integers `A` and `B` (00_scope.md R12). -/
def toneFloor (P : Params) (i : Nibble) (t : Nat) (A B : Int) : Int :=
  if waveZero P i t then B
  else
    match ExactTrig.settledFloor (A * waveFixed P i t + B * 2 ^ 384) (A.natAbs * waveGuard) (2 ^ 384) with
    | some z => z
    | none =>
      ExactTrig.floorWithin (fun k => A * ExactTrig.waveApprox (toneFreq P i) P.SR P.N t k + B) A.natAbs
        (ExactTrig.doublings (4 * P.SR * (P.N - 1))) 128

/-- `q8 = floor(AMP8 * v + BIAS8)` (40_synthesis.md R143). -/
def q8 (P : Params) (i : Nibble) (t : Nat) : Int := toneFloor P i t P.AMP8 P.BIAS8

/-- `q16 = trunc(AMP16 * v)` (40_synthesis.md R144): toward zero, so the floor of the magnitude with the sign. -/
def q16 (P : Params) (i : Nibble) (t : Nat) : Int :=
  if 0 ≤ toneFloor P i t P.AMP16 0 then toneFloor P i t P.AMP16 0 else -toneFloor P i t (-P.AMP16) 0

/-- The bytes of one sample (40_synthesis.md R145). -/
def sampleBytes (P : Params) (d : Depth) (i : Nibble) (t : Nat) : List Byte :=
  if d = 0 then [BitVec.ofInt 8 (q8 P i t)] else sample16 (q16 P i t)

/-- `ROM[d][i]`, `N * bps(d)` bytes (40_synthesis.md R145). -/
def romEntry (P : Params) (d : Depth) (i : Nibble) : List Byte :=
  (List.range P.N).flatMap (sampleBytes P d i)

end Sys2Proof.Machine
end

