-- ==== Sys2Proof/Machine/Synth.lean ====
section
/-! DEFINITION. The SYNTH command (40_synthesis.md R147, R148). -/

namespace Sys2Proof.Machine

/-- The writes of a SYNTH under a parameter record: the ROM entry into the tone slot (40_synthesis.md R147). -/
def commitSynth (P : Params) (d : Depth) (sl : Slot) (i : Nibble) (s : State) : State :=
  { s with tonebuf := s.tonebuf.writeBlock (toneSlotBase P sl d) (romEntry P d i), done := true }

/-- SYNTH on an instance: write the tone of nibble `i` at depth `d` into tone slot `sl` (40_synthesis.md R147). -/
def synthAt (I : Instance) (d : Depth) (sl : Slot) (i : Nibble) (s : State) : Host.Outcome State Fault Refusal :=
  .next (commitSynth I.params d sl i s)

/-- SYNTH (40_synthesis.md R147). -/
def execSynth (d : Depth) (sl : Slot) (i : Nibble) (s : State) : Host.Outcome State Fault Refusal :=
  synthAt Config.inst d sl i s

end Sys2Proof.Machine
end

