-- ==== Sys2Proof/Machine/Dispatch.lean ====
section
/-! DEFINITION. The effect of each command on the default instance (43_control.md R227, the case on LATCH.op), one arm
per command. -/

namespace Sys2Proof.Machine

def exec (i : Instr) (s : State) : Host.Outcome State Fault Refusal :=
  match i with
  | .nop => Sys2Proof.Machine.execNop s
  | .synth d sl n => Sys2Proof.Machine.execSynth d sl n s
  | .detect d sl => Sys2Proof.Machine.execDetect d sl s
  | .map => Sys2Proof.Machine.execMap s
  | .sreset => Sys2Proof.Machine.execSreset s

end Sys2Proof.Machine
end

