-- ==== Sys2Proof/Machine/Registers.lean ====
section
/-! DEFINITION. The register region: the map, and what a read or a write of each register does
(10_state.md R34 to R68). -/

namespace Sys2Proof.Machine

/-- The registers of 10_state.md R34; `reserved` stands for every offset without a name (R59). -/
inductive Reg where
  | id | status | ctrl | cmd | errinfo | errCmd | mapInLo | mapInHi
  | resPeak | resNibble | resCorrLo | resCorrHi | resFreqLo | resFreqHi
  | pSampleRate | pToneLen | pFftSize | pBaseFreq | pFreqStep | pNumTones | pAmp8 | pBias8 | pAmp16
  | reserved
  deriving DecidableEq, Repr

/-- The register at a word-aligned offset of the register region (10_state.md R34). -/
def regAt (off : Nat) : Reg :=
  match off with
  | 0x000 => .id
  | 0x004 => .status
  | 0x008 => .ctrl
  | 0x00C => .cmd
  | 0x010 => .errinfo
  | 0x014 => .errCmd
  | 0x018 => .mapInLo
  | 0x01C => .mapInHi
  | 0x020 => .resPeak
  | 0x024 => .resNibble
  | 0x028 => .resCorrLo
  | 0x02C => .resCorrHi
  | 0x030 => .resFreqLo
  | 0x034 => .resFreqHi
  | 0x040 => .pSampleRate
  | 0x044 => .pToneLen
  | 0x048 => .pFftSize
  | 0x04C => .pBaseFreq
  | 0x050 => .pFreqStep
  | 0x054 => .pNumTones
  | 0x058 => .pAmp8
  | 0x05C => .pBias8
  | 0x060 => .pAmp16
  | _ => .reserved

/-- The ID register's constant, "D2T1" (10_state.md R36). -/
def idWord : Word := 0x44325431

/-- What a read of a register returns (10_state.md R36 to R68); reserved bits read 0 (R35). -/
def readReg (P : Params) (r : Reg) (s : State) : Word :=
  match r with
  | .id => idWord
  | .status => statusWord s
  | .ctrl => s.ctrl &&& ctrlMask
  | .cmd => 0
  | .errinfo => s.errinfo &&& errinfoMask
  | .errCmd => s.errCmd
  | .mapInLo => loHalf s.mapIn
  | .mapInHi => hiHalf s.mapIn
  | .resPeak => s.resPeak
  | .resNibble => s.resNibble.zeroExtend 32
  | .resCorrLo => loHalf s.resCorr
  | .resCorrHi => hiHalf s.resCorr
  | .resFreqLo => loHalf s.resFreq
  | .resFreqHi => hiHalf s.resFreq
  | .pSampleRate => BitVec.ofNat 32 P.SR
  | .pToneLen => BitVec.ofNat 32 P.N
  | .pFftSize => BitVec.ofNat 32 P.F
  | .pBaseFreq => BitVec.ofNat 32 P.BASE
  | .pFreqStep => BitVec.ofNat 32 P.STEP
  | .pNumTones => BitVec.ofNat 32 P.NT
  | .pAmp8 => BitVec.ofNat 32 P.AMP8
  | .pBias8 => BitVec.ofNat 32 P.BIAS8
  | .pAmp16 => BitVec.ofNat 32 P.AMP16
  | .reserved => 0

/-- What a write to a register does (10_state.md R35, R45 to R50); a read-only or reserved one ignores it. -/
def writeReg (r : Reg) (v : Word) (s : State) : State :=
  match r with
  | .status => writeStatus v s
  | .ctrl => { s with ctrl := v &&& ctrlMask }
  | .cmd => acceptCommand v s
  | .mapInLo => { s with mapIn := withLo s.mapIn v }
  | .mapInHi => { s with mapIn := withHi s.mapIn v }
  | .id | .errinfo | .errCmd | .resPeak | .resNibble | .resCorrLo | .resCorrHi | .resFreqLo | .resFreqHi
  | .pSampleRate | .pToneLen | .pFftSize | .pBaseFreq | .pFreqStep | .pNumTones | .pAmp8 | .pBias8 | .pAmp16
  | .reserved => s

end Sys2Proof.Machine
end

