-- ==== Sys2Proof/Machine/Bus.lean ====
section
/-! DEFINITION. The bus port: the address map, when a transaction is refused, and what each transaction does
(20_memory.md R80 to R97, 60_exceptions.md R258 to R263). -/

namespace Sys2Proof.Machine

/-- The regions of the address map (20_memory.md R82). -/
inductive Region where
  | regs
  | winbuf
  | tonebuf
  | unmapped
  deriving DecidableEq, Repr

/-- The address map (20_memory.md R82). -/
def regionOf (a : Addr) : Region :=
  if a.toNat < 0x00100 then .regs
  else if a.toNat < 0x10000 then .unmapped
  else if a.toNat < 0x20000 then .winbuf
  else if a.toNat < 0x30000 then .tonebuf
  else .unmapped

/-- The offset inside the 64 KiB buffer of a buffer address (20_memory.md R84, R85). -/
def bufferOffset (a : Addr) : Nat := a.toNat % bufferBytes

/-- Why a transaction is refused (60_exceptions.md R258 to R261). -/
inductive BusErr where
  | badWidth
  | misaligned
  | unmapped
  | locked
  | tonebufWrite
  deriving DecidableEq, Repr

/-- The address of a transaction. -/
def Transaction.addr : Transaction → Addr
  | .read a _ => a
  | .write a _ _ _ => a

/-- A width other than 4, or a partial byte strobe (60_exceptions.md R259). -/
def Transaction.badWidth : Transaction → Bool
  | .read _ size => size != 4
  | .write _ size strobe _ => size != 4 || strobe != 0xF

/-- Is the transaction a write? -/
def Transaction.isWrite : Transaction → Bool
  | .read _ _ => false
  | .write _ _ _ _ => true

/-- What a system transaction is at the block's port: the same at the low 18 bits of its address, or nothing if the
address does not reach the block (20_memory.md R81, 60_exceptions.md R272). -/
def SysTransaction.atPort (P : Params) : SysTransaction → Option Transaction
  | .read A size => (portAddr P A).map fun a => .read a size
  | .write A size strobe v => (portAddr P A).map fun a => .write a size strobe v

/-- Why the port refuses a transaction, in the order of 60_exceptions.md R262, or `none`. -/
def refusal (t : Transaction) (s : State) : Option BusErr :=
  if t.badWidth then some .badWidth
  else if t.addr.toNat % 4 ≠ 0 then some .misaligned
  else
    match regionOf t.addr with
    | .regs => none
    | .unmapped => some .unmapped
    | .winbuf => if s.busy then some .locked else none
    | .tonebuf => if s.busy then some .locked else if t.isWrite then some .tonebufWrite else none

/-- The data of a read that is not refused (20_memory.md R83 to R87). -/
def readData (P : Params) (a : Addr) (s : State) : Word :=
  match regionOf a with
  | .regs => readReg P (regAt a.toNat) s
  | .winbuf => s.winbuf.readWord (bufferOffset a)
  | .tonebuf => s.tonebuf.readWord (bufferOffset a)
  | .unmapped => 0

/-- The effect of a write that is not refused (20_memory.md R83, R84). -/
def writeData (a : Addr) (v : Word) (s : State) : State :=
  match regionOf a with
  | .regs => writeReg (regAt a.toNat) v s
  | .winbuf => { s with winbuf := s.winbuf.writeWord (bufferOffset a) v }
  | .tonebuf => s
  | .unmapped => s

/-- One atomic bus transaction (20_memory.md R80): the block's next state and the port's answer. -/
def transact (P : Params) (t : Transaction) (s : State) : State × BusReply :=
  match refusal t s with
  | some _ => (raiseBusError s, { resp := .slverr, data := 0 })
  | none =>
    match t with
    | .read a _ => (s, { resp := .okay, data := readData P a s })
    | .write a _ _ v => (writeData a v s, { resp := .okay, data := 0 })

end Sys2Proof.Machine
end

