-- ==== Sys2Proof/Machine/HostAgent.lean ====
section
/-! DEFINITION. The host agent: the bus and command mnemonics of 30_encoding.md R123 to R126 as lines of a host
program, and one turn of the host. -/

namespace Sys2Proof.Machine

/-- The value of a host variable; one that no line has set holds 0 (notes/assumptions/6.md). -/
def lookupVar (vars : List (Nat × Word)) (x : Nat) : Word :=
  match vars with
  | [] => 0
  | (k, v) :: rest => if k = x then v else lookupVar rest x

/-- The value of an operand. -/
def HostVal.eval (h : HostAgent) : HostVal → Word
  | .imm v => v
  | .var x => lookupVar h.vars x

/-- The transaction that a line issues at the port of a block with parameters `P` (30_encoding.md R124). A line at a
system address that does not reach the block issues none (20_memory.md R81). -/
def HostOp.transaction (P : Params) (h : HostAgent) : HostOp → Option Transaction
  | .wr a v => some (.write a 4 0xF (v.eval h))
  | .rd _ a => some (.read a 4)
  | .poll a _ _ => some (.read a 4)
  | .expect a _ => some (.read a 4)
  | .bus t => some t
  | .sys t => t.atPort P

/-- What the host keeps of an answer, and its remaining lines (30_encoding.md R124). A `poll` line has no bound of its
own and waits on until its value comes: only the number of steps run bounds it. R124 asks a model to bound the
iterations and gives neither the fuel nor what happens when it runs out; no fuel is the model's choice. R124 writes a poll and an
expect as `rd t, a` and does not say whether `t` is a host variable that keeps the word read or a scratch name: here they
set no variable, and the word stands in `replies` alone (DESIGN CHOICE both, notes/assumptions/6.md). -/
def hostAfter (op : HostOp) (rest : List HostOp) (r : BusReply) (h : HostAgent) : HostAgent :=
  match op with
  | .wr _ _ => { h with prog := rest, replies := r :: h.replies }
  | .rd x _ => { h with prog := rest, vars := (x, r.data) :: h.vars, replies := r :: h.replies }
  | .poll a m v =>
    { h with prog := if r.data &&& m = v then rest else .poll a m v :: rest, replies := r :: h.replies }
  | .expect _ v => { h with prog := rest, replies := r :: h.replies, checksOk := h.checksOk && r.data == v }
  | .bus _ => { h with prog := rest, replies := r :: h.replies }
  | .sys _ => { h with prog := rest, replies := r :: h.replies }

/-- One turn of the host: its next transaction (00_scope.md R8). With no line left it does nothing, and a transaction
that does not reach the block leaves it as it is; its answer is another device's and is not kept
(DESIGN CHOICE, notes/assumptions/10.md). -/
def hostTurn (P : Params) (s : State) : State :=
  match s.host.prog with
  | [] => s
  | op :: rest =>
    match op.transaction P s.host with
    | none => { s with host := { s.host with prog := rest } }
    | some t => { (transact P t s).1 with host := hostAfter op rest (transact P t s).2 s.host }

/-! ## Names, command mnemonics and pseudo-instructions (R123, R125, R126) -/

def addrStatus : Addr := 0x00004
def addrCtrl : Addr := 0x00008
def addrCmd : Addr := 0x0000C
def addrMapInLo : Addr := 0x00018
def addrMapInHi : Addr := 0x0001C
def addrResNibble : Addr := 0x00024
def addrWinbuf : Addr := 0x10000
def addrTonebuf : Addr := 0x20000

/-- A command mnemonic: one `wr CMD, word` (30_encoding.md R125). -/
def hostCmd (w : Word) : HostOp := .wr addrCmd (.imm w)

/-- `waitready` (30_encoding.md R126). -/
def hostWaitReady : HostOp := .poll addrStatus 0x1 0x1

/-- `waitidle` (30_encoding.md R126). -/
def hostWaitIdle : HostOp := .poll addrStatus 0x2 0x0

/-- `clrst`, which clears DONE, ERR and BERR (30_encoding.md R126). -/
def hostClrst : HostOp := .wr addrStatus (.imm 0x4C)

/-- An f64 operand of the host: a number, or the f64 variable that `rdf64` left in two word variables. -/
inductive HostF64 where
  /-- An immediate operand. -/
  | imm (x : F64)
  /-- A variable, `fromBits64({hi, lo})`. -/
  | var (lo hi : Nat)
  deriving DecidableEq, Repr

/-- `bits64(x)[31:0]` as a value the host writes. -/
def HostF64.loVal : HostF64 → HostVal
  | .imm x => .imm (loHalf x)
  | .var lo _ => .var lo

/-- `bits64(x)[63:32]` as a value the host writes. -/
def HostF64.hiVal : HostF64 → HostVal
  | .imm x => .imm (hiHalf x)
  | .var _ hi => .var hi

/-- `setmap x` (30_encoding.md R126). -/
def hostSetMap (x : HostF64) : List HostOp := [.wr addrMapInLo x.loVal, .wr addrMapInHi x.hiVal]

/-- `rdf64 x, R_LO` into variables `lo` and `hi` (30_encoding.md R126). -/
def hostRdf64 (lo hi : Nat) (a : Addr) : List HostOp := [.rd lo a, .rd hi (a + 4)]

/-- The f64 that `rdf64` read: `fromBits64({hi, lo})` (30_encoding.md R126). -/
def hostF64 (h : HostAgent) (lo hi : Nat) : F64 := lookupVar h.vars hi ++ lookupVar h.vars lo

/-- `copy dst, src, #n` through variable `x` (30_encoding.md R126). -/
def hostCopy (x : Nat) (dst src : Addr) (n : Nat) : List HostOp :=
  (List.range n).flatMap fun j =>
    [.rd x (src + BitVec.ofNat 18 (4 * j)), .wr (dst + BitVec.ofNat 18 (4 * j)) (.var x)]

/-- `run W`, for the word of any command mnemonic W, `cmd #w` with an illegal or a reserved word among them
(30_encoding.md R125, R126). -/
def hostRun (w : Word) : List HostOp := [hostClrst, hostCmd w, hostWaitIdle]

/-- `encb.dX #b`: the two tones of a byte in slots 0 and 1 (30_encoding.md R126). -/
def hostEncb (d : Depth) (b : Byte) : List HostOp :=
  [hostCmd (encode (.synth d 0 (b.extractLsb' 4 4))), hostWaitIdle,
    hostCmd (encode (.synth d 1 (b.extractLsb' 0 4))), hostWaitIdle]

end Sys2Proof.Machine
end

