-- ==== Sys2Proof/Machine/Engine.lean ====
section
/-! DEFINITION. The engine's two steps and the reset event (43_control.md R227, R228; 70_reset_and_hazards.md
R290 to R293). -/

namespace Sys2Proof.Machine

/-- `InitDone`: every byte of both buffers 0x00, `ENG <- IDLE` (43_control.md R228). -/
def initDone (s : State) : State := { s with winbuf := [], tonebuf := [], eng := .idle }

/-- `ENG <- IDLE`, the last write of `Complete` (43_control.md R227). -/
def finishCommand (s : State) : State := { s with eng := .idle }

/-- The effect of a command on an instance (43_control.md R227, the case on LATCH.op). On the default instance it is
`exec` (Laws/Step.lean, `commandAt_inst`). -/
def commandAt (I : Instance) (i : Instr) (s : State) : Host.Outcome State Fault Refusal :=
  match i with
  | .nop => execNop s
  | .synth d sl n => synthAt I d sl n s
  | .detect d sl => detectAt I d sl s
  | .map => mapAt I s
  | .sreset => execSreset s

/-- `Complete`: the effect of the latched command, then `ENG <- IDLE` (43_control.md R227). -/
def completeAt (I : Instance) (s : State) : Host.Outcome State Fault Refusal :=
  match latchedInstr s.latch with
  | none => .fault .latchHoldsNoCommand
  | some i =>
    match commandAt I i s with
    | .next t => .next (finishCommand t)
    | .fault r => .fault r
    | .refused r => .refused r

/-- `Complete` on the default instance. -/
def complete (s : State) : Host.Outcome State Fault Refusal := completeAt Config.inst s

/-- The engine's turn: its enabled step, and nothing while it is idle (00_scope.md R8, 10_state.md R31). -/
def engineTurnAt (I : Instance) (s : State) : Host.Outcome State Fault Refusal :=
  match s.eng with
  | .init => .next (initDone s)
  | .idle => .next s
  | .busy => completeAt I s

/-- `Reset`: the whole block takes the reset state; the host and the schedule are not part of the block
(70_reset_and_hazards.md R290, R291). -/
def resetBlock (s : State) : State := { State.reset with host := s.host, sched := s.sched }

/-- Who steps when no turn is scheduled: the engine while it has an enabled step, else the host. One of the
interleavings that 00_scope.md R8 allows; a schedule gives any other (notes/assumptions/5.md). -/
def defaultAgent (s : State) : Agent :=
  match s.eng with
  | .idle => .host
  | .init => .engine
  | .busy => .engine

/-- One turn of one agent. -/
def turnAt (I : Instance) (g : Agent) (s : State) : Host.Outcome State Fault Refusal :=
  match g with
  | .host => .next (hostTurn I.params s)
  | .engine => engineTurnAt I s
  | .reset => .next (resetBlock s)

/-- One turn of one agent on the default instance. -/
def turn (g : Agent) (s : State) : Host.Outcome State Fault Refusal := turnAt Config.inst g s

/-- The agent of the next step, and the schedule after it. -/
def nextTurn (s : State) : Agent × State :=
  match s.sched with
  | [] => (defaultAgent s, s)
  | g :: rest => (g, { s with sched := rest })

end Sys2Proof.Machine
end

