-- ==== Sys2Proof/WellFormed.lean ====
section
/-! DEFINITION. Which parameter records are valid instances (00_scope.md R5 and R6), and the one condition
that a command's operands must meet under a parameter record: its slot lies inside the 64 KiB buffer
(20_memory.md R86). Every other operand condition is a field width of Syntax.lean. -/

namespace Sys2Proof

/-- 1 ≤ SR ≤ 2^31-1 (00_scope.md R5). -/
def Params.rateOk (P : Params) : Bool := decide (1 ≤ P.SR) && decide (P.SR ≤ 2 ^ 31 - 1)

/-- N = F (00_scope.md R5 and R6). -/
def Params.lengthOk (P : Params) : Bool := decide (P.N = P.F)

/-- F even, 8 ≤ F ≤ 16384 (00_scope.md R5 and R6). -/
def Params.fftOk (P : Params) : Bool := decide (P.F % 2 = 0) && decide (8 ≤ P.F) && decide (P.F ≤ 16384)

/-- 1 ≤ BASE ≤ 2^31-1 (00_scope.md R5). -/
def Params.baseOk (P : Params) : Bool := decide (1 ≤ P.BASE) && decide (P.BASE ≤ 2 ^ 31 - 1)

/-- 1 ≤ STEP ≤ 2^31-1 (00_scope.md R5). -/
def Params.stepOk (P : Params) : Bool := decide (1 ≤ P.STEP) && decide (P.STEP ≤ 2 ^ 31 - 1)

/-- NT is fixed at 16 (00_scope.md R5). -/
def Params.tonesOk (P : Params) : Bool := decide (P.NT = 16)

/-- AMP8 ≤ BIAS8, BIAS8 ≤ 255 and AMP8 + BIAS8 ≤ 255 (00_scope.md R5). -/
def Params.amp8Ok (P : Params) : Bool :=
  decide (P.AMP8 ≤ P.BIAS8) && decide (P.BIAS8 ≤ 255) && decide (P.AMP8 + P.BIAS8 ≤ 255)

/-- AMP16 ≤ 32767 (00_scope.md R5). -/
def Params.amp16Ok (P : Params) : Bool := decide (P.AMP16 ≤ 32767)

/-- 0 ≤ MAG_TOL ≤ 2^-40 (00_scope.md R5). -/
def Params.tolOk (P : Params) : Bool := decide (0 < P.magTolDen) && decide (P.magTolNum * 2 ^ 40 ≤ P.magTolDen)

/-- The record is a valid instance (00_scope.md R6). -/
def Params.wellFormed (P : Params) : Bool :=
  P.rateOk && P.lengthOk && P.fftOk && P.baseOk && P.stepOk && P.tonesOk && P.amp8Ok && P.amp16Ok && P.tolOk

/-- The command's slot lies inside its buffer. Every command of a valid instance meets it
(Laws/WellFormed.lean). -/
def Instr.wellFormed (P : Params) : Instr → Bool
  | .nop => true
  | .synth d s _ => decide (Machine.toneSlotBase P s d + P.N * Machine.bps d ≤ 65536)
  | .detect d s => decide (Machine.winSlotBase P s d + P.F * Machine.bps d ≤ 65536)
  | .map => true
  | .sreset => true

end Sys2Proof
end

