-- ==== Sys2Proof/Machine/Step.lean ====
section
/-! DEFINITION. One step of the model: one turn of one agent, in the order the schedule gives
(00_scope.md R8, 20_memory.md R98). -/

namespace Sys2Proof.Machine

/-- One step of an instance, the argument that 00_scope.md R5 and 10_state.md R30 ask for. An instance whose
parameters break R5 is refused (00_scope.md R6). -/
def stepAt (I : Instance) (s : State) : Host.Outcome State Fault Refusal :=
  if I.params.wellFormed then turnAt I (nextTurn s).1 (nextTurn s).2
  else .refused .invalidInstance

/-- One step of the default instance. -/
def step (s : State) : Host.Outcome State Fault Refusal := stepAt Config.inst s

/-- The state whose very next step runs the command word that the table's bits `w` give. A command word is
accepted (43_control.md R221, R223, R224): LATCH holds its operands, ENG is BUSY, and the next turn is the
engine's. A word that is no command is the next thing an idle block's host writes to CMD. -/
def State.withFetchWord (s : State) (nbits w : Nat) : State :=
  match decodeTableWord nbits w with
  | some _ =>
    { startCommand (BitVec.ofNat 32 (w % 2 ^ nbits)) s with sched := .engine :: s.sched }
  | none =>
    { s with
      eng := .idle
      host := { s.host with prog := hostCmd (BitVec.ofNat 32 (w % 2 ^ nbits)) :: s.host.prog }
      sched := .host :: s.sched }

end Sys2Proof.Machine
end

