-- ==== Sys2Proof/Machine/HostPipeline.lean ====
section
/-! DEFINITION. The host pipelines around the block, as functions of byte streams (70_reset_and_hazards.md R326 to
R330, R332). They bind host software, not the block. -/

namespace Sys2Proof.Machine

/-- HEADER_LEN (00_scope.md R5, 70_reset_and_hazards.md R327). -/
def headerLen : Nat := 24

/-- The two nibbles of a byte, most significant first (70_reset_and_hazards.md R326). -/
def byteNibbles (b : Byte) : List Nibble := [b.extractLsb' 4 4, b.extractLsb' 0 4]

/-- The nibbles of a payload in order (70_reset_and_hazards.md R326). -/
def payloadNibbles (p : List Byte) : List Nibble := p.flatMap byteNibbles

/-- The encoder: the host's opaque header, then one tone a nibble (70_reset_and_hazards.md R326). -/
def encodeStream (P : Params) (header : List Byte) (d : Depth) (p : List Byte) : List Byte :=
  header ++ (payloadNibbles p).flatMap (romEntry P d)

/-- The host program of the encoder: for each byte, `encb` and a read of both tones' words
(70_reset_and_hazards.md R326, 30_encoding.md R126). -/
def encodeProgram (P : Params) (d : Depth) (p : List Byte) : List HostOp :=
  p.flatMap fun b =>
    hostEncb d b ++ (List.range ((2 * P.N * bps d + 3) / 4)).map fun j =>
      .rd 0 (addrTonebuf + BitVec.ofNat 18 (4 * j))

/-- The whole windows of a sample stream, the short trailing piece discarded, for `n` windows at most
(70_reset_and_hazards.md R328). -/
def windowsOf (len : Nat) : Nat → List Byte → List (List Byte)
  | 0, _ => []
  | n + 1, bs => if len ≤ bs.length ∧ 0 < len then bs.take len :: windowsOf len n (bs.drop len) else []

/-- The windows of a stream: the header is stripped, and a stream shorter than the header has none
(70_reset_and_hazards.md R328). -/
def streamWindows (P : Params) (d : Depth) (stream : List Byte) : List (List Byte) :=
  windowsOf (P.F * bps d) stream.length (stream.drop headerLen)

/-- What a DETECT of one window gives under a magnitude function (70_reset_and_hazards.md R328). "a WINBUF slot" is the
host's free choice there: the model always takes slot 0, of an otherwise all-zero WINBUF (DESIGN CHOICE,
notes/assumptions/13.md). -/
def detectWindow (P : Params) (mag : List F64 → List F64) (d : Depth) (w : List Byte) : Detection :=
  detectSpectrum P (mag (windowed P d 0 (Memory.writeBlock [] 0 w)))

/-- The kept nibbles: a window is dropped when its NIBV is 0 (70_reset_and_hazards.md R329). -/
def keptNibbles (rs : List Detection) : List Nibble := (rs.filter (·.nibv)).map (·.nib)

/-- Pairing: the first nibble of a pair is the most significant one, and an odd count fails
(70_reset_and_hazards.md R330). -/
def pairNibbles : List Nibble → Option (List Byte)
  | [] => some []
  | [_] => none
  | h :: l :: rest => (pairNibbles rest).map fun bs => (h ++ l) :: bs

/-- The decoder of a stream that was made at depth `d` (70_reset_and_hazards.md R328 to R330); `none` is its failure,
with no bytes emitted. A stream made at the other depth is `decodeStreamOf`'s to refuse: what this function answers on
one stands for nothing (93_implementation_defined.md I5, notes/assumptions/16.md). -/
def decodeStream (P : Params) (mag : List F64 → List F64) (d : Depth) (stream : List Byte) : Option (List Byte) :=
  pairNibbles (keptNibbles ((streamWindows P d stream).map (detectWindow P mag d)))

/-- What decoding a stream comes to. -/
inductive DecodeOutcome where
  /-- The payload. -/
  | payload (bytes : List Byte)
  /-- The number of kept nibbles is odd: the decode fails (70_reset_and_hazards.md R330). -/
  | oddCount
  /-- The stream was made at the other depth: undefined at the host level, so refused (70_reset_and_hazards.md R331;
  93_implementation_defined.md I5, "At the host level: `refuse`"). -/
  | wrongDepth
  deriving DecidableEq, Repr

/-- Decoding at depth `d` a stream that was made at depth `made`. Only the opaque header can tell the host how a stream
was made, so the depth it was made at is an argument (DESIGN CHOICE, notes/assumptions/16.md); a mismatch is refused
(70_reset_and_hazards.md R331, 93_implementation_defined.md I5). -/
def decodeStreamOf (P : Params) (mag : List F64 → List F64) (made d : Depth) (stream : List Byte) : DecodeOutcome :=
  if made = d then
    match decodeStream P mag d stream with
    | some bytes => .payload bytes
    | none => .oddCount
  else .wrongDepth

/-! ## The decoder's host program (R328, R329) -/

/-- Bytes packed into bus words, the first in bits 31:24 (20_memory.md R87); a last word that the bytes do not fill ends
in zeros, which lie behind the window (notes/assumptions/13.md). -/
def wordsOf : List Byte → List Word
  | a :: b :: c :: d :: rest => wordOfBytes a b c d :: wordsOf rest
  | [a, b, c] => [wordOfBytes a b c 0]
  | [a, b] => [wordOfBytes a b 0 0]
  | [a] => [wordOfBytes a 0 0 0]
  | [] => []

/-- The writes of words into WINBUF from offset `o` on. -/
def hostWriteWords (o : Nat) : List Word → List HostOp
  | [] => []
  | v :: vs => .wr (addrWinbuf + BitVec.ofNat 18 o) (.imm v) :: hostWriteWords (o + 4) vs

/-- The host variable that holds STATUS after the DETECT of window `k`. -/
def statusVar (k : Nat) : Nat := 2 * k

/-- The host variable that holds RES_NIBBLE after the DETECT of window `k`. -/
def nibbleVar (k : Nat) : Nat := 2 * k + 1

/-- The lines for window `k`: its bytes into WINBUF slot 0 in stream order, `run detect`, and the reads of STATUS and
RES_NIBBLE (70_reset_and_hazards.md R328, step 3). -/
def hostDetectWindow (d : Depth) (k : Nat) (w : List Byte) : List HostOp :=
  hostWriteWords 0 (wordsOf w) ++ hostRun (encode (.detect d 0)) ++
    [.rd (statusVar k) addrStatus, .rd (nibbleVar k) addrResNibble]

/-- The lines for windows in order, the first of them window `k`. -/
def hostDetectWindows (d : Depth) : Nat → List (List Byte) → List HostOp
  | _, [] => []
  | k, w :: ws => hostDetectWindow d k w ++ hostDetectWindows d (k + 1) ws

/-- The host program of the decoder (70_reset_and_hazards.md R328). -/
def decodeProgram (P : Params) (d : Depth) (stream : List Byte) : List HostOp :=
  hostDetectWindows d 0 (streamWindows P d stream)

/-- The nibble of window `k`, kept exactly when the STATUS read has NIBV = 1 (70_reset_and_hazards.md R329). -/
def hostKeptNibble (h : HostAgent) (k : Nat) : Option Nibble :=
  if (lookupVar h.vars (statusVar k)).getLsbD 5 then some ((lookupVar h.vars (nibbleVar k)).extractLsb' 0 4)
  else none

/-- What a host that has run `decodeProgram` on `n` windows decodes from its variables
(70_reset_and_hazards.md R329, R330). -/
def hostDecoded (h : HostAgent) (n : Nat) : Option (List Byte) :=
  pairNibbles ((List.range n).filterMap (hostKeptNibble h))

/-- The lower-case hexadecimal digit of a nibble (70_reset_and_hazards.md R332). -/
def hexDigit (n : Nibble) : Char :=
  if n.toNat < 10 then Char.ofNat ('0'.toNat + n.toNat) else Char.ofNat ('a'.toNat + (n.toNat - 10))

end Sys2Proof.Machine
end

