-- ==== Sys2Proof/Safety.lean ====
section
/-! DEFINITION. What counts as a safe run, in the terms the claims use: the invariant of the block's state, the
states a run can reach, and the sequences of host transactions that claims speak of. -/

namespace Sys2Proof.Machine

/-- The invariant of an instance with parameters `P` (10_state.md R31 to R58, 60_exceptions.md R251 to R255). -/
structure State.InvAt (P : Params) (s : State) : Prop where
  /-- WINBUF is in canonical form. -/
  winbufWf : s.winbuf.wf = true
  /-- TONEBUF is in canonical form. -/
  tonebufWf : s.tonebuf.wf = true
  /-- "LATCH.op is always in 0x00..0x04 then, because only a decoded command is latched" (43_control.md R227). -/
  latched : s.eng = .busy → (latchedInstr s.latch).isSome = true
  /-- CTRL's reserved bits are 0 (10_state.md R46). -/
  ctrlReserved : s.ctrl &&& ~~~ctrlMask = 0
  /-- ERRINFO's reserved bits are 0 (10_state.md R48). -/
  errinfoReserved : s.errinfo &&& ~~~errinfoMask = 0
  /-- Without an error nothing is captured (60_exceptions.md R251, R254, R255). -/
  noError : s.err = false → s.errinfo = 0 ∧ s.errCmd = 0
  /-- A captured code is one of the four (60_exceptions.md R251). -/
  errorCode : s.err = true → 1 ≤ (errCode s.errinfo).toNat ∧ (errCode s.errinfo).toNat ≤ 4
  /-- RES_NIBBLE "is 0 when STATUS.NIBV = 0" (10_state.md R52). -/
  noNibble : s.nibv = false → s.resNibble = 0
  /-- The results are 0 when no peak was found (10_state.md R51, R53, R54). -/
  noPeak : s.peak = false → s.resPeak = 0 ∧ s.resCorr = 0 ∧ s.resFreq = 0
  /-- "k is in 1..F/2−2 when a peak was found" (10_state.md R51). -/
  peakRange : s.peak = true → 1 ≤ s.resPeak.toNat ∧ s.resPeak.toNat ≤ P.F / 2 - 2

/-- The invariant of the default instance. -/
abbrev State.Inv (s : State) : Prop := s.InvAt Config.params

/-- The states of a run: from reset, with any host program and any order of turns. -/
inductive Reachable : State → Prop where
  /-- The reset state, the host and the schedule placed from outside (notes/assumptions/5.md). -/
  | start (h : HostAgent) (g : List Agent) : Reachable { State.reset with host := h, sched := g }
  /-- One step. -/
  | next {s t : State} : Reachable s → step s = .next t → Reachable t

/-- The block after a list of transactions with no engine step between them, the host agent aside. -/
def transactAll (P : Params) : List Transaction → State → State
  | [], s => s
  | t :: ts, s => transactAll P ts (transact P t s).1

/-- `BusWrite(CMD, 4, c)` (43_control.md R221). -/
def cmdWrite (c : Word) : Transaction := .write addrCmd 4 0xF c

/-- `BusWrite(STATUS, 4, v)` (10_state.md R45). -/
def statusWrite (v : Word) : Transaction := .write addrStatus 4 0xF v

/-- The transaction that the host's next turn issues at the port of a block with parameters `P`, if it has a line left
and that reaches the block (30_encoding.md R124, 20_memory.md R81). -/
def nextTransactionAt (P : Params) (s : State) : Option Transaction :=
  s.host.prog.head?.bind (HostOp.transaction P s.host)

/-- The transaction that the host's next turn issues at the default instance. -/
abbrev nextTransaction (s : State) : Option Transaction := nextTransactionAt Config.params s

/-- The step is the host's write of CMD, and the block rejects it (60_exceptions.md R253). -/
def RejectsCommand (s : State) : Prop :=
  (nextTurn s).1 = .host ∧ ∃ c, nextTransaction s = some (cmdWrite c) ∧ ¬(s.eng = .idle ∧ ∃ i, decode c = .cmd i)

/-- The step is the host's write of 1 to bit `k` of STATUS, or it completes SRESET: the two events but reset that
clear an error flag (10_state.md R41, R44). -/
def ClearsFlag (k : Nat) (s : State) : Prop :=
  ((nextTurn s).1 = .host ∧ ∃ v, nextTransaction s = some (statusWrite v) ∧ v.getLsbD k = true) ∨
    ((nextTurn s).1 = .engine ∧ s.eng = .busy ∧ latchedInstr s.latch = some .sreset)

/-- `OKAY` with the data of a read; a write answers 0. -/
def okay (d : Word) : BusReply := { resp := .okay, data := d }

/-- `SLVERR`, data 0 (60_exceptions.md R262). -/
def slverr : BusReply := { resp := .slverr, data := 0 }

/-- Bin `k` of a spectrum is an interior strict local maximum (41_detection.md R170). -/
def StrictLocalMax (m : List F64) (k : Nat) : Prop :=
  1 ≤ k ∧ k + 1 < m.length ∧
    RealSpec.toReal (m.getD (k - 1) 0#64) < RealSpec.toReal (m.getD k 0#64) ∧
    RealSpec.toReal (m.getD (k + 1) 0#64) < RealSpec.toReal (m.getD k 0#64)

/-- Every value is finite and at least +0.0, as MAG_ACC asks (41_detection.md R166). -/
def Magnitudes (m : List F64) : Prop := ∀ x ∈ m, F64.isFinite x = true ∧ F64.sign x = false

/-- Every sample of the window is silence: BIAS8 at 8 bits, 0x0000 at 16 (41_detection.md R180). -/
def SilentWindow (P : Params) (d : Depth) (sl : Slot) (m : Memory) : Prop :=
  ∀ n < P.F,
    (d = 0 → m.read (winSlotBase P sl d + n) = BitVec.ofNat 8 P.BIAS8) ∧
    (d = 1 → m.read (winSlotBase P sl d + 2 * n) = 0 ∧ m.read (winSlotBase P sl d + 2 * n + 1) = 0)

/-- `n` steps, and `none` once the machine stops. -/
def stepN : Nat → State → Option State
  | 0, s => some s
  | n + 1, s =>
    match step s with
    | .next t => stepN n t
    | .fault _ => none
    | .refused _ => none

end Sys2Proof.Machine
end

