-- ==== Sys2Proof/Certificates/Slice0/Obligations.lean ====
section
/-! DEFINITION. The statements for the provers, one `def Obligations.<Name> : Prop` each. They speak of the model's
own functions; every docstring names the rule of spec/ that the statement formalises. -/

open Sys2Proof Sys2Proof.Machine

/-! ## Encoding (30_encoding.md) -/

/-- R117: "A word c spells command X exactly when `(c & mask_X) = match_X`. No word spells two commands", with the
operands of R122. -/
def Obligations.DecodeSpellsExactlyItsRow : Prop :=
  ∀ c : Word,
    (decode c = .cmd .nop ↔ c &&& 0xFFFFFFFF = 0x00000000) ∧
    (∀ d s i, decode c = .cmd (.synth d s i) ↔
      c &&& 0xFFFEFEF0 = 0x01000000 ∧
        d = c.extractLsb' 16 1 ∧ s = c.extractLsb' 8 1 ∧ i = c.extractLsb' 0 4) ∧
    (∀ d s, decode c = .cmd (.detect d s) ↔
      c &&& 0xFFFEFEFF = 0x02000000 ∧ d = c.extractLsb' 16 1 ∧ s = c.extractLsb' 8 1) ∧
    (decode c = .cmd .map ↔ c &&& 0xFFFFFFFF = 0x03000000) ∧
    (decode c = .cmd .sreset ↔ c &&& 0xFFFFFFFF = 0x04000000) ∧
    (∀ i j : Instr, c &&& i.maskWord = i.matchWord → c &&& j.maskWord = j.matchWord →
      i.matchWord = j.matchWord)

/-- Decoding and encoding agree in both directions, for every command and every word (R117, R118, R125). -/
def Obligations.DecodeAndEncodeAgree : Prop :=
  ∀ (i : Instr) (c : Word), decode c = .cmd i ↔ c = encode i

/-- R119: the illegal words are the 251 * 2^24 with OPCODE 0x05..0xFF, and writing one to an idle block raises
ILLEGAL_OPCODE and nothing else. -/
def Obligations.IllegalWordsExactly : Prop :=
  ((Finset.range (2 ^ 32)).filter fun n => decode (BitVec.ofNat 32 n) = .illegal).card = 251 * 2 ^ 24 ∧
  ∀ c : Word,
    (decode c = .illegal ↔ 0x05 ≤ (c.extractLsb' 24 8).toNat) ∧
    (0x05 ≤ (c.extractLsb' 24 8).toNat → ∀ (P : Params) (s : State), s.eng = .idle →
      transact P (cmdWrite c) s = (raiseCmdError .illegalOpcode c s, okay 0))

/-- R120: how many reserved words each opcode has, which words they are, and that writing one to an idle block
raises RESERVED_FIELD and nothing else. -/
def Obligations.ReservedWordsExactly : Prop :=
  (∀ op : Nat, ((Finset.range (2 ^ 32)).filter fun n =>
      n / 2 ^ 24 = op ∧ decode (BitVec.ofNat 32 n) = .reserved).card =
    if op = 1 then 2 ^ 24 - 2 ^ 6 else if op = 2 then 2 ^ 24 - 2 ^ 2
    else if op ≤ 4 then 2 ^ 24 - 1 else 0) ∧
  ∀ c : Word,
    (decode c = .reserved ↔
      (c.extractLsb' 24 8 = 0x00 ∧ c &&& 0x00FFFFFF ≠ 0) ∨ (c.extractLsb' 24 8 = 0x01 ∧ c &&& 0x00FEFEF0 ≠ 0) ∨
      (c.extractLsb' 24 8 = 0x02 ∧ c &&& 0x00FEFEFF ≠ 0) ∨ (c.extractLsb' 24 8 = 0x03 ∧ c &&& 0x00FFFFFF ≠ 0) ∨
      (c.extractLsb' 24 8 = 0x04 ∧ c &&& 0x00FFFFFF ≠ 0)) ∧
    (decode c = .reserved → ∀ (P : Params) (s : State), s.eng = .idle →
      transact P (cmdWrite c) s = (raiseCmdError .reservedField c s, okay 0))

/-- The rows of R127, as words. -/
def Obligations.ExampleWordsDecode : Prop :=
  decode 0x00000000 = .cmd .nop ∧ decode 0x01000003 = .cmd (.synth 0 0 3) ∧
  decode 0x0100010C = .cmd (.synth 0 1 12) ∧ decode 0x0101010A = .cmd (.synth 1 1 10) ∧
  decode 0x02010100 = .cmd (.detect 1 1) ∧ decode 0x03000000 = .cmd .map ∧
  decode 0x04000000 = .cmd .sreset ∧ decode 0x02000005 = .reserved ∧ decode 0x00000001 = .reserved ∧
  decode 0x05000000 = .illegal ∧ decode 0xFF000000 = .illegal ∧ decode 0x01020000 = .reserved

/-! ## Acceptance and command errors (43_control.md, 60_exceptions.md) -/

/-- R221: the acceptance procedure, its checks in order, its latch and its response; and a CMD write of another
width never reaches it. -/
def Obligations.AcceptanceProcedure : Prop :=
  ∀ (P : Params) (s : State) (c : Word),
    transact P (cmdWrite c) s =
      (if s.eng = .init then raiseCmdError .notReady c s
        else if s.eng = .busy then raiseCmdError .busy c s
        else if decode c = .illegal then raiseCmdError .illegalOpcode c s
        else if decode c = .reserved then raiseCmdError .reservedField c s
        else { s with
          latch := { op := c.extractLsb' 24 8, d := c.extractLsb' 16 1, s := c.extractLsb' 8 1,
                     nib := c.extractLsb' 0 4, mapin := s.mapIn }
          eng := .busy },
        okay 0) ∧
    ∀ (size : Nat) (strobe : BitVec 4), size ≠ 4 ∨ strobe ≠ 0xF →
      transact P (.write addrCmd size strobe c) s = ({ s with berr := true }, slverr)

/-- R225: accepting a command changes only LATCH and ENG; BUSY reads 1 at once. -/
def Obligations.AcceptChangesOnlyLatchAndEng : Prop :=
  ∀ (P : Params) (s : State) (c : Word) (i : Instr), s.eng = .idle → decode c = .cmd i →
    ∃ l, (transact P (cmdWrite c) s).1 = { s with latch := l, eng := .busy } ∧
      latchedInstr l = some i ∧ l.mapin = s.mapIn ∧
      (readReg P .status (transact P (cmdWrite c) s).1).getLsbD 1 = true

/-- R252: the effect `raise CmdError(code, c)`, field by field, with the codes of R251. The response is OKAY, and ERR
drives IRQ when it is enabled. -/
def Obligations.CommandErrorEffect : Prop :=
  (∀ (P : Params) (s : State) (c : Word), (transact P (cmdWrite c) s).2 = okay 0) ∧
  (CmdErr.illegalOpcode.code = 1 ∧ CmdErr.reservedField.code = 2 ∧ CmdErr.busy.code = 3 ∧
    CmdErr.notReady.code = 4) ∧
  ∀ (e : CmdErr) (c : Word) (s : State),
    (s.ctrl.getLsbD 1 = true → irq (raiseCmdError e c s) = true) ∧
    (s.err = false → ∃ w, raiseCmdError e c s = { s with err := true, errinfo := w, errCmd := c } ∧
      errCode w = e.code ∧ errOvf w = false ∧ w &&& ~~~errinfoMask = s.errinfo &&& ~~~errinfoMask) ∧
    (s.err = true → ∃ w, raiseCmdError e c s = { s with errinfo := w } ∧
      errCode w = errCode s.errinfo ∧ errOvf w = true ∧
      w &&& ~~~errinfoMask = s.errinfo &&& ~~~errinfoMask)

/-- R254 for an unbroken run of rejections: it keeps the first code and word, and OVF says whether there was more than
one. What other steps in between leave alone is ErrorsAndSettingsChangeOnlyAsGiven. -/
def Obligations.FirstErrorIsKept : Prop :=
  ∀ (s : State) (e : CmdErr) (c : Word) (more : List (CmdErr × Word)), s.err = false →
    ∃ w, (more.foldl (fun t p => raiseCmdError p.1 p.2 t) (raiseCmdError e c s)) =
        { s with err := true, errinfo := w, errCmd := c } ∧
      errCode w = e.code ∧ errOvf w = decide (more ≠ [])

/-- R253: "A rejected command has no effect except rule R252." -/
def Obligations.RejectedCommandDoesNothingElse : Prop :=
  ∀ (P : Params) (s : State) (c : Word), ¬(s.eng = .idle ∧ ∃ i, decode c = .cmd i) →
    ∃ e w x, (transact P (cmdWrite c) s).1 = raiseCmdError e c s ∧
      raiseCmdError e c s = { s with err := true, errinfo := w, errCmd := x }

/-! ## The bus port (20_memory.md, 60_exceptions.md) -/

/-- R258 to R261: exactly which transactions the port refuses. -/
def Obligations.TransactionsRefusedExactly : Prop :=
  ∀ (P : Params) (s : State) (a : Addr) (size : Nat) (strobe : BitVec 4) (v : Word),
    ((transact P (.read a size) s).2.resp = .slverr ↔
      size ≠ 4 ∨ a.toNat % 4 ≠ 0 ∨
      (0x00100 ≤ a.toNat ∧ a.toNat ≤ 0x0FFFF) ∨ 0x30000 ≤ a.toNat ∨
      (0x10000 ≤ a.toNat ∧ a.toNat ≤ 0x2FFFF ∧ s.eng ≠ .idle)) ∧
    ((transact P (.write a size strobe v) s).2.resp = .slverr ↔
      size ≠ 4 ∨ strobe ≠ 0xF ∨ a.toNat % 4 ≠ 0 ∨
      (0x00100 ≤ a.toNat ∧ a.toNat ≤ 0x0FFFF) ∨ 0x30000 ≤ a.toNat ∨
      (0x10000 ≤ a.toNat ∧ a.toNat ≤ 0x2FFFF ∧ s.eng ≠ .idle) ∨
      (0x20000 ≤ a.toNat ∧ a.toNat ≤ 0x2FFFF))

/-- R262: a refused transaction sets BERR, answers SLVERR with data 0 and changes nothing else. -/
def Obligations.BusErrorEffect : Prop :=
  ∀ (P : Params) (t : Transaction) (s : State), (transact P t s).2.resp = .slverr →
    transact P t s = ({ s with berr := true }, slverr)

/-- R92: no read has a side effect but a refused read's BERR, and reading again returns the same. -/
def Obligations.ReadsHaveNoSideEffect : Prop :=
  ∀ (P : Params) (a : Addr) (size : Nat) (s : State),
    ((transact P (.read a size) s).2.resp = .okay → (transact P (.read a size) s).1 = s) ∧
    ((transact P (.read a size) s).2.resp = .slverr →
      (transact P (.read a size) s).1 = { s with berr := true }) ∧
    (transact P (.read a size) (transact P (.read a size) s).1).2 = (transact P (.read a size) s).2

/-- R87 on WINBUF and TONEBUF: a read packs four bytes, the lowest address in bits 31:24, and a write stores them
so and leaves every other byte (R84). -/
def Obligations.BufferWordsAreBigEndian : Prop :=
  ∀ (P : Params) (s : State) (o : Nat) (v : Word), o % 4 = 0 → o < 65536 → s.eng = .idle →
    transact P (.read (BitVec.ofNat 18 (0x10000 + o)) 4) s =
      (s, okay (s.winbuf.read o ++ s.winbuf.read (o + 1) ++ s.winbuf.read (o + 2) ++ s.winbuf.read (o + 3))) ∧
    transact P (.read (BitVec.ofNat 18 (0x20000 + o)) 4) s =
      (s, okay (s.tonebuf.read o ++ s.tonebuf.read (o + 1) ++ s.tonebuf.read (o + 2) ++ s.tonebuf.read (o + 3))) ∧
    ∃ m, transact P (.write (BitVec.ofNat 18 (0x10000 + o)) 4 0xF v) s = ({ s with winbuf := m }, okay 0) ∧
      m.read o = v.extractLsb' 24 8 ∧ m.read (o + 1) = v.extractLsb' 16 8 ∧
      m.read (o + 2) = v.extractLsb' 8 8 ∧ m.read (o + 3) = v.extractLsb' 0 8 ∧
      ∀ a, a < o ∨ o + 4 ≤ a → m.read a = s.winbuf.read a

/-- R35, R59 and R93: a write to a read-only or reserved register offset answers OKAY and changes nothing. -/
def Obligations.ReadOnlyRegistersIgnoreWrites : Prop :=
  ∀ (P : Params) (s : State) (a : Addr) (v : Word), a.toNat % 4 = 0 → a.toNat < 0x100 →
    a.toNat ≠ 0x004 → a.toNat ≠ 0x008 → a.toNat ≠ 0x00C → a.toNat ≠ 0x018 → a.toNat ≠ 0x01C →
    transact P (.write a 4 0xF v) s = (s, okay 0)

/-- R46: what a write of CTRL keeps, in every phase of the engine, and what it reads as afterwards. -/
def Obligations.CtrlWriteAndReadBack : Prop :=
  ∀ (P : Params) (s : State) (v : Word),
    ∃ w, transact P (.write addrCtrl 4 0xF v) s = ({ s with ctrl := w }, okay 0) ∧
      w.getLsbD 0 = v.getLsbD 0 ∧ w.getLsbD 1 = v.getLsbD 1 ∧ (∀ k, 2 ≤ k → w.getLsbD k = false) ∧
      transact P (.read addrCtrl 4) { s with ctrl := w } = ({ s with ctrl := w }, okay w) ∧
      irq { s with ctrl := w } = ((s.done && v.getLsbD 0) || (s.err && v.getLsbD 1))

/-- R50: each half of MAP_IN is written and read by itself, in every phase of the engine, and every pattern is
kept. -/
def Obligations.MapInHalvesAreSeparate : Prop :=
  ∀ (P : Params) (s : State) (v w : Word),
    (∃ x, transact P (.write addrMapInLo 4 0xF v) s = ({ s with mapIn := x }, okay 0) ∧
      x.extractLsb' 0 32 = v ∧ x.extractLsb' 32 32 = s.mapIn.extractLsb' 32 32) ∧
    (∃ x, transact P (.write addrMapInHi 4 0xF w) s = ({ s with mapIn := x }, okay 0) ∧
      x.extractLsb' 32 32 = w ∧ x.extractLsb' 0 32 = s.mapIn.extractLsb' 0 32) ∧
    transact P (.read addrMapInLo 4) s = (s, okay (s.mapIn.extractLsb' 0 32)) ∧
    transact P (.read addrMapInHi 4) s = (s, okay (s.mapIn.extractLsb' 32 32)) ∧
    (transactAll P [.write addrMapInLo 4 0xF v, .write addrMapInHi 4 0xF w] s).mapIn = w ++ v

/-- R45: a write of `v` to STATUS. -/
def Obligations.StatusWriteClearsFlags : Prop :=
  ∀ (P : Params) (s : State) (v : Word),
    transact P (statusWrite v) s =
      ({ s with
          done := if v.getLsbD 2 then false else s.done
          err := if v.getLsbD 3 then false else s.err
          errinfo := if v.getLsbD 3 then 0 else s.errinfo
          errCmd := if v.getLsbD 3 then 0 else s.errCmd
          berr := if v.getLsbD 6 then false else s.berr }, okay 0)

/-- R37 to R39: a read of STATUS, bit by bit. -/
def Obligations.StatusReadsItsFlags : Prop :=
  ∀ (P : Params) (s : State),
    ∃ w, transact P (.read addrStatus 4) s = (s, okay w) ∧
      w.getLsbD 0 = decide (s.eng ≠ .init) ∧ w.getLsbD 1 = decide (s.eng ≠ .idle) ∧
      w.getLsbD 2 = s.done ∧ w.getLsbD 3 = s.err ∧ w.getLsbD 4 = s.peak ∧ w.getLsbD 5 = s.nibv ∧
      w.getLsbD 6 = s.berr ∧ ∀ k, 7 ≤ k → w.getLsbD k = false

/-- R36, R47 to R49, R51 to R54, R59 to R68 and R89: what a read of each read-only register, of CMD and of each
reserved offset returns, in every state and every phase; ID, the parameter registers and the reserved offsets ignore
writes. -/
def Obligations.ReadOnlyRegistersReadTheirValues : Prop :=
  (∀ (P : Params) (s : State), P.wellFormed = true →
    ∀ r ∈ [(0x000, 0x44325431), (0x040, P.SR), (0x044, P.N), (0x048, P.F), (0x04C, P.BASE), (0x050, P.STEP),
        (0x054, 16), (0x058, P.AMP8), (0x05C, P.BIAS8), (0x060, P.AMP16)],
      ∃ w : Word, w.toNat = r.2 ∧ transact P (.read (BitVec.ofNat 18 r.1) 4) s = (s, okay w) ∧
        ∀ v, transact P (.write (BitVec.ofNat 18 r.1) 4 0xF v) s = (s, okay 0)) ∧
  ([Config.params.SR, Config.params.N, Config.params.F, Config.params.BASE, Config.params.STEP,
      Config.params.NT, Config.params.AMP8, Config.params.BIAS8, Config.params.AMP16] : List Nat) =
    [0x0000AC44, 0x00002274, 0x00002274, 0x000003E8, 0x00000019, 0x00000010, 0x0000007F, 0x00000080, 0x00007FFF] ∧
  (∀ (P : Params) (s : State),
    transact P (.read 0x00C 4) s = (s, okay 0) ∧
    transact P (.read 0x010 4) s = (s, okay (s.errinfo &&& 0x0000010F)) ∧
    transact P (.read 0x014 4) s = (s, okay s.errCmd) ∧
    transact P (.read 0x020 4) s = (s, okay s.resPeak) ∧
    transact P (.read 0x024 4) s = (s, okay (0#28 ++ s.resNibble)) ∧
    transact P (.read 0x028 4) s = (s, okay (s.resCorr.extractLsb' 0 32)) ∧
    transact P (.read 0x02C 4) s = (s, okay (s.resCorr.extractLsb' 32 32)) ∧
    transact P (.read 0x030 4) s = (s, okay (s.resFreq.extractLsb' 0 32)) ∧
    transact P (.read 0x034 4) s = (s, okay (s.resFreq.extractLsb' 32 32))) ∧
  ∀ (P : Params) (s : State) (a : Addr), a.toNat % 4 = 0 →
    (a.toNat = 0x038 ∨ a.toNat = 0x03C ∨ (0x064 ≤ a.toNat ∧ a.toNat ≤ 0x0FC)) →
    transact P (.read a 4) s = (s, okay 0) ∧ ∀ v, transact P (.write a 4 0xF v) s = (s, okay 0)

/-- R55: the interrupt output is a function of DONE, ERR and CTRL, and 0 after reset. -/
def Obligations.InterruptOutput : Prop :=
  (∀ s : State, irq s = true ↔
    (s.done = true ∧ s.ctrl.getLsbD 0 = true) ∨ (s.err = true ∧ s.ctrl.getLsbD 1 = true)) ∧
  irq State.reset = false

/-- R86: the slots of a valid instance lie inside the buffers, the two slots of one depth do not overlap, and the
16-bit slot 0 covers both 8-bit slots. R81 and R272, for the whole block: exactly the system addresses in the 256 KiB from
BASE_ADDR or an alias on reach its port, with their low 18 bits; and from a BASE_ADDR that is a multiple of 256 KiB on,
every offset of the map stands at its place. That an alias is a whole window of 256 KiB is the model's choice (DESIGN
CHOICE, notes/assumptions/10.md). -/
def Obligations.SlotsLieInsideTheBuffers : Prop :=
  (∀ P : Params, P.wellFormed = true →
    (∀ (s : Slot) (d : Depth), winSlotBase P s d = s.toNat * P.F * bps d ∧
      toneSlotBase P s d = s.toNat * P.N * bps d ∧
      winSlotBase P s d + P.F * bps d ≤ 65536 ∧ toneSlotBase P s d + P.N * bps d ≤ 65536) ∧
    (∀ d : Depth, winSlotBase P 0 d + P.F * bps d ≤ winSlotBase P 1 d ∧
      toneSlotBase P 0 d + P.N * bps d ≤ toneSlotBase P 1 d) ∧
    winSlotBase P 1 0 + P.F * bps 0 = winSlotBase P 0 1 + P.F * bps 1) ∧
  ∀ (P : Params) (h : HostAgent) (A size : Nat) (strobe : BitVec 4) (v : Word),
    ((∀ b ∈ P.BASE_ADDR :: P.ALIASES, A < b ∨ b + 0x40000 ≤ A) →
      (HostOp.sys (.read A size)).transaction P h = none ∧
      (HostOp.sys (.write A size strobe v)).transaction P h = none) ∧
    ((∃ b ∈ P.BASE_ADDR :: P.ALIASES, b ≤ A ∧ A < b + 0x40000) →
      ∃ a : Addr, a.toNat = A % 0x40000 ∧
        (HostOp.sys (.read A size)).transaction P h = some (.read a size) ∧
        (HostOp.sys (.write A size strobe v)).transaction P h = some (.write a size strobe v)) ∧
    ∀ o < 0x40000, P.BASE_ADDR % 0x40000 = 0 → portAddr P (P.BASE_ADDR + o) = some (BitVec.ofNat 18 o)

/-! ## The commands (43_control.md, 40_synthesis.md, 42_mapping.md, 41_detection.md) -/

/-- R229: NOP sets DONE. No other state changes, and it always completes, on the default instance (`exec`) and on every
other. -/
def Obligations.NopSetsDoneOnly : Prop :=
  (∀ s : State, exec .nop s = .next { s with done := true }) ∧
  ∀ (I : Instance) (s : State), commandAt I .nop s = .next { s with done := true }

/-- R230: SRESET clears the result and error state and sets DONE. CTRL, MAP_IN, both buffers and READY are
unchanged, and it always completes, on the default instance (`exec`) and on every other. -/
def Obligations.SresetClearsResultsAndErrors : Prop :=
  let after : State → State := fun s => { s with
    err := false, errinfo := 0, errCmd := 0, berr := false, peak := false, nibv := false,
    resPeak := 0, resNibble := 0, resCorr := 0, resFreq := 0, done := true }
  (∀ s : State, exec .sreset s = .next (after s)) ∧
  ∀ (I : Instance) (s : State), commandAt I .sreset s = .next (after s)

/-- R147: SYNTH writes the instance's ROM entry into the tone slot byte by byte, leaves every other byte of TONEBUF and
everything else, sets DONE, and always completes, on the default instance (`exec`) and on every other. -/
def Obligations.SynthWritesExactlyItsSlot : Prop :=
  let writes : Params → Depth → Slot → Nibble → Memory → Memory → Prop := fun P d sl i w m =>
    (romEntry P d i).length = P.N * bps d ∧
    (∀ k < P.N * bps d, m.read (toneSlotBase P sl d + k) = (romEntry P d i).getD k 0) ∧
    (∀ a, a < toneSlotBase P sl d ∨ toneSlotBase P sl d + P.N * bps d ≤ a → m.read a = w.read a)
  (∀ (d : Depth) (sl : Slot) (i : Nibble) (s : State),
    ∃ m, exec (.synth d sl i) s = .next { s with tonebuf := m, done := true } ∧
      writes Config.params d sl i s.tonebuf m) ∧
  ∀ (I : Instance) (d : Depth) (sl : Slot) (i : Nibble) (s : State),
    ∃ m, commandAt I (.synth d sl i) s = .next { s with tonebuf := m, done := true } ∧
      writes I.params d sl i s.tonebuf m

/-- R148: "Repeating the same SYNTH leaves TONEBUF unchanged: the command is idempotent." On the default instance
(`exec`) and on every other valid one. -/
def Obligations.SynthIsIdempotent : Prop :=
  (∀ (d : Depth) (sl : Slot) (i : Nibble) (s t : State), s.tonebuf.wf = true →
    exec (.synth d sl i) s = .next t → exec (.synth d sl i) t = .next t) ∧
  ∀ (I : Instance) (d : Depth) (sl : Slot) (i : Nibble) (s t : State), I.params.wellFormed = true →
    s.tonebuf.wf = true → commandAt I (.synth d sl i) s = .next t → commandAt I (.synth d sl i) t = .next t

/-- R206: MAP maps the latched MAP_IN with the instance's parameters, writes RES_NIBBLE, NIBV and DONE, keeps everything
else, and always completes, on the default instance (`exec`) and on every other. What mapNibble gives for each value is
MapOutcomeForEachQuotient. -/
def Obligations.MapWritesNibbleOnly : Prop :=
  let after : Params → State → State := fun P s => { s with
    resNibble := (mapNibble P s.latch.mapin).2, nibv := (mapNibble P s.latch.mapin).1, done := true }
  (∀ s : State, exec .map s = .next (after Config.params s)) ∧
  ∀ (I : Instance) (s : State), commandAt I .map s = .next (after I.params s)

/-- R173, R176 to R179: what DETECT commits, in one step, for the magnitude spectrum of its window. At a peak k: the
correction c is the f64 chain of R173 on the magnitudes at k-1, k and k+1, with the constants 0.5 and 2.0 as bit
patterns, and the frequency f is the chain of R176 on k and c, with the instance's SR and F; without one, zeros.
Everything else, WINBUF and TONEBUF among it (R182), is unchanged, and it always completes, on the default instance
(`exec`) and on every other. -/
def Obligations.DetectCommitsItsResult : Prop :=
  let after : Instance → Depth → Slot → State → State := fun I d sl s =>
    let m := I.mag.fn (windowed I.params d sl s.winbuf)
    let k := scan m
    let α := m.getD (k - 1) 0#64
    let β := m.getD k 0#64
    let γ := m.getD (k + 1) 0#64
    let num := F64.sub α γ
    let den := F64.add (F64.sub α (F64.mul 0x4000000000000000#64 β)) γ
    let c := F64.div (F64.mul 0x3FE0000000000000#64 num) den
    let f := F64.div (F64.mul (F64.add (F64.ofInt k) c) (F64.ofInt I.params.SR)) (F64.ofInt I.params.F)
    if k ≠ 0 then
      { s with resPeak := BitVec.ofNat 32 k, resCorr := c, resFreq := f,
               resNibble := (mapNibble I.params f).2, peak := true,
               nibv := (mapNibble I.params f).1, done := true }
    else
      { s with resPeak := 0, resCorr := 0, resFreq := 0, resNibble := 0, peak := false, nibv := false,
               done := true }
  (∀ (d : Depth) (sl : Slot) (s : State), exec (.detect d sl) s = .next (after Config.inst d sl s)) ∧
  ∀ (I : Instance) (d : Depth) (sl : Slot) (s : State), commandAt I (.detect d sl) s = .next (after I d sl s)

/-! ### f64 arithmetic (00_scope.md) -/

/-- R11: on finite operands `+ - * /` give the real result rounded to nearest, ties to even, whenever that is
finite, and it is when the real result is below 2^1023; `toF64` of an integer of 53 bits is exact. The sign bit of a
zero result is IEEE 754's, as RES_CORR shows it (93_implementation_defined.md I19): an exact sum of zero is +0.0 unless
both terms are negative, and a product or quotient has the exclusive or of the signs. -/
def Obligations.F64OperationsRoundToNearestEven : Prop :=
  (∀ x y : F64, F64.isFinite x = true → F64.isFinite y = true →
    (∀ z r, (z, r) ∈ [(F64.add x y, RealSpec.toReal x + RealSpec.toReal y),
          (F64.sub x y, RealSpec.toReal x - RealSpec.toReal y),
          (F64.mul x y, RealSpec.toReal x * RealSpec.toReal y)] →
      (F64.isFinite z = true → RealSpec.IsRNE r z) ∧ (|r| < 2 ^ 1023 → F64.isFinite z = true)) ∧
    (RealSpec.toReal y ≠ 0 →
      (F64.isFinite (F64.div x y) = true →
        RealSpec.IsRNE (RealSpec.toReal x / RealSpec.toReal y) (F64.div x y)) ∧
      (|RealSpec.toReal x / RealSpec.toReal y| < 2 ^ 1023 → F64.isFinite (F64.div x y) = true)) ∧
    (RealSpec.toReal x + RealSpec.toReal y = 0 → F64.sign (F64.add x y) = (F64.sign x && F64.sign y)) ∧
    (RealSpec.toReal x - RealSpec.toReal y = 0 → F64.sign (F64.sub x y) = (F64.sign x && !F64.sign y)) ∧
    F64.sign (F64.mul x y) = (F64.sign x ^^ F64.sign y) ∧
    (RealSpec.toReal y ≠ 0 → F64.sign (F64.div x y) = (F64.sign x ^^ F64.sign y))) ∧
  (∀ i : Int, i.natAbs ≤ 2 ^ 53 → F64.isFinite (F64.ofInt i) = true ∧ RealSpec.toReal (F64.ofInt i) = i) ∧
  F64.sign (F64.ofInt 0) = false

/-! ### The tone ROM (40_synthesis.md) -/

/-- R143 and R144, evaluated exactly (R12, R141), for every valid instance: q8 is the floor and q16 the truncation of the
exact real waveform, in the ranges that the rules give. -/
def Obligations.RomSamplesQuantizeTheWaveform : Prop :=
  ∀ (P : Params) (i : Nibble) (t : Nat), P.wellFormed = true → t < P.N →
    let v := RealSpec.waveform (toneFreq P i) P.SR P.N t
    q8 P i t = ⌊P.AMP8 * v + P.BIAS8⌋ ∧ q16 P i t = RealSpec.trunc (P.AMP16 * v) ∧
    (P.BIAS8 : Int) - P.AMP8 ≤ q8 P i t ∧ q8 P i t ≤ P.BIAS8 + P.AMP8 ∧ 0 ≤ q8 P i t ∧ q8 P i t ≤ 255 ∧
    -(P.AMP16 : Int) ≤ q16 P i t ∧ q16 P i t ≤ P.AMP16

/-- R141 to R145 for every valid instance: the length of a ROM entry, and every byte of it is the one that the exact real
waveform gives. -/
def Obligations.RomEntryIsExact : Prop :=
  ∀ (P : Params) (i : Nibble), P.wellFormed = true →
    (romEntry P 0 i).length = P.N ∧ (romEntry P 1 i).length = 2 * P.N ∧
    ∀ t < P.N,
      let v := RealSpec.waveform (P.BASE + i.toNat * P.STEP) P.SR P.N t
      (romEntry P 0 i).getD t 0 = BitVec.ofInt 8 ⌊P.AMP8 * v + P.BIAS8⌋ ∧
      (romEntry P 1 i).getD (2 * t) 0 =
        (BitVec.ofInt 16 (RealSpec.trunc (P.AMP16 * v))).extractLsb' 8 8 ∧
      (romEntry P 1 i).getD (2 * t + 1) 0 =
        (BitVec.ofInt 16 (RealSpec.trunc (P.AMP16 * v))).extractLsb' 0 8

/-- R146: where the waveform is exactly 0, and that q8 is BIAS8 and q16 is 0 there, for any valid instance. -/
def Obligations.RomExactZeros : Prop :=
  ∀ (P : Params) (i : Nibble) (t : Nat), P.wellFormed = true → t < P.N →
    (RealSpec.waveform (toneFreq P i) P.SR P.N t = 0 ↔
      t = 0 ∨ t = P.N - 1 ∨ P.SR ∣ 2 * toneFreq P i * t) ∧
    (t = 0 ∨ t = P.N - 1 ∨ P.SR ∣ 2 * toneFreq P i * t → q8 P i t = P.BIAS8 ∧ q16 P i t = 0)

/-! ### The mapping (42_mapping.md) -/

/-- R201 to R203: for every finite input the quotient of R201, written out with the instance's BASE and STEP, is finite,
the result is the one that `roundHalfAway` of its real value gives, and the outcome for each value of it is that of
R203's table. NaNs and infinities of every pattern are unrecognized, and so are both zeros at the defaults (R204). -/
def Obligations.MapOutcomeForEachQuotient : Prop :=
  (∀ (P : Params) (f : F64), F64.isNaN f = true ∨ F64.isInf f = true → mapNibble P f = (false, 0)) ∧
  mapNibble Config.params 0x0000000000000000 = (false, 0) ∧
  mapNibble Config.params 0x8000000000000000 = (false, 0) ∧
  ∀ (P : Params) (f : F64), P.wellFormed = true → F64.isFinite f = true →
    let qf := F64.div (F64.sub f (F64.ofInt P.BASE)) (F64.ofInt P.STEP)
    let q := RealSpec.toReal qf
    let r := RealSpec.roundHalfAway q
    F64.isFinite qf = true ∧
    mapNibble P f = (if 0 ≤ r ∧ r ≤ 15 then (true, BitVec.ofInt 4 r) else (false, 0)) ∧
    (q ≤ -(1 / 2) → mapNibble P f = (false, 0)) ∧
    (-(1 / 2) < q → q < 1 / 2 → mapNibble P f = (true, 0)) ∧
    (∀ n : Nat, 1 ≤ n → n ≤ 15 → (n : ℝ) - 1 / 2 ≤ q → q < n + 1 / 2 →
      mapNibble P f = (true, BitVec.ofNat 4 n)) ∧
    (31 / 2 ≤ q → mapNibble P f = (false, 0))

/-- R205 at the defaults, the rounding of q included: the bands of the sixteen nibbles, exactly. -/
def Obligations.MapToleranceBands : Prop :=
  ∀ (f : F64) (n : Nibble), F64.isFinite f = true →
    (mapNibble Config.params f = (true, n) ↔
      (987.5 + 25 * (n.toNat : ℝ) ≤ RealSpec.toReal f ∧ RealSpec.toReal f < 1012.5 + 25 * (n.toNat : ℝ) ∧
        (n = 0 → 987.5 < RealSpec.toReal f)))

/-! ### Dequantization, window and transform (41_detection.md) -/

/-- R162 and R163: dequantization is exact, for every byte and every pair, and its range. -/
def Obligations.DequantizationIsExact : Prop :=
  ∀ (P : Params) (m : Memory) (b n : Nat), P.wellFormed = true →
    F64.isFinite (windowSample P 0 m b n) = true ∧
    RealSpec.toReal (windowSample P 0 m b n) = ((m.read (b + n)).toNat - (P.BIAS8 : ℝ)) / 128 ∧
    |RealSpec.toReal (windowSample P 0 m b n)| ≤ 255 / 128 ∧
    (P.BIAS8 = 128 → -1 ≤ RealSpec.toReal (windowSample P 0 m b n) ∧
      RealSpec.toReal (windowSample P 0 m b n) ≤ 0.9921875) ∧
    F64.isFinite (windowSample P 1 m b n) = true ∧
    RealSpec.toReal (windowSample P 1 m b n) =
      ((m.read (b + 2 * n) ++ m.read (b + 2 * n + 1) : BitVec 16).toInt : ℝ) / 32768 ∧
    -1 ≤ RealSpec.toReal (windowSample P 1 m b n) ∧
    RealSpec.toReal (windowSample P 1 m b n) ≤ 32767 / 32768

/-- R164, for every valid instance: each coefficient of the detector's window table is the correctly rounded exact real
Hann window, and both ends are +0.0. -/
def Obligations.WindowTableIsRounded : Prop :=
  ∀ (P : Params), P.wellFormed = true →
    (∀ n < P.F, RealSpec.IsRNE (RealSpec.hann n P.F) (windowCoeff P.F n)) ∧
    windowCoeff P.F 0 = 0 ∧ windowCoeff P.F (P.F - 1) = 0

/-- R165: the windowed samples are the rounded products, of size at most 255/128, and the first and the last are
zero. -/
def Obligations.WindowedSamplesAreBounded : Prop :=
  ∀ (P : Params) (d : Depth) (sl : Slot) (m : Memory) (n : Nat), P.wellFormed = true → n < P.F →
    let y := (windowed P d sl m).getD n 0#64
    y = F64.mul (windowSample P d m (winSlotBase P sl d) n) (windowCoeff P.F n) ∧
    F64.isFinite y = true ∧ |RealSpec.toReal y| ≤ 255 / 128 ∧
    (n = 0 ∨ n = P.F - 1 → RealSpec.toReal y = 0)

/-- R170 and R171: the scan finds a peak exactly when some interior strict local maximum exists, and then the
lowest of the largest ones. -/
def Obligations.ScanFindsLowestLargestPeak : Prop :=
  ∀ m : List F64, Magnitudes m →
    (scan m = 0 ↔ ∀ k, ¬StrictLocalMax m k) ∧
    (scan m ≠ 0 → StrictLocalMax m (scan m) ∧
      ∀ k, StrictLocalMax m k →
        RealSpec.toReal (m.getD k 0#64) ≤ RealSpec.toReal (m.getD (scan m) 0#64) ∧
        (k < scan m → RealSpec.toReal (m.getD k 0#64) < RealSpec.toReal (m.getD (scan m) 0#64)))

/-- R172: with no interior strict local maximum the peak is 0 and every result is zero; nothing is interpolated
and nothing mapped. -/
def Obligations.NoLocalMaximumMeansNoPeak : Prop :=
  ∀ (P : Params) (m : List F64) (s : State), Magnitudes m → (∀ k, ¬StrictLocalMax m k) →
    commitDetect (detectSpectrum P m) s = { s with
      resPeak := 0, resCorr := 0, resFreq := 0, resNibble := 0, peak := false, nibv := false, done := true }

/-- R180, item 1: a window of silence gives no peak, whatever the magnitude function is (R169), on the default instance
(`exec`) and on every other valid one. -/
def Obligations.SilenceGivesNoPeak : Prop :=
  let after : State → State := fun s => { s with
    resPeak := 0, resCorr := 0, resFreq := 0, resNibble := 0, peak := false, nibv := false, done := true }
  (∀ (d : Depth) (sl : Slot) (s : State), SilentWindow Config.params d sl s.winbuf →
    exec (.detect d sl) s = .next (after s)) ∧
  ∀ (I : Instance) (d : Depth) (sl : Slot) (s : State), I.params.wellFormed = true →
    SilentWindow I.params d sl s.winbuf → commandAt I (.detect d sl) s = .next (after s)

/-- R174: at a peak the denominator of the correction is a negative finite f64, whatever the magnitude function
is, for every window of every valid instance. -/
def Obligations.PeakDenominatorIsNegative : Prop :=
  ∀ (I : Instance) (d : Depth) (sl : Slot) (w : Memory), I.params.wellFormed = true →
    let m := I.mag.fn (windowed I.params d sl w)
    let den := F64.add (F64.sub (m.getD (scan m - 1) 0#64) (F64.mul (F64.ofInt 2) (m.getD (scan m) 0#64)))
      (m.getD (scan m + 1) 0#64)
    scan m ≠ 0 → F64.isFinite den = true ∧ RealSpec.toReal den < 0

/-- R175: RES_CORR and RES_FREQ are finite whenever DETECT finds a peak, whatever the magnitude function is, on the
default instance (`exec`) and on every other valid one; and the exact correction from the magnitudes around the scanned
bin lies strictly between -1/2 and 1/2. -/
def Obligations.PeakResultsAreFinite : Prop :=
  (∀ (d : Depth) (sl : Slot) (s t : State), exec (.detect d sl) s = .next t → t.peak = true →
    F64.isFinite t.resCorr = true ∧ F64.isFinite t.resFreq = true) ∧
  (∀ (I : Instance) (d : Depth) (sl : Slot) (s t : State), I.params.wellFormed = true →
    commandAt I (.detect d sl) s = .next t → t.peak = true →
    F64.isFinite t.resCorr = true ∧ F64.isFinite t.resFreq = true) ∧
  ∀ (I : Instance) (d : Depth) (sl : Slot) (w : Memory), I.params.wellFormed = true →
    let m := I.mag.fn (windowed I.params d sl w)
    let α := RealSpec.toReal (m.getD (scan m - 1) 0#64)
    let β := RealSpec.toReal (m.getD (scan m) 0#64)
    let γ := RealSpec.toReal (m.getD (scan m + 1) 0#64)
    scan m ≠ 0 → |0.5 * (α - γ) / (α - 2 * β + γ)| < 1 / 2

/-- R167: the reference magnitude meets the accuracy bound of MAG_ACC for MAG_TOL = 2^-52, hence for every larger
one, on the inputs MagInput, the model's reading of MAG_ACC (DEDUCED, notes/assumptions/3.md). -/
def Obligations.MagRefMeetsMagAcc : Prop :=
  ∀ (F : Nat) (y m : List F64) (tol : ℝ), RealSpec.MagInput F y → RealSpec.IsMagRef F y m → 1 / 2 ^ 52 ≤ tol →
    ∀ k < F / 2, F64.isFinite (m.getD k 0#64) = true ∧ 0 ≤ RealSpec.toReal (m.getD k 0#64) ∧
      |RealSpec.toReal (m.getD k 0#64) - ‖RealSpec.dft F y k‖| ≤ tol * RealSpec.absSum F y

/-- R180, item 2: a window with one nonzero sample has a flat spectrum, so under MAG_REF it gives no peak. -/
def Obligations.ImpulseGivesNoPeakUnderMagRef : Prop :=
  ∀ (F : Nat) (y m : List F64) (n₀ : Nat), RealSpec.MagInput F y → RealSpec.IsMagRef F y m →
    (∀ n, n ≠ n₀ → RealSpec.toReal (y.getD n 0#64) = 0) → scan m = 0

/-! ## The engine, reset and the whole machine -/

/-- One step runs the decoded instruction: a command word that the host writes to an idle block is accepted, and
the engine's next turn gives `exec` of the instruction it decodes to, with ENG back at IDLE (R220, R227). The same on every
valid instance, with the effect `commandAt` of that very instance (R5, R30), whose host turn issues the line's transaction
to a block with that instance's parameters. That a line whose address does not reach the block (R81 says which do)
leaves the block as it is, is the model's choice, not the spec's (DESIGN CHOICE, notes/assumptions/10.md). -/
def Obligations.StepRunsTheDecodedInstruction : Prop :=
  (∀ (s : State) (c : Word) (i : Instr) (ops : List HostOp) (rest : List Agent),
    s.eng = .idle → s.host.prog = hostCmd c :: ops → s.sched = .host :: .engine :: rest → decode c = .cmd i →
    ∃ u t, step s = .next u ∧ u.eng = .busy ∧ u.latch = latchOf c s ∧ u.host.prog = ops ∧
      exec i { u with sched := rest } = .next t ∧ step u = .next { t with eng := .idle }) ∧
  (∀ (I : Instance) (s : State) (c : Word) (i : Instr) (ops : List HostOp) (rest : List Agent),
    I.params.wellFormed = true →
    s.eng = .idle → s.host.prog = hostCmd c :: ops → s.sched = .host :: .engine :: rest → decode c = .cmd i →
    ∃ u t, stepAt I s = .next u ∧ u.eng = .busy ∧ u.latch = latchOf c s ∧ u.host.prog = ops ∧
      commandAt I i { u with sched := rest } = .next t ∧ stepAt I u = .next { t with eng := .idle }) ∧
  ∀ (I : Instance) (s : State) (op : HostOp) (ops : List HostOp) (rest : List Agent),
    I.params.wellFormed = true → s.host.prog = op :: ops → s.sched = .host :: rest →
    (op.transaction I.params s.host = none → ∃ h, stepAt I s = .next { s with sched := rest, host := h }) ∧
    ∀ tr, op.transaction I.params s.host = some tr →
      ∃ h, stepAt I s = .next { (transact I.params tr { s with sched := rest }).1 with host := h }

/-- R228: the InitDone step, on the default instance and on every other. -/
def Obligations.InitDoneClearsBothBuffers : Prop :=
  ∀ s : State, s.eng = .init →
    ∃ w b, turn .engine s = .next { s with eng := .idle, winbuf := w, tonebuf := b } ∧
      (∀ I : Instance, turnAt I .engine s = .next { s with eng := .idle, winbuf := w, tonebuf := b }) ∧
      ∀ o, w.read o = 0x00 ∧ b.read o = 0x00

/-- R31: each event makes its transition of ENG, and no other transition exists. -/
def Obligations.EngineTransitions : Prop :=
  ∀ s t : State, step s = .next t →
    ((nextTurn s).1 = .reset → t.eng = .init) ∧
    ((nextTurn s).1 = .engine → s.eng = .init → t.eng = .idle) ∧
    ((nextTurn s).1 = .engine → s.eng = .busy → t.eng = .idle) ∧
    ((nextTurn s).1 = .host → s.eng = .idle →
      (∃ c i, nextTransaction s = some (cmdWrite c) ∧ decode c = .cmd i) → t.eng = .busy) ∧
    (t.eng ≠ s.eng →
      ((nextTurn s).1 = .reset ∧ t.eng = .init) ∨
      ((nextTurn s).1 = .engine ∧ s.eng = .init ∧ t.eng = .idle) ∨
      ((nextTurn s).1 = .engine ∧ s.eng = .busy ∧ t.eng = .idle) ∨
      ((nextTurn s).1 = .host ∧ s.eng = .idle ∧ t.eng = .busy ∧
        ∃ c i, nextTransaction s = some (cmdWrite c) ∧ decode c = .cmd i ∧ latchedInstr t.latch = some i))

/-- R226: every completion sets DONE, and no other step does. -/
def Obligations.DoneIsSetByCompleteOnly : Prop :=
  ∀ s t : State, step s = .next t →
    ((nextTurn s).1 = .engine → s.eng = .busy → t.done = true) ∧
    (s.done = false → t.done = true → (nextTurn s).1 = .engine ∧ s.eng = .busy ∧ t.eng = .idle)

/-- Which steps write the result registers (R42, R43, R51 to R54, R311): outside reset only the engine's turn that
completes SRESET or DETECT, and for RES_NIBBLE and NIBV also MAP; never a turn of the host. -/
def Obligations.ResultsChangeOnlyAtTheirCommands : Prop :=
  ∀ s t : State, step s = .next t → (nextTurn s).1 ≠ .reset →
    ((t.resPeak ≠ s.resPeak ∨ t.resCorr ≠ s.resCorr ∨ t.resFreq ≠ s.resFreq ∨ t.peak ≠ s.peak) →
      (nextTurn s).1 = .engine ∧ s.eng = .busy ∧ t.eng = .idle ∧
        ((∃ d sl, latchedInstr s.latch = some (.detect d sl)) ∨ latchedInstr s.latch = some .sreset)) ∧
    ((t.resNibble ≠ s.resNibble ∨ t.nibv ≠ s.nibv) →
      (nextTurn s).1 = .engine ∧ s.eng = .busy ∧ t.eng = .idle ∧
        ((∃ d sl, latchedInstr s.latch = some (.detect d sl)) ∨
          latchedInstr s.latch = some .map ∨ latchedInstr s.latch = some .sreset))

/-- Which steps change the buffers (R84, R85, R104, R105): WINBUF the host's writes to an idle block, TONEBUF the
completion of SYNTH, both InitDone and reset. -/
def Obligations.BuffersChangeOnlyAsGiven : Prop :=
  ∀ s t : State, step s = .next t → (nextTurn s).1 ≠ .reset →
    (t.winbuf ≠ s.winbuf →
      ((nextTurn s).1 = .host ∧ s.eng = .idle) ∨ ((nextTurn s).1 = .engine ∧ s.eng = .init)) ∧
    (t.tonebuf ≠ s.tonebuf →
      ((nextTurn s).1 = .engine ∧ s.eng = .busy ∧ ∃ d sl i, latchedInstr s.latch = some (.synth d sl i)) ∨
      ((nextTurn s).1 = .engine ∧ s.eng = .init))

/-- R223: an accepting write captures the operands, and no host transactions made while a command runs change its
result. -/
def Obligations.ResultIsFixedAtAccept : Prop :=
  (∀ (P : Params) (s : State) (c : Word) (i : Instr), s.eng = .idle → decode c = .cmd i →
    (transact P (cmdWrite c) s).1.latch =
      { op := c.extractLsb' 24 8, d := c.extractLsb' 16 1, s := c.extractLsb' 8 1, nib := c.extractLsb' 0 4,
        mapin := s.mapIn }) ∧
  ∀ (s t : State) (ts : List Transaction), s.eng = .busy → complete s = .next t →
    ∃ t', complete (transactAll Config.params ts s) = .next t' ∧ t'.eng = t.eng ∧ t'.done = t.done ∧
      t'.winbuf = t.winbuf ∧ t'.tonebuf = t.tonebuf ∧ t'.resPeak = t.resPeak ∧ t'.resCorr = t.resCorr ∧
      t'.resFreq = t.resFreq ∧ t'.resNibble = t.resNibble ∧ t'.peak = t.peak ∧ t'.nibv = t.nibv

/-- R290, R291, R299 and R70: a reset in any phase replaces the whole block by the reset state, whatever command was
running, on every instance alike; and what each register of the default instance reads on the bus after it, before and
after InitDone. LATCH and the buffers, which the spec leaves unspecified there, are left out. -/
def Obligations.ResetReplacesTheWholeState : Prop :=
  ∀ s : State, ∃ t, turn .reset s = .next t ∧ (∀ I : Instance, turnAt I .reset s = .next t) ∧
    (t.eng = .init ∧ t.ctrl = 0 ∧ t.errinfo = 0 ∧ t.errCmd = 0 ∧ t.mapIn = 0 ∧ t.resPeak = 0 ∧ t.resNibble = 0 ∧
      t.resCorr = 0 ∧ t.resFreq = 0 ∧ t.done = false ∧ t.err = false ∧ t.peak = false ∧ t.nibv = false ∧
      t.berr = false ∧ irq t = false ∧ t.host = s.host ∧ t.sched = s.sched) ∧
    ∀ u ∈ [t, initDone t],
      (∀ a ∈ ([0x008, 0x00C, 0x010, 0x014, 0x018, 0x01C, 0x020, 0x024, 0x028, 0x02C, 0x030, 0x034, 0x038, 0x03C] :
          List Addr), transact Config.params (.read a 4) u = (u, okay 0)) ∧
      transact Config.params (.read addrStatus 4) u =
        (u, okay (if u.eng = .init then 0x00000002 else 0x00000001)) ∧
      transact Config.params (.read 0x000 4) u = (u, okay 0x44325431) ∧
      (∀ r ∈ ([(0x040, 0x0000AC44), (0x044, 0x00002274), (0x048, 0x00002274), (0x04C, 0x000003E8),
          (0x050, 0x00000019), (0x054, 0x00000010), (0x058, 0x0000007F), (0x05C, 0x00000080),
          (0x060, 0x00007FFF)] : List (Addr × Word)),
        transact Config.params (.read r.1 4) u = (u, okay r.2)) ∧
      ∀ a : Addr, a.toNat % 4 = 0 → 0x064 ≤ a.toNat → a.toNat ≤ 0x0FC →
        transact Config.params (.read a 4) u = (u, okay 0)

/-- R250 and R256: nothing stops the machine. In every state that meets the invariant a step has a next state, on the
default instance and on every other valid one (R5); an instance that is not valid takes no step at all (R6). -/
def Obligations.EveryStepHasANextState : Prop :=
  (∀ s : State, s.Inv → ∃ t, step s = .next t) ∧
  ∀ (I : Instance) (s : State),
    (I.params.wellFormed = true → s.InvAt I.params → ∃ t, stepAt I s = .next t) ∧
    (I.params.wellFormed = false → stepAt I s = .refused .invalidInstance)

/-- The reset state meets the invariant, with any host program and any schedule. -/
def Obligations.ResetMeetsTheInvariant : Prop :=
  ∀ (h : HostAgent) (g : List Agent), State.Inv { State.reset with host := h, sched := g }

/-- Every step keeps the invariant, from every state that meets it: both buffers canonical, LATCH a command
while BUSY, reserved bits 0, nothing captured without an error and one of the four codes with one, RES_NIBBLE 0
without NIBV, the results 0 without a peak, and RES_PEAK inside the scan range with one. So it is on the default
instance, and on every instance that takes a step, whatever its parameters and its magnitude function (R5, R30). -/
def Obligations.EveryStepKeepsTheInvariant : Prop :=
  (∀ s t : State, s.Inv → step s = .next t → t.Inv) ∧
  ∀ (I : Instance) (s t : State), s.InvAt I.params → stepAt I s = .next t → t.InvAt I.params

/-- R318 and R231, bounded: from any state of the invariant whose engine has an enabled step, after any number of
host turns the engine's turn comes and ends the command or the initialisation. -/
def Obligations.EngineTurnEndsBusy : Prop :=
  ∀ (s : State) (n : Nat) (rest : List Agent), s.Inv → s.eng ≠ .idle →
    s.sched = List.replicate n .host ++ .engine :: rest →
    ∃ u t, stepN n s = some u ∧ u.eng = s.eng ∧ stepN (n + 1) s = some t ∧ t.eng = .idle ∧ t.sched = rest

/-! ## The host around the block (30_encoding.md, 70_reset_and_hazards.md) -/

/-- `run W` of R126 on an idle block, the engine going first when it can (notes/assumptions/5.md). For a command, four
steps write STATUS and CMD, complete the command and see BUSY = 0; the results are those of the command, and the errors
are cleared. For a word that is no command, `cmd #w` of R125, three steps write STATUS, have the word rejected and see
BUSY = 0, and nothing but the flags and the error differs. -/
def Obligations.RunPseudoInstructionCompletes : Prop :=
  (∀ (s : State) (i : Instr), s.eng = .idle → s.sched = [] → s.host.prog = hostRun (encode i) →
    ∃ t v, stepN 4 s = some t ∧ exec i (startCommand (encode i) (writeStatus 0x4C s)) = .next v ∧
      t.host.prog = [] ∧ t.eng = .idle ∧ t.done = true ∧ t.tonebuf = v.tonebuf ∧ t.resPeak = v.resPeak ∧
      t.resCorr = v.resCorr ∧ t.resFreq = v.resFreq ∧ t.resNibble = v.resNibble ∧ t.peak = v.peak ∧
      t.nibv = v.nibv ∧ t.winbuf = s.winbuf ∧
      t.err = false ∧ t.errinfo = 0 ∧ t.errCmd = 0 ∧ t.berr = false) ∧
  ∀ (s : State) (w : Word), s.eng = .idle → s.sched = [] → s.host.prog = hostRun w → (∀ i, decode w ≠ .cmd i) →
    ∃ h, h.prog = [] ∧ stepN 3 s = some
      { raiseCmdError (if decode w = .illegal then .illegalOpcode else .reservedField) w (writeStatus 0x4C s) with
        host := h }

/-- Splitting a payload into nibbles and pairing them again gives the payload back, and an odd count fails
(R326, R330). -/
def Obligations.NibblePairingRoundTrip : Prop :=
  (∀ p : List Byte, pairNibbles (payloadNibbles p) = some p) ∧
  ∀ ns : List Nibble, ns.length % 2 = 1 ↔ pairNibbles ns = none

/-- Cutting an encoded stream into windows gives back exactly the tones of its nibbles, because N = F, and the
length of the stream is `24 + 2·L·N·bps(d)` (R326, R328, R6). -/
def Obligations.EncodedStreamCutsIntoItsTones : Prop :=
  ∀ (P : Params) (header : List Byte) (d : Depth) (p : List Byte),
    P.wellFormed = true → header.length = headerLen →
    (encodeStream P header d p).length = 24 + 2 * p.length * P.N * bps d ∧
    streamWindows P d (encodeStream P header d p) = (payloadNibbles p).map (romEntry P d)

/-- Which steps write ERR, ERRINFO, ERR_CMD, BERR, CTRL, MAP_IN and LATCH (R41, R44, R46, R48 to R50, R58), outside
reset: ERR and its registers a rejected CMD write, and what clears ERR; BERR a refused transaction, and what clears it;
CTRL and MAP_IN the host's writes of them; LATCH an accepted CMD write. While ERR stays set, the first code and word
stay (R254). That LATCH also keeps its operands over a Complete and over InitDone is the model's choice (DESIGN CHOICE,
notes/assumptions/1.md): R58 leaves LATCH unspecified outside BUSY. -/
def Obligations.ErrorsAndSettingsChangeOnlyAsGiven : Prop :=
  ∀ s t : State, step s = .next t → (nextTurn s).1 ≠ .reset →
    (s.err = false → t.err = true → RejectsCommand s) ∧
    (s.err = true → t.err = false → ClearsFlag 3 s) ∧
    (t.errinfo ≠ s.errinfo ∨ t.errCmd ≠ s.errCmd → RejectsCommand s ∨ ClearsFlag 3 s) ∧
    (s.err = true → t.err = true → t.errCmd = s.errCmd ∧ errCode t.errinfo = errCode s.errinfo) ∧
    (s.berr = false → t.berr = true → (nextTurn s).1 = .host ∧
      ∃ tr, nextTransaction s = some tr ∧ (transact Config.params tr s).2.resp = .slverr) ∧
    (s.berr = true → t.berr = false → ClearsFlag 6 s) ∧
    (t.ctrl ≠ s.ctrl → (nextTurn s).1 = .host ∧ ∃ v, nextTransaction s = some (.write addrCtrl 4 0xF v)) ∧
    (t.mapIn ≠ s.mapIn → (nextTurn s).1 = .host ∧ ∃ v,
      nextTransaction s = some (.write addrMapInLo 4 0xF v) ∨
        nextTransaction s = some (.write addrMapInHi 4 0xF v)) ∧
    (t.latch ≠ s.latch → (nextTurn s).1 = .host ∧ s.eng = .idle ∧
      ∃ c i, nextTransaction s = some (cmdWrite c) ∧ decode c = .cmd i)
end

