-- ==== Sys2Proof/Laws/WellFormed.lean ====
section
/-! SUPPORT. The default instance is valid, and every command of a valid instance is well formed. -/

namespace Sys2Proof

/-- The default instance meets every constraint of 00_scope.md R5. -/
theorem params_wellFormed : Config.params.wellFormed = true := by decide +kernel

theorem depth_cases (d : Depth) : d = 0 ∨ d = 1 := by revert d; decide

/-- Bytes per sample are 1 or 2. -/
theorem bps_le (d : Depth) : Machine.bps d ≤ 2 := by unfold Machine.bps; split <;> decide

/-- A slot's last byte lies inside its buffer (20_memory.md R86). -/
theorem slot_room {n : Nat} (h : n ≤ 16384) (s : Slot) (d : Depth) :
    s.toNat * n * Machine.bps d + n * Machine.bps d ≤ 65536 := by
  have hs : s.toNat ≤ 1 := by have := s.isLt; omega
  calc s.toNat * n * Machine.bps d + n * Machine.bps d
      = (s.toNat + 1) * (n * Machine.bps d) := by ring
    _ ≤ 2 * (16384 * 2) := Nat.mul_le_mul (by omega) (Nat.mul_le_mul h (bps_le d))
    _ = 65536 := rfl

/-- Every command of a valid instance is well formed. -/
theorem instr_wellFormed {P : Params} (h : P.wellFormed = true) (i : Instr) : i.wellFormed P = true := by
  have hF : P.F ≤ 16384 := by
    simp only [Params.wellFormed, Params.fftOk, Bool.and_eq_true, decide_eq_true_eq] at h
    omega
  have hN : P.N = P.F := by
    simp only [Params.wellFormed, Params.lengthOk, Bool.and_eq_true, decide_eq_true_eq] at h
    omega
  cases i with
  | synth d s n => exact decide_eq_true (slot_room (by omega) s d)
  | detect d s => exact decide_eq_true (slot_room hF s d)
  | nop | map | sreset => rfl

end Sys2Proof
end

