-- ==== Sys2Proof/Laws/Commands.lean ====
section
/-! SUPPORT. What the results of the commands look like, for any parameter record and any magnitude spectrum: the
length of a ROM entry, the range of the scan, the zeros of an unrecognized frequency and of a detection without a
peak. A proof about DETECT generalizes its spectrum first and cites these: the kernel must not unfold the window. -/

namespace Sys2Proof.Machine

/-- A ROM entry has `N * bps(d)` bytes (40_synthesis.md R145). -/
@[simp] theorem length_romEntry (P : Params) (d : Depth) (i : Nibble) : (romEntry P d i).length = P.N * bps d := by
  have h : ∀ t, (sampleBytes P d i t).length = bps d := by
    intro t
    unfold sampleBytes bps
    split <;> rfl
  simp [romEntry, List.length_flatMap, h]

/-- The scan keeps its peak or answers a bin that it looked at. -/
theorem scanFrom_range (k peak : Nat) (best : F64) (m : List F64) :
    scanFrom k peak best m = peak ∨
      (k ≤ scanFrom k peak best m ∧ scanFrom k peak best m + 2 < k + m.length) := by
  induction m generalizing k peak best with
  | nil => exact .inl rfl
  | cons a l ih =>
    match l with
    | [] => exact .inl rfl
    | [_] => exact .inl rfl
    | β :: γ :: rest =>
      rw [scanFrom]
      split
      · rcases ih (k + 1) k β with h | h
        · rw [h]; simp
        · simp only [List.length_cons] at *; omega
      · rcases ih (k + 1) peak best with h | h
        · exact .inl h
        · simp only [List.length_cons] at *; omega

/-- A peak is an interior bin (41_detection.md R170). -/
theorem scan_range {m : List F64} (h : scan m ≠ 0) : 1 ≤ scan m ∧ scan m + 2 ≤ m.length := by
  rcases scanFrom_range 1 0 F64.zero m with e | e
  · exact absurd e h
  · exact ⟨e.1, by have := e.2; simp only [scan]; omega⟩

/-- An unrecognized frequency has nibble 0 (42_mapping.md R201). -/
theorem mapNibble_unrecognized {P : Params} {f : F64} (h : (mapNibble P f).1 = false) : (mapNibble P f).2 = 0 := by
  revert h
  unfold mapNibble
  split
  · split <;> simp
  · simp

/-- A detection without a peak is all zeros (41_detection.md R172). -/
theorem detectSpectrum_noPeak {P : Params} {m : List F64} (h : scan m = 0) :
    detectSpectrum P m =
      { peak := 0, found := false, corr := F64.zero, freq := F64.zero, nibv := false, nib := 0 } := by
  rw [detectSpectrum, if_pos h]

/-- The correction with its two constants as bit patterns, 0.5 and 2.0 (41_detection.md R173). -/
theorem correction_eq (α β γ : F64) :
    correction α β γ = F64.div (F64.mul 0x3FE0000000000000#64 (F64.sub α γ))
      (F64.add (F64.sub α (F64.mul 0x4000000000000000#64 β)) γ) := by
  have half : F64.half = 0x3FE0000000000000#64 := by decide +kernel
  have two : F64.ofInt 2 = 0x4000000000000000#64 := by decide +kernel
  rw [correction, half, two]

/-- A detection with a peak, its correction and frequency named (41_detection.md R173 to R177). -/
theorem detectSpectrum_found (P : Params) {m : List F64} (h : scan m ≠ 0) :
    ∃ c f, c = correction (m.getD (scan m - 1) 0#64) (m.getD (scan m) 0#64) (m.getD (scan m + 1) 0#64) ∧
      f = freqEstimate P (scan m) c ∧
      detectSpectrum P m = { peak := scan m, found := true, corr := c, freq := f,
                             nibv := (mapNibble P f).1, nib := (mapNibble P f).2 } :=
  ⟨_, _, rfl, rfl, by rw [detectSpectrum, if_neg h]⟩

/-- A detection without a nibble has nibble 0 (41_detection.md R177). -/
theorem detectSpectrum_noNibble {P : Params} {m : List F64} (h : (detectSpectrum P m).nibv = false) :
    (detectSpectrum P m).nib = 0 := by
  by_cases hk : scan m = 0
  · rw [detectSpectrum_noPeak hk]
  · obtain ⟨c, f, -, -, e⟩ := detectSpectrum_found P hk
    rw [e] at h ⊢
    exact mapNibble_unrecognized h

/-- A detection has a peak exactly when its bin is not 0 (41_detection.md R172). -/
theorem detectSpectrum_peak (P : Params) (m : List F64) :
    (detectSpectrum P m).peak = scan m ∧ (detectSpectrum P m).found = decide (scan m ≠ 0) := by
  by_cases hk : scan m = 0
  · simp [detectSpectrum_noPeak hk, hk]
  · obtain ⟨c, f, -, -, e⟩ := detectSpectrum_found P hk
    simp [e, hk]

end Sys2Proof.Machine
end

