-- ==== Sys2Proof/Laws/ExactTrig.lean ====
section
/-! SUPPORT. The rational approximations of Machine/ExactTrig.lean are as close as they say, and the floor that they
settle is the floor of the real number, once two different values cannot lie too close together. -/

namespace Sys2Proof.ExactTrig

/-! ## Pi -/

theorem arctanInv_eq (m n : ℕ) : arctanInv m n = FixedTrig.arctanSum m n := by
  induction n with
  | zero => simp [arctanInv, FixedTrig.arctanSum]
  | succ n ih =>
    rw [arctanInv, ih, FixedTrig.arctanSum, FixedTrig.arctanSum, Finset.sum_range_succ]
    congr 1
    have hs : ((if n % 2 = 0 then 1 else -1 : ℚ)) = (-1) ^ n := by
      rcases Nat.even_or_odd n with h | h
      · rw [if_pos (Nat.even_iff.1 h), h.neg_one_pow]
      · rw [if_neg (by rw [Nat.odd_iff.1 h]; decide), h.neg_one_pow]
    rw [hs]
    push_cast
    rw [one_div, inv_pow, div_eq_mul_inv, div_eq_mul_inv, mul_inv]

/-- Consecutive partial sums of the arctangent series are close. -/
theorem arctanSum_step {q : ℚ} (hq : 4 ≤ q) (n : ℕ) :
    |FixedTrig.arctanSum q (n + 1) - FixedTrig.arctanSum q n| ≤ 1 / 4 / 4 ^ n := by
  rw [FixedTrig.arctanSum, FixedTrig.arctanSum, Finset.sum_range_succ, add_sub_cancel_left, abs_mul, abs_pow, abs_neg,
    abs_one, one_pow, one_mul, abs_of_nonneg (by positivity)]
  have h0 : 0 ≤ 1 / q := by positivity
  have h1 : 1 / q ≤ 1 / 4 := one_div_le_one_div_of_le (by norm_num) hq
  calc (1 / q) ^ (2 * n + 1) / (2 * n + 1) ≤ (1 / q) ^ (2 * n + 1) := by
        apply div_le_self (by positivity)
        have : (0 : ℚ) ≤ n := Nat.cast_nonneg n
        linarith
    _ ≤ (1 / 4) ^ (2 * n + 1) := pow_le_pow_left₀ h0 h1 _
    _ ≤ (1 / 4) ^ (n + 1) := pow_le_pow_of_le_one (by norm_num) (by norm_num) (by omega)
    _ = 1 / 4 / 4 ^ n := by rw [pow_succ, one_div_pow]; ring

/-- A rational number rounded down to a multiple of `1 / 2^k`. -/
theorem floor_div_bounds (q : ℚ) (k : ℕ) :
    (((⌊q * 2 ^ k⌋ : ℚ) / 2 ^ k : ℚ) : ℝ) ≤ q ∧ (q : ℝ) ≤ ((⌊q * 2 ^ k⌋ : ℚ) / 2 ^ k : ℚ) + 1 / 2 ^ k := by
  have hp : (0 : ℚ) < 2 ^ k := by positivity
  have h1 : (⌊q * 2 ^ k⌋ : ℚ) / 2 ^ k ≤ q := by
    rw [div_le_iff₀ hp]; exact Int.floor_le _
  have h2 : q ≤ (⌊q * 2 ^ k⌋ : ℚ) / 2 ^ k + 1 / 2 ^ k := by
    rw [← add_div, le_div_iff₀ hp]; exact (Int.lt_floor_add_one _).le
  have h2' := (Rat.cast_le (K := ℝ)).2 h2
  refine ⟨(Rat.cast_le (K := ℝ)).2 h1, ?_⟩
  rw [Rat.cast_add] at h2'
  simpa using h2'

/-- `piLower k` is at most `6 / 2^k` below pi. -/
theorem piLower_bounds (k : ℕ) : (piLower k : ℝ) ≤ Real.pi ∧ Real.pi ≤ piLower k + 6 / 2 ^ k := by
  have h := Real.four_mul_arctan_inv_5_sub_arctan_inv_239
  obtain ⟨a1, a2⟩ := FixedTrig.arctan_between 5 (by norm_num) k
  obtain ⟨b1, b2⟩ := FixedTrig.arctan_between 239 (by norm_num) k
  have e4 : (1 : ℚ) / 4 / 4 ^ (2 * k) ≤ 1 / 4 / 2 ^ k := by
    apply div_le_div_of_nonneg_left (by norm_num) (by positivity)
    calc (2 : ℚ) ^ k ≤ 4 ^ k := pow_le_pow_left₀ (by norm_num) (by norm_num) k
      _ ≤ 4 ^ (2 * k) := pow_le_pow_right₀ (by norm_num) (by omega)
  have step : ∀ q : ℚ, 4 ≤ q →
      (FixedTrig.arctanSum q (2 * k + 1) : ℝ) ≤ FixedTrig.arctanSum q (2 * k) + 1 / 4 / 2 ^ k := by
    intro q hq
    have h1 : FixedTrig.arctanSum q (2 * k + 1) ≤ FixedTrig.arctanSum q (2 * k) + 1 / 4 / 2 ^ k := by
      linarith [(abs_le.1 (arctanSum_step hq (2 * k))).2]
    have h2 := (Rat.cast_le (K := ℝ)).2 h1
    rw [Rat.cast_add] at h2
    simpa using h2
  have sa := step 5 (by norm_num)
  have sb := step 239 (by norm_num)
  obtain ⟨f1, f2⟩ := floor_div_bounds (4 * (4 * FixedTrig.arctanSum 5 (2 * k) - FixedTrig.arctanSum 239 (2 * k + 1))) k
  rw [piLower, arctanInv_eq, arctanInv_eq]
  rw [show ((5 : ℕ) : ℚ) = 5 from rfl, show ((239 : ℕ) : ℚ) = 239 from rfl]
  have hq : ((4 * (4 * FixedTrig.arctanSum 5 (2 * k) - FixedTrig.arctanSum 239 (2 * k + 1)) : ℚ) : ℝ)
      = 4 * (4 * FixedTrig.arctanSum 5 (2 * k) - FixedTrig.arctanSum 239 (2 * k + 1)) := by push_cast; ring
  rw [hq] at f1 f2
  have e5 : ((5 : ℚ) : ℝ) = 5 := by norm_num
  have e239 : ((239 : ℚ) : ℝ) = 239 := by norm_num
  rw [e5] at a1 a2
  rw [e239] at b1 b2
  have e6 : (6 : ℝ) / 2 ^ k = 4 * (4 * (1 / 4 / 2 ^ k) + 1 / 4 / 2 ^ k) + 1 / 2 ^ k := by ring
  rw [e6]
  constructor <;> linarith

/-! ## The sine -/

/-- The recursion of the sine series in closed form. -/
theorem sinSum_eq (x : ℚ) (n i : ℕ) :
    sinSum (x ^ 2) n i ((-1) ^ i * (x ^ (2 * i + 1) / (2 * i + 1).factorial)) =
      ∑ j ∈ Finset.range n, (-1) ^ (i + j) * (x ^ (2 * (i + j) + 1) / (2 * (i + j) + 1).factorial) := by
  induction n generalizing i with
  | zero => simp [sinSum]
  | succ n ih =>
    have e : -((-1) ^ i * (x ^ (2 * i + 1) / ((2 * i + 1).factorial : ℚ)) * x ^ 2 / ((2 * i + 2) * (2 * i + 3))) =
        (-1) ^ (i + 1) * (x ^ (2 * (i + 1) + 1) / ((2 * (i + 1) + 1).factorial : ℚ)) := by
      have h3 : 2 * (i + 1) + 1 = 2 * i + 1 + 1 + 1 := by ring
      rw [h3, Nat.factorial_succ (2 * i + 1 + 1), Nat.factorial_succ (2 * i + 1), pow_succ x, pow_succ x,
        pow_succ (-1 : ℚ)]
      push_cast
      have hf : ((2 * i + 1).factorial : ℚ) ≠ 0 := by exact_mod_cast Nat.factorial_ne_zero _
      generalize ((2 * i + 1).factorial : ℚ) = F at *
      have h4 : (2 * (i : ℚ) + 2) ≠ 0 := by positivity
      have h5 : (2 * (i : ℚ) + 3) ≠ 0 := by positivity
      field_simp
      ring
    rw [sinSum, e, ih (i + 1), Finset.sum_range_succ']
    simp only [add_zero]
    rw [add_comm]
    congr 1
    refine Finset.sum_congr rfl fun j _ => ?_
    rw [show i + 1 + j = i + (j + 1) by ring]

/-- `2n` terms of the sine series are within `2 / 2^n` below the sine, up to an angle of 1.6. -/
theorem sinSum_bounds {x : ℚ} (hx0 : 0 ≤ x) (hx : (x : ℝ) ≤ 1.6) (n : ℕ) :
    (sinSum (x ^ 2) (2 * n) 0 x : ℝ) ≤ Real.sin x ∧ Real.sin x ≤ sinSum (x ^ 2) (2 * n) 0 x + 2 / 2 ^ n := by
  have h0 : (0 : ℝ) ≤ x := by exact_mod_cast hx0
  obtain ⟨t1, t2⟩ := FixedTrig.sin_between h0 (by nlinarith) n
  have e := sinSum_eq x (2 * n) 0
  simp only [pow_zero, mul_zero, zero_add, Nat.factorial_one, Nat.cast_one, div_one, one_mul, pow_one] at e
  have e' : (sinSum (x ^ 2) (2 * n) 0 x : ℝ) =
      ∑ i ∈ Finset.range (2 * n), (-1 : ℝ) ^ i * ((x : ℝ) ^ (2 * i + 1) / (2 * i + 1).factorial) := by
    rw [e]; push_cast; rfl
  rw [Finset.sum_range_succ, ← e'] at t2
  rw [← e'] at t1
  refine ⟨t1, t2.trans ?_⟩
  rw [(even_two_mul n).neg_one_pow, one_mul]
  have tail : ∀ m : ℕ, (x : ℝ) ^ (4 * m + 1) / (4 * m + 1).factorial ≤ 2 / 2 ^ m := by
    intro m
    induction m with
    | zero => simp; linarith
    | succ m ih =>
      have hs : 4 * (m + 1) + 1 = 4 * m + 1 + 1 + 1 + 1 + 1 := by ring
      have hf : (0 : ℝ) < (4 * m + 1).factorial := by exact_mod_cast Nat.factorial_pos _
      have hfac : (2 * 2 * 2 * 2 : ℝ) * (4 * m + 1).factorial ≤ (4 * (m + 1) + 1).factorial := by
        rw [hs, Nat.factorial_succ, Nat.factorial_succ, Nat.factorial_succ, Nat.factorial_succ]
        have hn : 2 * 2 * 2 * 2 * (4 * m + 1).factorial ≤
            (4 * m + 1 + 1 + 1 + 1 + 1) * ((4 * m + 1 + 1 + 1 + 1) * ((4 * m + 1 + 1 + 1) * ((4 * m + 1 + 1) *
              (4 * m + 1).factorial))) := by
          rw [Nat.mul_assoc, Nat.mul_assoc, Nat.mul_assoc]
          gcongr <;> omega
        exact_mod_cast hn
      have hx4 : (x : ℝ) ^ 4 ≤ 8 := by
        calc (x : ℝ) ^ 4 ≤ 1.6 ^ 4 := pow_le_pow_left₀ h0 hx 4
          _ ≤ 8 := by norm_num
      have hpow : (x : ℝ) ^ (4 * (m + 1) + 1) = x ^ (4 * m + 1) * x ^ 4 := by rw [← pow_add]; congr 1
      calc (x : ℝ) ^ (4 * (m + 1) + 1) / (4 * (m + 1) + 1).factorial
          ≤ (x ^ (4 * m + 1) * 8) / (2 * 2 * 2 * 2 * (4 * m + 1).factorial) := by
            rw [hpow]
            apply div_le_div₀ (by positivity) _ (by positivity) hfac
            exact mul_le_mul_of_nonneg_left hx4 (by positivity)
        _ = x ^ (4 * m + 1) / (4 * m + 1).factorial / 2 := by field_simp; norm_num
        _ ≤ 2 / 2 ^ m / 2 := by linarith
        _ = 2 / 2 ^ (m + 1) := by rw [pow_succ, div_div]
  have := tail n
  rw [show 4 * n + 1 = 2 * (2 * n) + 1 by ring] at this
  linarith

/-- `sinPi k a b` is within `5 / 2^k` below the exact sine. -/
theorem sinPi_bounds {k a b : ℕ} (hk : 3 ≤ k) (hb : 0 < b) (hab : 2 * a ≤ b) :
    (sinPi k a b : ℝ) ≤ Real.sin (Real.pi * a / b) ∧ Real.sin (Real.pi * a / b) ≤ sinPi k a b + 5 / 2 ^ k := by
  obtain ⟨p1, p2⟩ := piLower_bounds k
  have hbR : (0 : ℝ) < b := by exact_mod_cast hb
  have hu : (a : ℝ) / b ≤ 1 / 2 := by
    rw [div_le_div_iff₀ hbR (by norm_num)]
    have : (2 * a : ℝ) ≤ b := by exact_mod_cast hab
    linarith
  have hu0 : (0 : ℝ) ≤ (a : ℝ) / b := by positivity
  have h8 : (6 : ℝ) / 2 ^ k ≤ 1 := by
    rw [div_le_one (by positivity)]
    calc (6 : ℝ) ≤ 2 ^ 3 := by norm_num
      _ ≤ 2 ^ k := pow_le_pow_right₀ (by norm_num) hk
  have hpi := Real.pi_gt_three
  have hpi' := Real.pi_lt_d2
  have hpl : (0 : ℝ) < piLower k := by linarith
  have hxe : ((piLower k * ((a : ℚ) / b) : ℚ) : ℝ) = piLower k * (a / b) := by push_cast; ring
  have hang : Real.pi * a / b = Real.pi * (a / b) := mul_div_assoc _ _ _
  have hx0 : (0 : ℚ) ≤ piLower k * ((a : ℚ) / b) := by
    have : (0 : ℚ) < piLower k := by exact_mod_cast hpl
    positivity
  have hle : (piLower k : ℝ) * (a / b) ≤ Real.pi * (a / b) := mul_le_mul_of_nonneg_right p1 hu0
  have hhalf : Real.pi * ((a : ℝ) / b) ≤ Real.pi / 2 := by nlinarith
  obtain ⟨t1, t2⟩ := sinSum_bounds hx0 (by rw [hxe]; linarith) k
  rw [hxe] at t1 t2
  have e : sinPi k a b = sinSum ((piLower k * ((a : ℚ) / b)) ^ 2) (2 * k) 0 (piLower k * ((a : ℚ) / b)) := rfl
  rw [e, hang]
  generalize (sinSum ((piLower k * ((a : ℚ) / b)) ^ 2) (2 * k) 0 (piLower k * ((a : ℚ) / b)) : ℝ) = S at *
  have hmono : Real.sin (piLower k * (a / b)) ≤ Real.sin (Real.pi * (a / b)) :=
    Real.sin_le_sin_of_le_of_le_pi_div_two (by nlinarith [Real.pi_pos]) hhalf hle
  have hlip : Real.sin (Real.pi * (a / b)) ≤ Real.sin (piLower k * (a / b)) + 3 / 2 ^ k := by
    have h1 := Real.abs_sin_sub_sin_le (Real.pi * (a / b)) (piLower k * (a / b))
    have h2 := le_abs_self (Real.sin (Real.pi * (a / b)) - Real.sin (piLower k * (a / b)))
    have h3 : |Real.pi * ((a : ℝ) / b) - piLower k * (a / b)| ≤ 3 / 2 ^ k := by
      rw [abs_of_nonneg (by linarith), ← sub_mul]
      calc (Real.pi - piLower k) * ((a : ℝ) / b) ≤ 6 / 2 ^ k * (1 / 2) :=
            mul_le_mul (by linarith) hu hu0 (by positivity)
        _ = 3 / 2 ^ k := by ring
    linarith
  have e5 : (5 : ℝ) / 2 ^ k = 2 / 2 ^ k + 3 / 2 ^ k := by ring
  constructor <;> linarith

/-- `sinHalf k r b` is within `5 / 2^k` below the exact sine over the half turn. -/
theorem sinHalf_bounds {k r b : ℕ} (hk : 3 ≤ k) (hb : 0 < b) (hr : r ≤ b) :
    (sinHalf k r b : ℝ) ≤ Real.sin (Real.pi * r / b) ∧ Real.sin (Real.pi * r / b) ≤ sinHalf k r b + 5 / 2 ^ k := by
  unfold sinHalf
  split
  · next h => exact sinPi_bounds hk hb h
  · next h =>
    have hbR : (b : ℝ) ≠ 0 := by exact_mod_cast hb.ne'
    have : Real.sin (Real.pi * r / b) = Real.sin (Real.pi * (b - r : ℕ) / b) := by
      rw [Nat.cast_sub hr, ← Real.sin_pi_sub]
      congr 1
      field_simp
    rw [this]
    exact sinPi_bounds hk hb (by omega)

/-- `sinTurn k a b` is within `5 / 2^k` of the exact sine. -/
theorem sinTurn_error {k b : ℕ} (hk : 3 ≤ k) (a : ℕ) (hb : 0 < b) :
    |Real.sin (2 * Real.pi * a / b) - sinTurn k a b| ≤ 5 / 2 ^ k := by
  have hbR : (b : ℝ) ≠ 0 := by exact_mod_cast hb.ne'
  have hsin := FixedTrig.sin_turn_mod a hb
  have hr2 : 2 * a % (2 * b) < 2 * b := Nat.mod_lt _ (by omega)
  unfold sinTurn
  rw [hsin]
  generalize 2 * a % (2 * b) = r at *
  have hp : (0 : ℝ) ≤ 5 / 2 ^ k := by positivity
  split
  · next h =>
    obtain ⟨h1, h2⟩ := sinHalf_bounds hk hb h.le
    rw [abs_le]; constructor <;> linarith
  · next h =>
    obtain ⟨h1, h2⟩ := sinHalf_bounds (r := r - b) hk hb (by omega)
    have : Real.sin (Real.pi * (r - b : ℕ) / b) = -Real.sin (Real.pi * r / b) := by
      rw [Nat.cast_sub (by omega), ← Real.sin_sub_pi]
      congr 1
      field_simp
    rw [this] at h1 h2
    rw [abs_le]; push_cast; constructor <;> linarith

/-! ## The window and the waveform -/

/-- `hannApprox` is within `1 / 2^k` of the exact Hann window. -/
theorem hannApprox_error {t L : ℕ} (hL : 2 ≤ L) (ht : t < L) (k : ℕ) :
    |RealSpec.hann t L - hannApprox t L k| ≤ 15 / 2 ^ (k + 5) := by
  obtain ⟨h1, h2⟩ := sinHalf_bounds (k := k + 5) (r := t) (b := L - 1) (by omega) (by omega) (by omega)
  have hL1 : ((L - 1 : ℕ) : ℝ) = (L : ℝ) - 1 := by rw [Nat.cast_sub (by omega)]; simp
  rw [FixedTrig.hann_eq_sin_sq, ← hL1, hannApprox]
  push_cast
  have s0 : 0 ≤ Real.sin (Real.pi * t / ((L - 1 : ℕ) : ℝ)) := by
    apply Real.sin_nonneg_of_nonneg_of_le_pi (by positivity)
    have : (t : ℝ) ≤ ((L - 1 : ℕ) : ℝ) := by exact_mod_cast (show t ≤ L - 1 by omega)
    have hp : (0 : ℝ) < ((L - 1 : ℕ) : ℝ) := by exact_mod_cast (show 0 < L - 1 by omega)
    rw [div_le_iff₀ hp]
    exact mul_le_mul_of_nonneg_left this Real.pi_pos.le
  have s1 := Real.sin_le_one (Real.pi * t / ((L - 1 : ℕ) : ℝ))
  have e1 : (5 : ℝ) / 2 ^ (k + 5) ≤ 1 := by
    rw [div_le_one (by positivity)]
    calc (5 : ℝ) ≤ 2 ^ 5 := by norm_num
      _ ≤ 2 ^ (k + 5) := pow_le_pow_right₀ (by norm_num) (by omega)
  have e15 : (15 : ℝ) / 2 ^ (k + 5) = 3 * (5 / 2 ^ (k + 5)) := by ring
  have e0 : (0 : ℝ) ≤ 5 / 2 ^ (k + 5) := by positivity
  rw [e15]
  generalize (5 : ℝ) / 2 ^ (k + 5) = e at *
  generalize Real.sin (Real.pi * t / ((L - 1 : ℕ) : ℝ)) = s at *
  generalize (sinHalf (k + 5) t (L - 1) : ℝ) = q at *
  rw [abs_le]
  constructor <;> nlinarith

/-- `waveApprox` is within `1 / 2^k` of the exact waveform. -/
theorem waveApprox_error {f sr n t : ℕ} (hsr : 0 < sr) (hn : 2 ≤ n) (ht : t < n) (k : ℕ) :
    |RealSpec.waveform f sr n t - waveApprox f sr n t k| ≤ 1 / 2 ^ k := by
  have hs := sinTurn_error (k := k + 5) (by omega) (f * t) hsr
  have hh := hannApprox_error hn ht k
  have e : RealSpec.waveform f sr n t = Real.sin (2 * Real.pi * (f * t : ℕ) / sr) * RealSpec.hann t n := by
    rw [RealSpec.waveform]; push_cast; ring_nf
  have h01 := FixedTrig.hann_mem t n
  rw [e, waveApprox]
  push_cast at hs ⊢
  have s1 := Real.abs_sin_le_one (2 * Real.pi * (f * t) / sr)
  generalize Real.sin (2 * Real.pi * (f * t) / sr) = s at *
  generalize (sinTurn (k + 5) (f * t) sr : ℝ) = q at *
  generalize RealSpec.hann t n = w at *
  generalize (hannApprox t n k : ℝ) = v at *
  have e5 : (5 : ℝ) / 2 ^ (k + 5) = 5 / 32 * (1 / 2 ^ k) := by rw [pow_add]; ring
  have e15 : (15 : ℝ) / 2 ^ (k + 5) = 15 / 32 * (1 / 2 ^ k) := by rw [pow_add]; ring
  rw [e5] at hs
  rw [e15] at hh
  have hd0 : (0 : ℝ) < 1 / 2 ^ k := by positivity
  have hd1 : (1 : ℝ) / 2 ^ k ≤ 1 := by
    rw [div_le_one (by positivity)]; exact one_le_pow₀ (by norm_num)
  generalize (1 : ℝ) / 2 ^ k = d at *
  have split : s * w - q * v = (s - q) * w + s * (w - v) - (s - q) * (w - v) := by ring
  have hw : |w| ≤ 1 := abs_le.2 ⟨by linarith [h01.1], h01.2⟩
  rw [split]
  calc |(s - q) * w + s * (w - v) - (s - q) * (w - v)|
      ≤ |s - q| * |w| + |s| * |w - v| + |s - q| * |w - v| := by
        rw [← abs_mul, ← abs_mul, ← abs_mul]
        exact (abs_sub _ _).trans (add_le_add (abs_add_le _ _) le_rfl)
    _ ≤ 5 / 32 * d * 1 + 1 * (15 / 32 * d) + 5 / 32 * d * (15 / 32 * d) := by
        gcongr
    _ ≤ d := by nlinarith

/-! ## The floor -/

/-- The floors of two numbers that agree are the floor of everything between them. -/
theorem floor_eq_of_between {x : ℝ} {a b : ℚ} (ha : (a : ℝ) ≤ x) (hb : x ≤ b) (h : ⌊a⌋ = ⌊b⌋) : ⌊x⌋ = ⌊b⌋ := by
  apply le_antisymm
  · have := Int.floor_le_floor hb
    rwa [Rat.floor_cast] at this
  · have := Int.floor_le_floor ha
    rwa [Rat.floor_cast, h] at this

/-- **The floor that `floorWithin` settles.** Its result is the floor of the number, unless that lies just below an
integer, closer to it than the last precision shows. -/
theorem floorWithin_eq {x : ℝ} {f : ℕ → ℚ} {c : ℚ} (hf : ∀ k, |x - f k| ≤ c / 2 ^ k) (fuel k : ℕ)
    (hsep : x + 2 * c / 2 ^ (k * 2 ^ fuel) < ⌊x⌋ + 1) : floorWithin f c fuel k = ⌊x⌋ := by
  have bounds : ∀ k, ((f k - c / 2 ^ k : ℚ) : ℝ) ≤ x ∧ x ≤ (f k + c / 2 ^ k : ℚ) := by
    intro k
    have := abs_le.1 (hf k)
    push_cast
    constructor <;> linarith [this.1, this.2]
  induction fuel generalizing k with
  | zero =>
    rw [floorWithin, ← Rat.floor_cast (α := ℝ)]
    apply le_antisymm
    · rw [← Int.lt_add_one_iff, Int.floor_lt]
      have h1 := (abs_le.1 (hf k)).1
      push_cast
      rw [pow_zero, mul_one] at hsep
      have e : 2 * (c : ℝ) / 2 ^ k = c / 2 ^ k + c / 2 ^ k := by ring
      linarith
    · exact Int.floor_le_floor (bounds k).2
  | succ fuel ih =>
    rw [floorWithin]
    split
    · next h => exact (floor_eq_of_between (bounds k).1 (bounds k).2 h).symm
    · refine ih (2 * k) ?_
      rwa [show 2 * k * 2 ^ fuel = k * 2 ^ (fuel + 1) by ring]

/-- Whatever its fuel, `floorWithin` answers an integer within the first precision of the number's floor. -/
theorem floorWithin_bounds {x : ℝ} {f : ℕ → ℚ} {c : ℚ} (hf : ∀ k, |x - f k| ≤ c / 2 ^ k) (fuel k : ℕ) :
    x - 1 < floorWithin f c fuel k ∧ (floorWithin f c fuel k : ℝ) ≤ x + 2 * c / 2 ^ k := by
  have hc : 0 ≤ (c : ℝ) := by
    have := (abs_nonneg _).trans (hf 0)
    simpa using this
  have here : ∀ k, x - 1 < (⌊f k + c / 2 ^ k⌋ : ℤ) ∧ ((⌊f k + c / 2 ^ k⌋ : ℤ) : ℝ) ≤ x + 2 * c / 2 ^ k := by
    intro k
    have h := abs_le.1 (hf k)
    have h1 : (⌊f k + c / 2 ^ k⌋ : ℤ) = ⌊((f k + c / 2 ^ k : ℚ) : ℝ)⌋ := (Rat.floor_cast _).symm
    rw [h1]
    have h2 := Int.floor_le ((f k + c / 2 ^ k : ℚ) : ℝ)
    have h3 := Int.lt_floor_add_one ((f k + c / 2 ^ k : ℚ) : ℝ)
    have e : 2 * (c : ℝ) / 2 ^ k = c / 2 ^ k + c / 2 ^ k := by ring
    push_cast at h2 h3 ⊢
    constructor <;> linarith [h.1, h.2]
  induction fuel generalizing k with
  | zero => exact here k
  | succ fuel ih =>
    rw [floorWithin]
    split
    · exact here k
    · obtain ⟨h1, h2⟩ := ih (2 * k)
      refine ⟨h1, h2.trans ?_⟩
      have : 2 * (c : ℝ) / 2 ^ (2 * k) ≤ 2 * c / 2 ^ k :=
        div_le_div_of_nonneg_left (by positivity) (by positivity) (pow_le_pow_right₀ (by norm_num) (by omega))
      linarith

/-- The floor that an integer division settles is the floor of everything within the error. -/
theorem settledFloor_eq {x : ℝ} {num err den z : ℤ} (hd : 0 < den) (hx : |x * den - num| ≤ err)
    (h : settledFloor num err den = some z) : z = ⌊x⌋ := by
  unfold settledFloor at h
  split at h
  · next heq =>
    cases h
    have hd' : (0 : ℝ) < den := by exact_mod_cast hd
    have h' := abs_le.1 hx
    symm
    rw [Int.floor_eq_iff]
    constructor
    · have h1 : (num + err) / den * den ≤ num - err := by rw [← heq]; exact Int.ediv_mul_le _ hd.ne'
      have h2 : (((num + err) / den : ℤ) : ℝ) * den ≤ num - err := by exact_mod_cast h1
      exact le_of_mul_le_mul_right (by linarith) hd'
    · have h1 : num + err < ((num + err) / den + 1) * den := Int.lt_ediv_add_one_mul_self _ hd
      have h2 : (num : ℝ) + err < (((num + err) / den : ℤ) + 1) * den := by exact_mod_cast h1
      exact lt_of_mul_lt_mul_right (by linarith) hd'.le
  · cases h

end Sys2Proof.ExactTrig
end

