-- ==== Sys2Proof/Laws/Separation.lean ====
section
/-! SUPPORT. How close two different values of the expressions of 40_synthesis.md R141 and R142 can lie: a nonzero
integer combination of `n`-th roots of unity is an algebraic integer, so the product of its conjugates is a nonzero
integer, and none of them is larger than the sum of the coefficients. -/

namespace Sys2Proof.ExactTrig

open Polynomial

/-- The primitive `n`-th root of unity `exp(2 pi i / n)`. -/
noncomputable def rootOfUnity (n : ℕ) : ℂ := Complex.exp (2 * Real.pi * Complex.I / n)

/-- The separation bound, in any cyclotomic field. -/
theorem one_le_norm_mul_pow_of_cyclotomic {n : ℕ} [NeZero n] (K : Type) [Field K] [NumberField K]
    [IsCyclotomicExtension {n} ℚ K] (f : ℤ[X]) {S : ℝ} (hS1 : 1 ≤ S)
    (hS : ∀ z : ℂ, z ^ n = 1 → ‖aeval z f‖ ≤ S) (h : aeval (rootOfUnity n) f ≠ 0) :
    1 ≤ ‖aeval (rootOfUnity n) f‖ * S ^ n := by
  classical
  have hn : n ≠ 0 := NeZero.ne n
  have hz : IsPrimitiveRoot (IsCyclotomicExtension.zeta n ℚ K) n := IsCyclotomicExtension.zeta_spec n ℚ K
  have hirr := cyclotomic.irreducible_rat (n := n) (Nat.pos_of_ne_zero hn)
  have hmem : rootOfUnity n ∈ primitiveRoots n ℂ :=
    (mem_primitiveRoots (Nat.pos_of_ne_zero hn)).2 (Complex.isPrimitiveRoot_exp n hn)
  obtain ⟨σ₀, hσ₀⟩ : ∃ σ : K →ₐ[ℚ] ℂ, σ (IsCyclotomicExtension.zeta n ℚ K) = rootOfUnity n :=
    ⟨(hz.embeddingsEquivPrimitiveRoots ℂ hirr).symm ⟨_, hmem⟩, by
      rw [← hz.embeddingsEquivPrimitiveRoots_apply_coe ℂ hirr, Equiv.apply_symm_apply]⟩
  let β : K := aeval (IsCyclotomicExtension.zeta n ℚ K) f
  have hσ : ∀ σ : K →ₐ[ℚ] ℂ, σ β = aeval (σ (IsCyclotomicExtension.zeta n ℚ K)) f := by
    intro σ
    exact (aeval_algHom_apply (σ.restrictScalars ℤ) _ f).symm
  have hbound : ∀ σ : K →ₐ[ℚ] ℂ, ‖σ β‖ ≤ S := by
    intro σ
    rw [hσ]
    exact hS _ (by rw [← map_pow, hz.pow_eq_one, map_one])
  have hβ : β ≠ 0 := by
    intro h0
    apply h
    rw [← hσ₀, ← hσ, h0, map_zero]
  have hint : IsIntegral ℤ β :=
    adjoin_le_integralClosure (hz.isIntegral (Nat.pos_of_ne_zero hn)) (aeval_mem_adjoin_singleton ℤ _)
  obtain ⟨z, hz'⟩ := IsIntegrallyClosed.isIntegral_iff.1 (Algebra.isIntegral_norm ℚ hint)
  have hz0 : z ≠ 0 := by
    rintro rfl
    rw [map_zero] at hz'
    exact (Algebra.norm_ne_zero_iff.2 hβ) hz'.symm
  have hprod : ((z : ℤ) : ℂ) = ∏ σ : K →ₐ[ℚ] ℂ, σ β := by
    rw [← Algebra.norm_eq_prod_embeddings ℚ ℂ β, ← hz']
    simp
  have h1 : (1 : ℝ) ≤ ‖((z : ℤ) : ℂ)‖ := by
    rw [Complex.norm_intCast]
    exact_mod_cast Int.one_le_abs hz0
  rw [hprod, norm_prod, ← Finset.mul_prod_erase _ _ (Finset.mem_univ σ₀), hσ σ₀, hσ₀] at h1
  refine h1.trans (mul_le_mul_of_nonneg_left ?_ (norm_nonneg _))
  refine (Finset.prod_le_prod (fun σ _ => norm_nonneg _) fun σ _ => hbound σ).trans ?_
  rw [Finset.prod_const]
  refine pow_le_pow_right₀ hS1 ?_
  refine (Finset.card_le_univ _).trans ?_
  rw [AlgHom.card, IsCyclotomicExtension.finrank K hirr]
  exact Nat.totient_le n

/-- **The separation bound.** An integer polynomial that is at most `S` at every `n`-th root of unity and is not zero at
the primitive one is at least `1 / S^n` there. -/
theorem one_le_norm_mul_pow {n : ℕ} (hn : n ≠ 0) (f : ℤ[X]) {S : ℝ} (hS1 : 1 ≤ S)
    (hS : ∀ z : ℂ, z ^ n = 1 → ‖aeval z f‖ ≤ S) (h : aeval (rootOfUnity n) f ≠ 0) :
    1 ≤ ‖aeval (rootOfUnity n) f‖ * S ^ n :=
  have : NeZero n := ⟨hn⟩
  have : NeZero (n : ℚ) := ⟨by exact_mod_cast hn⟩
  have : IsCyclotomicExtension {n} ℚ (CyclotomicField n ℚ) := CyclotomicField.isCyclotomicExtension n ℚ
  have : NumberField (CyclotomicField n ℚ) := IsCyclotomicExtension.numberField {n} ℚ _
  one_le_norm_mul_pow_of_cyclotomic (CyclotomicField n ℚ) f hS1 hS h

/-! ## The window and the waveform -/

theorem rootOfUnity_pow (n k : ℕ) :
    rootOfUnity n ^ k = Complex.exp ((2 * Real.pi * k / n : ℝ) * Complex.I) := by
  rw [rootOfUnity, ← Complex.exp_nat_mul]
  congr 1
  push_cast
  ring

/-- A root of unity and its inverse add up to twice a cosine. -/
theorem exp_add_exp_neg (θ : ℝ) :
    Complex.exp (θ * Complex.I) + Complex.exp ((-θ : ℝ) * Complex.I) = (2 * Real.cos θ : ℝ) := by
  push_cast
  rw [Complex.exp_mul_I, Complex.exp_mul_I, Complex.cos_neg, Complex.sin_neg]
  ring

/-- A root of unity less its inverse is twice a sine, turned by a quarter. -/
theorem exp_sub_exp_neg (θ : ℝ) :
    Complex.exp (θ * Complex.I) - Complex.exp ((-θ : ℝ) * Complex.I) = (2 * Real.sin θ : ℝ) * Complex.I := by
  push_cast
  rw [Complex.exp_mul_I, Complex.exp_mul_I, Complex.cos_neg, Complex.sin_neg]
  ring

theorem exp_sub_turns (θ : ℝ) (k : ℕ) :
    Complex.exp ((2 * Real.pi * k - θ : ℝ) * Complex.I) = Complex.exp ((-θ : ℝ) * Complex.I) := by
  rw [Complex.exp_eq_exp_iff_exists_int]
  exact ⟨k, by push_cast; ring⟩

theorem norm_two_sub_le {z : ℂ} {n a b : ℕ} (hn : n ≠ 0) (hz : z ^ n = 1) : ‖2 - z ^ a - z ^ b‖ ≤ 4 := by
  have h1 : ‖z‖ = 1 := Complex.norm_eq_one_of_pow_eq_one hz hn
  calc ‖2 - z ^ a - z ^ b‖ ≤ ‖(2 : ℂ)‖ + ‖z ^ a‖ + ‖z ^ b‖ :=
        (norm_sub_le _ _).trans (add_le_add (norm_sub_le _ _) le_rfl)
    _ = 4 := by rw [norm_pow, norm_pow, h1, one_pow, one_pow]; norm_num

/-- **An integer multiple of the Hann window is an integer, or not too close to one.** -/
theorem hann_separated {L t : ℕ} (hL : 2 ≤ L) (ht : t < L) {A m : ℤ} {S : ℝ} (hS1 : 1 ≤ S)
    (hS : 4 * |(A : ℝ)| + 4 * |(m : ℝ)| ≤ S) (hne : A * RealSpec.hann t L ≠ m) :
    1 ≤ 4 * |A * RealSpec.hann t L - m| * S ^ (L - 1) := by
  have hn : L - 1 ≠ 0 := by omega
  have hnR : ((L - 1 : ℕ) : ℝ) ≠ 0 := by exact_mod_cast hn
  let f : ℤ[X] := C A * (C 2 - X ^ t - X ^ (L - 1 - t)) - C 4 * C m
  have hval : ∀ z : ℂ, aeval z f = A * (2 - z ^ t - z ^ (L - 1 - t)) - 4 * m := by
    intro z
    simp only [f, map_sub, map_mul, map_pow, aeval_X, aeval_C]
    simp
  have hcos : rootOfUnity (L - 1) ^ t + rootOfUnity (L - 1) ^ (L - 1 - t) =
      (2 * Real.cos (2 * Real.pi * t / (L - 1 : ℕ)) : ℝ) := by
    rw [rootOfUnity_pow, rootOfUnity_pow, ← exp_add_exp_neg, ← exp_sub_turns _ 1]
    congr 4
    rw [Nat.cast_sub (by omega : t ≤ L - 1)]
    push_cast
    field_simp
  have hL1 : ((L - 1 : ℕ) : ℝ) = (L : ℝ) - 1 := by rw [Nat.cast_sub (by omega)]; simp
  have heq : aeval (rootOfUnity (L - 1)) f = ((4 * (A * RealSpec.hann t L - m) : ℝ) : ℂ) := by
    rw [hval, sub_sub, hcos, RealSpec.hann, hL1]
    push_cast
    ring
  have key := one_le_norm_mul_pow hn f hS1 (fun z hz => ?_) ?_
  · rwa [heq, Complex.norm_real, Real.norm_eq_abs, abs_mul, abs_of_pos (by norm_num : (0 : ℝ) < 4)] at key
  · rw [hval]
    calc ‖(A : ℂ) * (2 - z ^ t - z ^ (L - 1 - t)) - 4 * m‖
        ≤ ‖(A : ℂ)‖ * ‖2 - z ^ t - z ^ (L - 1 - t)‖ + ‖(4 * m : ℂ)‖ :=
          (norm_sub_le _ _).trans (by rw [norm_mul])
      _ ≤ |(A : ℝ)| * 4 + 4 * |(m : ℝ)| := by
          gcongr
          · rw [Complex.norm_intCast]
          · exact norm_two_sub_le hn hz
          · rw [norm_mul, Complex.norm_intCast]; norm_num
      _ ≤ S := by linarith
  · rw [heq, Ne, Complex.ofReal_eq_zero]
    intro h0
    exact hne (by linarith)

/-- **An integer multiple of the waveform is an integer, or not too close to one.** -/
theorem waveform_separated {f₀ sr N t : ℕ} (hsr : 0 < sr) (hN : 2 ≤ N) (ht : t < N) {A m : ℤ} {S : ℝ} (hS1 : 1 ≤ S)
    (hS : 8 * |(A : ℝ)| + 8 * |(m : ℝ)| ≤ S) (hne : A * RealSpec.waveform f₀ sr N t ≠ m) :
    1 ≤ 8 * |A * RealSpec.waveform f₀ sr N t - m| * S ^ (4 * sr * (N - 1)) := by
  have hM : N - 1 ≠ 0 := by omega
  have hMR : ((N - 1 : ℕ) : ℝ) ≠ 0 := by exact_mod_cast hM
  have hsR : (sr : ℝ) ≠ 0 := by exact_mod_cast hsr.ne'
  have hn : 4 * sr * (N - 1) ≠ 0 := Nat.mul_ne_zero (by omega) hM
  generalize hn' : 4 * sr * (N - 1) = n at *
  have hnR : (n : ℝ) = 4 * sr * ((N - 1 : ℕ) : ℝ) := by rw [← hn']; push_cast; ring
  let f : ℤ[X] := C A * (X ^ (3 * sr * (N - 1)) * (X ^ (4 * (N - 1) * (f₀ * t)) -
    X ^ (4 * (N - 1) * ((sr - 1) * (f₀ * t)))) * (C 2 - X ^ (4 * sr * t) - X ^ (4 * sr * (N - 1 - t)))) - C 8 * C m
  have hval : ∀ z : ℂ, aeval z f = A * (z ^ (3 * sr * (N - 1)) * (z ^ (4 * (N - 1) * (f₀ * t)) -
      z ^ (4 * (N - 1) * ((sr - 1) * (f₀ * t)))) * (2 - z ^ (4 * sr * t) - z ^ (4 * sr * (N - 1 - t)))) - 8 * m := by
    intro z
    simp only [f, map_sub, map_mul, map_pow, aeval_X, aeval_C]
    simp
  have hI : rootOfUnity n ^ (3 * sr * (N - 1)) = -Complex.I := by
    rw [rootOfUnity_pow, hnR]
    have : (2 * Real.pi * ((3 * sr * (N - 1) : ℕ) : ℝ) / (4 * sr * ((N - 1 : ℕ) : ℝ))) =
        2 * Real.pi * (1 : ℕ) - Real.pi / 2 := by
      push_cast; field_simp; ring
    rw [this, exp_sub_turns]
    push_cast
    rw [Complex.exp_mul_I, Complex.cos_neg, Complex.sin_neg, Complex.cos_pi_div_two, Complex.sin_pi_div_two]
    ring
  have hsin : rootOfUnity n ^ (4 * (N - 1) * (f₀ * t)) - rootOfUnity n ^ (4 * (N - 1) * ((sr - 1) * (f₀ * t))) =
      (2 * Real.sin (2 * Real.pi * f₀ * t / sr) : ℝ) * Complex.I := by
    rw [rootOfUnity_pow, rootOfUnity_pow, ← exp_sub_exp_neg, ← exp_sub_turns _ (f₀ * t), hnR]
    congr 4
    · push_cast; field_simp
    · rw [show ((4 * (N - 1) * ((sr - 1) * (f₀ * t)) : ℕ) : ℝ) = 4 * ((N - 1 : ℕ) : ℝ) * ((sr - 1) * (f₀ * t)) by
        push_cast [Nat.cast_sub (show 1 ≤ sr from hsr)]; ring]
      push_cast; field_simp
  have hcos : rootOfUnity n ^ (4 * sr * t) + rootOfUnity n ^ (4 * sr * (N - 1 - t)) =
      (2 * Real.cos (2 * Real.pi * t / (N - 1 : ℕ)) : ℝ) := by
    rw [rootOfUnity_pow, rootOfUnity_pow, ← exp_add_exp_neg, ← exp_sub_turns _ 1, hnR]
    congr 4
    · push_cast; field_simp
    · rw [Nat.cast_mul, Nat.cast_sub (by omega : t ≤ N - 1)]
      push_cast; field_simp
  have hN1 : ((N - 1 : ℕ) : ℝ) = (N : ℝ) - 1 := by rw [Nat.cast_sub (by omega)]; simp
  have heq : aeval (rootOfUnity n) f = ((8 * (A * RealSpec.waveform f₀ sr N t - m) : ℝ) : ℂ) := by
    rw [hval, sub_sub, hcos, hsin, hI, RealSpec.waveform, RealSpec.hann, hN1]
    push_cast
    ring_nf
    rw [Complex.I_sq]
    ring
  have key := one_le_norm_mul_pow hn f hS1 (fun z hz => ?_) ?_
  · rwa [heq, Complex.norm_real, Real.norm_eq_abs, abs_mul, abs_of_pos (by norm_num : (0 : ℝ) < 8)] at key
  · have h1 : ‖z‖ = 1 := Complex.norm_eq_one_of_pow_eq_one hz hn
    rw [hval]
    have hd : ∀ a b : ℕ, ‖z ^ a - z ^ b‖ ≤ 2 := fun a b =>
      (norm_sub_le _ _).trans (by rw [norm_pow, norm_pow, h1, one_pow, one_pow]; norm_num)
    calc _ ≤ |(A : ℝ)| * (1 * 2 * 4) + 8 * |(m : ℝ)| := by
          refine (norm_sub_le _ _).trans (add_le_add ?_ ?_)
          · rw [norm_mul, norm_mul, norm_mul, Complex.norm_intCast, norm_pow, h1, one_pow]
            gcongr
            · exact hd _ _
            · exact norm_two_sub_le hn hz
          · rw [norm_mul, Complex.norm_intCast]; norm_num
      _ ≤ S := by linarith
  · rw [heq, Ne, Complex.ofReal_eq_zero]
    intro h0
    exact hne (by linarith)

end Sys2Proof.ExactTrig
end

