-- ==== Sys2Proof/Laws/ExactFloor.lean ====
section
/-! SUPPORT. The floors that the tone ROM and the window table are made of are the floors of the exact real
expressions (00_scope.md R12): `hannFloor` and `toneFloor`, one lemma each. -/

namespace Sys2Proof.Machine

open ExactTrig

theorem cast_natAbs (A : ℤ) : (((A.natAbs : ℕ) : ℚ) : ℝ) = |(A : ℝ)| := by
  rw [Rat.cast_natCast, Nat.cast_natAbs, Int.cast_abs]

/-- The precision that `doublings` reaches passes a separation bound of up to 127 bits in each degree. -/
theorem doublings_pass {n s : ℕ} {S c x : ℝ} {m : ℤ} (hS0 : 0 ≤ S) (hS : S ≤ 2 ^ s) (hc : 0 ≤ c) (hc' : 32 * c ≤ 2 ^ s)
    (hs : s ≤ 128) (hsep : 1 ≤ 8 * (m - x) * S ^ n) : x + 2 * c / 2 ^ (128 * 2 ^ doublings n) < m := by
  have hn : n + 1 ≤ 2 ^ doublings n := Nat.lt_log2_self
  have hK : (2 : ℝ) ^ (s * (n + 1)) ≤ 2 ^ (128 * 2 ^ doublings n) :=
    pow_le_pow_right₀ (by norm_num) (Nat.mul_le_mul hs hn)
  have hSn : S ^ n ≤ (2 ^ s) ^ n := pow_le_pow_left₀ hS0 hS n
  have hd : 0 < m - x := by
    by_contra h
    have : (m - x) * S ^ n ≤ 0 := mul_nonpos_of_nonpos_of_nonneg (not_lt.1 h) (pow_nonneg hS0 n)
    linarith
  have h1 : 1 ≤ 8 * (m - x) * (2 ^ s) ^ n := hsep.trans (mul_le_mul_of_nonneg_left hSn (by linarith))
  have h2 : 2 * c / 2 ^ (128 * 2 ^ doublings n) ≤ 2 * c / 2 ^ (s * (n + 1)) :=
    div_le_div_of_nonneg_left (by linarith) (by positivity) hK
  have h3 : 2 * c / 2 ^ (s * (n + 1)) < m - x := by
    have hT : (0 : ℝ) < 2 ^ s := by positivity
    have h4 := mul_le_mul_of_nonneg_right h1 hT.le
    have e : ((2 : ℝ) ^ s) ^ (n + 1) = (2 ^ s) ^ n * 2 ^ s := pow_succ _ _
    rw [div_lt_iff₀ (by positivity), pow_mul, e]
    linarith
  linarith

/-- **`hannFloor` is the floor of the exact window**, times any integer of at most 80 bits. -/
theorem hannFloor_eq {F n : ℕ} (hF : 2 ≤ F) (hn : n < F) {A : ℤ} (hA : |(A : ℝ)| ≤ 2 ^ 80) :
    hannFloor F n A = ⌊A * RealSpec.hann n F⌋ := by
  have hL : ((F - 1 : ℕ) : ℝ) = (F : ℝ) - 1 := by rw [Nat.cast_sub (by omega)]; simp
  have hL0 : ((F - 1 : ℕ) : ℝ) ≠ 0 := by exact_mod_cast (show F - 1 ≠ 0 by omega)
  have h01 := FixedTrig.hann_mem n F
  unfold hannFloor
  split
  · next h =>
    have : RealSpec.hann n F = 0 := by
      rw [FixedTrig.hann_eq_sin_sq, ← hL]
      rcases h with rfl | rfl
      · simp
      · rw [mul_div_assoc, div_self hL0]; simp
    rw [this]
    simp
  split
  · next h =>
    have h60 : Real.sin (Real.pi / 3) ^ 2 = 3 / 4 := by
      rw [Real.sin_pi_div_three, div_pow, Real.sq_sqrt (by norm_num)]; norm_num
    have : RealSpec.hann n F = 3 / 4 := by
      rw [FixedTrig.hann_eq_sin_sq, ← hL, ← h60]
      rcases h with h | h
      · congr 2
        rw [← h]; push_cast
        have : (n : ℝ) ≠ 0 := by exact_mod_cast (show n ≠ 0 by omega)
        field_simp
      · have h' : (3 : ℝ) * n = 2 * (F - 1 : ℕ) := by exact_mod_cast h
        rw [← Real.sin_pi_sub]
        congr 2
        field_simp
        linear_combination (-1 : ℝ) * h'
    rw [this, show (A : ℝ) * (3 / 4) = (((3 * A : ℤ) : ℚ) / ((4 : ℕ) : ℚ) : ℚ) by push_cast; ring, Rat.floor_cast,
      Rat.floor_intCast_div_natCast]
    rfl
  split
  · next z hz =>
    refine settledFloor_eq (by positivity) ?_ hz
    obtain ⟨h1, h2, -⟩ := FixedTrig.hannFixed_bounds hF hn
    have e : (A : ℝ) * RealSpec.hann n F * ((2 ^ 256 : ℤ) : ℝ) - ((A * FixedTrig.hannFixed n F : ℤ) : ℝ) =
        A * (2 ^ 256 * RealSpec.hann n F - FixedTrig.hannFixed n F) := by push_cast; ring
    have e' : ((A.natAbs * 2 ^ 131 : ℤ) : ℝ) = |(A : ℝ)| * 2 ^ 131 := by push_cast [Nat.cast_natAbs]; ring
    rw [e, e', abs_mul]
    refine mul_le_mul_of_nonneg_left ?_ (abs_nonneg _)
    rw [abs_le]
    constructor <;> linarith
  · refine floorWithin_eq (fun k => ?_) _ _ ?_
    · rw [cast_natAbs, Rat.cast_mul, Rat.cast_intCast, ← mul_sub, abs_mul, div_eq_mul_one_div]
      refine mul_le_mul_of_nonneg_left ((hannApprox_error hF hn k).trans ?_) (abs_nonneg _)
      rw [pow_add, div_le_div_iff₀ (by positivity) (by positivity)]
      nlinarith [show (0 : ℝ) < 2 ^ k by positivity]
    · rw [cast_natAbs]
      have hx := Int.lt_floor_add_one ((A : ℝ) * RealSpec.hann n F)
      have hlo := Int.floor_le ((A : ℝ) * RealSpec.hann n F)
      have hAx : |(A : ℝ) * RealSpec.hann n F| ≤ 2 ^ 80 := by
        rw [abs_mul]
        calc _ ≤ (2 : ℝ) ^ 80 * 1 := mul_le_mul hA (abs_le.2 ⟨by linarith, h01.2⟩) (abs_nonneg _) (by positivity)
          _ = _ := mul_one _
      have hsep := hann_separated (S := 2 ^ 85) hF hn (A := A) (m := ⌊(A : ℝ) * RealSpec.hann n F⌋ + 1) (by norm_num)
        (by
          have hm : |((⌊(A : ℝ) * RealSpec.hann n F⌋ + 1 : ℤ) : ℝ)| ≤ 2 ^ 80 + 1 := by
            have := abs_le.1 hAx
            push_cast
            rw [abs_le]
            constructor <;> linarith
          linarith) (by push_cast; exact hx.ne)
      have := doublings_pass (n := F - 1) (s := 85) (S := 2 ^ 85) (c := |(A : ℝ)|) (x := A * RealSpec.hann n F)
        (m := ⌊(A : ℝ) * RealSpec.hann n F⌋ + 1) (by positivity) le_rfl (abs_nonneg _) (by linarith) (by norm_num)
        (by
          refine hsep.trans (mul_le_mul_of_nonneg_right ?_ (by positivity))
          push_cast at hx ⊢
          rw [abs_sub_comm, abs_of_pos (by linarith)]
          linarith)
      push_cast at this
      exact this

/-- The fixed-point waveform is within its guard of the exact one. -/
theorem waveFixed_error {P : Params} (i : Nibble) {t : ℕ} (hsr : 0 < P.SR) (hN : 2 ≤ P.N) (ht : t < P.N) :
    |RealSpec.waveform (toneFreq P i) P.SR P.N t * 2 ^ 384 - waveFixed P i t| ≤ 2 ^ 260 := by
  have hs := FixedTrig.sinTurn_error (toneFreq P i * t) hsr
  obtain ⟨h1, h2, h3⟩ := FixedTrig.hannFixed_bounds hN ht
  have h3' : (FixedTrig.hannFixed t P.N : ℝ) ≤ 2 ^ 256 := by exact_mod_cast h3
  have e : RealSpec.waveform (toneFreq P i) P.SR P.N t =
      Real.sin (2 * Real.pi * (toneFreq P i * t : ℕ) / P.SR) * RealSpec.hann t P.N := by
    rw [RealSpec.waveform]; push_cast; ring_nf
  have s1 := Real.abs_sin_le_one (2 * Real.pi * (toneFreq P i * t : ℕ) / P.SR)
  rw [e, waveFixed]
  push_cast at hs s1 ⊢
  have h0 : (0 : ℝ) ≤ FixedTrig.hannFixed t P.N := Nat.cast_nonneg _
  generalize Real.sin (2 * Real.pi * (toneFreq P i * t) / P.SR) = s at *
  generalize (FixedTrig.sinTurn (toneFreq P i * t) P.SR : ℝ) = q at *
  generalize RealSpec.hann t P.N = w at *
  generalize (FixedTrig.hannFixed t P.N : ℝ) = v at *
  have split : s * w * 2 ^ 384 - q * v = 2 ^ 128 * s * (2 ^ 256 * w - v) - (q - 2 ^ 128 * s) * v := by
    rw [show (2 : ℝ) ^ 384 = 2 ^ 128 * 2 ^ 256 by rw [← pow_add]]; ring
  have a1 : |2 ^ 128 * s * (2 ^ 256 * w - v)| ≤ 2 ^ 128 * 2 ^ 131 := by
    rw [abs_mul]
    refine mul_le_mul ?_ (abs_le.2 ⟨by linarith, by linarith⟩) (abs_nonneg _) (by positivity)
    rw [abs_mul, abs_of_pos (by positivity)]
    exact mul_le_of_le_one_right (by positivity) s1
  have a2 : |(q - 2 ^ 128 * s) * v| ≤ 2 * 2 ^ 256 := by
    rw [abs_mul, abs_of_nonneg h0]
    exact mul_le_mul hs h3' h0 (by norm_num)
  rw [split, show (2 : ℝ) ^ 260 = 2 ^ 4 * 2 ^ 256 by rw [← pow_add]]
  refine (abs_sub _ _).trans ((add_le_add a1 a2).trans ?_)
  rw [show (2 : ℝ) ^ 128 * 2 ^ 131 = 2 ^ 3 * 2 ^ 256 by rw [← pow_add, ← pow_add]]
  have : (0 : ℝ) < 2 ^ 256 := by positivity
  linarith

/-- Where `waveZero` says so, the waveform is 0. -/
theorem waveform_eq_zero {P : Params} {i : Nibble} {t : ℕ} (hsr : 0 < P.SR) (hN : 2 ≤ P.N)
    (h : waveZero P i t = true) : RealSpec.waveform (toneFreq P i) P.SR P.N t = 0 := by
  have hL : ((P.N - 1 : ℕ) : ℝ) = (P.N : ℝ) - 1 := by rw [Nat.cast_sub (by omega)]; simp
  have hL0 : ((P.N - 1 : ℕ) : ℝ) ≠ 0 := by exact_mod_cast (show P.N - 1 ≠ 0 by omega)
  have hsR : (P.SR : ℝ) ≠ 0 := by exact_mod_cast hsr.ne'
  simp only [waveZero, Bool.or_eq_true, beq_iff_eq] at h
  rw [RealSpec.waveform]
  rcases h with (rfl | rfl) | h
  · simp
  · rw [FixedTrig.hann_eq_sin_sq, hL, mul_div_assoc Real.pi, ← hL, div_self hL0]; simp
  · obtain ⟨q, hq⟩ := Nat.dvd_of_mod_eq_zero h
    have hq' : (2 : ℝ) * toneFreq P i * t = P.SR * q := by exact_mod_cast hq
    rw [show 2 * Real.pi * toneFreq P i * t / P.SR = q * Real.pi by field_simp; linear_combination hq',
      Real.sin_nat_mul_pi, zero_mul]

/-- **`toneFloor` is the floor of the exact waveform**, times any integer of at most 15 bits, plus any integer. -/
theorem toneFloor_eq {P : Params} (i : Nibble) {t : ℕ} (hsr : 0 < P.SR) (hN : 2 ≤ P.N) (ht : t < P.N) {A : ℤ}
    (hA : |(A : ℝ)| ≤ 2 ^ 15) (B : ℤ) :
    toneFloor P i t A B = ⌊A * RealSpec.waveform (toneFreq P i) P.SR P.N t + B⌋ := by
  unfold toneFloor
  split
  · next h => rw [waveform_eq_zero hsr hN h, mul_zero, zero_add, Int.floor_intCast]
  split
  · next z hz =>
    refine settledFloor_eq (by positivity) ?_ hz
    have e : ((A : ℝ) * RealSpec.waveform (toneFreq P i) P.SR P.N t + B) * ((2 ^ 384 : ℤ) : ℝ) -
        ((A * waveFixed P i t + B * 2 ^ 384 : ℤ) : ℝ) =
        A * (RealSpec.waveform (toneFreq P i) P.SR P.N t * 2 ^ 384 - waveFixed P i t) := by push_cast; ring
    have e' : ((A.natAbs * waveGuard : ℤ) : ℝ) = |(A : ℝ)| * 2 ^ 260 := by
      rw [waveGuard]; push_cast [Nat.cast_natAbs]; ring
    rw [e, e', abs_mul]
    exact mul_le_mul_of_nonneg_left (waveFixed_error i hsr hN ht) (abs_nonneg _)
  · have hx1 : |RealSpec.waveform (toneFreq P i) P.SR P.N t| ≤ 1 := by
      have h01 := FixedTrig.hann_mem t P.N
      rw [RealSpec.waveform, abs_mul]
      exact mul_le_one₀ (Real.abs_sin_le_one _) (abs_nonneg _) (abs_le.2 ⟨by linarith, h01.2⟩)
    refine floorWithin_eq (fun k => ?_) _ _ ?_
    · rw [cast_natAbs, Rat.cast_add, Rat.cast_mul, Rat.cast_intCast, Rat.cast_intCast, add_sub_add_right_eq_sub,
        ← mul_sub, abs_mul, div_eq_mul_one_div]
      exact mul_le_mul_of_nonneg_left (waveApprox_error hsr hN ht k) (abs_nonneg _)
    · rw [cast_natAbs, Int.floor_add_intCast]
      generalize hv : RealSpec.waveform (toneFreq P i) P.SR P.N t = v at *
      have hx := Int.lt_floor_add_one ((A : ℝ) * v)
      have hlo := Int.floor_le ((A : ℝ) * v)
      have hAx : |(A : ℝ) * v| ≤ 2 ^ 15 := by
        rw [abs_mul]
        calc _ ≤ (2 : ℝ) ^ 15 * 1 := mul_le_mul hA hx1 (abs_nonneg _) (by positivity)
          _ = _ := mul_one _
      have hsep := waveform_separated (S := 2 ^ 20) (f₀ := toneFreq P i) hsr hN ht (A := A) (m := ⌊(A : ℝ) * v⌋ + 1)
        (by norm_num)
        (by
          have hm : |((⌊(A : ℝ) * v⌋ + 1 : ℤ) : ℝ)| ≤ 2 ^ 15 + 1 := by
            have := abs_le.1 hAx
            push_cast
            rw [abs_le]
            constructor <;> linarith
          linarith) (by rw [hv]; push_cast; exact hx.ne)
      rw [hv] at hsep
      have := doublings_pass (s := 20) (S := 2 ^ 20) (c := |(A : ℝ)|) (x := A * v)
        (m := ⌊(A : ℝ) * v⌋ + 1) (by positivity) le_rfl (abs_nonneg _) (by linarith) (by norm_num)
        (by
          refine hsep.trans_eq ?_
          push_cast at hx ⊢
          rw [abs_sub_comm, abs_of_pos (by linarith)])
      push_cast at this ⊢
      linarith

end Sys2Proof.Machine
end

