-- ==== Sys2Proof/Laws/DetectInput.lean ====
section
/-! SUPPORT. Every window gives MAG an input of the moderate size on which MAG_ACC bounds its answer: the windowed
samples are finite, and each is zero or between 2^-42 and 2 (41_detection.md R162 to R165). -/

namespace Sys2Proof.F64

/-- Rounding keeps a value below a power of two below it, and finite. -/
theorem roundBits_le_pow {n d e : Nat} (hd : 0 < d) (he : e ≤ 2044) (h : n ≤ 2 ^ e * d) :
    roundBits n d < infBits ∧ unitsOfBits (roundBits n d) ≤ 2 ^ e := by
  obtain ⟨h1, h2⟩ := roundBits_exact 1 e (by decide) he
  rw [one_mul] at h1 h2
  have h3 : roundBits n d ≤ roundBits (2 ^ e) 1 := roundBits_mono hd one_pos (by simpa using h)
  have h4 : roundBits n d < infBits := by omega
  exact ⟨h4, h2 ▸ (unitsOfBits_le_iff h4.le h1.le).2 h3⟩

/-- Rounding keeps a value above a power of two above it. -/
theorem pow_le_roundBits {n d e : Nat} (hd : 0 < d) (he : e ≤ 2044) (h : 2 ^ e * d ≤ n) :
    2 ^ e ≤ unitsOfBits (roundBits n d) := by
  obtain ⟨h1, h2⟩ := roundBits_exact 1 e (by decide) he
  rw [one_mul] at h1 h2
  have h3 : roundBits (2 ^ e) 1 ≤ roundBits n d := roundBits_mono one_pos hd (by simpa using h)
  calc 2 ^ e = unitsOfBits (roundBits (2 ^ e) 1) := h2.symm
    _ ≤ _ := (unitsOfBits_le_iff h1.le (roundBits_le n d)).2 h3

theorem unitsOfBits_roundBits_zero (d : Nat) (hd : 0 < d) : unitsOfBits (roundBits 0 d) = 0 := by
  have h : roundBits 0 d ≤ roundBits 0 1 := roundBits_mono hd one_pos (by simp)
  have h0 : roundBits 0 1 = 0 := by decide
  rw [h0, Nat.le_zero] at h
  rw [h]
  decide

/-- The quotient of a small integer and a power of two is exact. -/
theorem div_pow_exact {a : Int} {e : Nat} (ha : a.natAbs ≤ 2 ^ 53) (he : e ≤ 53) :
    isFinite (div (ofInt a) (ofInt (2 ^ e))) = true ∧
      sign (div (ofInt a) (ofInt (2 ^ e))) = decide (a < 0) ∧
      units (div (ofInt a) (ofInt (2 ^ e))) = a.natAbs * 2 ^ (1074 - e) := by
  have hpow : ((2 : Int) ^ e).natAbs = 2 ^ e := by simp [Int.natAbs_pow]
  have hle : 2 ^ e ≤ 2 ^ 53 := Nat.pow_le_pow_right (by decide) he
  obtain ⟨f1, u1⟩ := roundBits_exact a.natAbs 1074 ha (by decide)
  obtain ⟨f2, u2⟩ := roundBits_exact (2 ^ e) 1074 hle (by decide)
  have F1 : isFinite (ofInt a) = true := by rw [isFinite_iff, ofInt, absBits_rne]; exact f1
  have F2 : isFinite (ofInt (2 ^ e)) = true := by rw [isFinite_iff, ofInt, absBits_rne, hpow]; exact f2
  have U1 : units (ofInt a) = a.natAbs * 2 ^ 1074 := by rw [ofInt, units_rne, u1]
  have U2 : units (ofInt (2 ^ e)) = 2 ^ e * 2 ^ 1074 := by rw [ofInt, units_rne, hpow, u2]
  have hpos : 0 < 2 ^ e * 2 ^ 1074 := Nat.mul_pos (Nat.two_pow_pos _) (Nat.two_pow_pos _)
  obtain ⟨f3, u3⟩ := roundBits_exact a.natAbs (1074 - e) ha (by omega)
  have hr : roundBits (a.natAbs * 2 ^ 1074 * 2 ^ 1074) (2 ^ e * 2 ^ 1074)
      = roundBits (a.natAbs * 2 ^ (1074 - e)) 1 := by
    have key : a.natAbs * 2 ^ 1074 * 2 ^ 1074 * 1 = a.natAbs * 2 ^ (1074 - e) * (2 ^ e * 2 ^ 1074) := by
      have : 2 ^ (1074 - e) * 2 ^ e = 2 ^ 1074 := by rw [← pow_add]; congr 1; omega
      calc a.natAbs * 2 ^ 1074 * 2 ^ 1074 * 1 = a.natAbs * (2 ^ (1074 - e) * 2 ^ e) * 2 ^ 1074 := by
            rw [this, mul_one]
        _ = _ := by ring
    exact le_antisymm (roundBits_mono hpos one_pos key.le) (roundBits_mono one_pos hpos key.ge)
  rw [div_finite F1 F2 (by rw [U2]; omega), U1, U2]
  refine ⟨by rw [isFinite_iff, absBits_rne, hr]; exact f3, ?_, by rw [units_rne, hr, u3]⟩
  rw [sign_rne, ofInt, ofInt, sign_rne, sign_rne]
  have : ¬(2 : Int) ^ e < 0 := not_lt.2 (by positivity)
  simp [this]

end Sys2Proof.F64

namespace Sys2Proof.Machine

open F64

/-- A dequantized sample is zero or of moderate size. -/
def SampleBound (x : F64) : Prop :=
  isFinite x = true ∧ units x ≤ 2 ^ 1075 ∧ (units x = 0 ∨ 2 ^ 1059 ≤ units x)

theorem sampleBound_dequant8 {P : Params} (h : P.BIAS8 ≤ 255) (b : Byte) : SampleBound (dequant8 P b) := by
  have hb : b.toNat < 256 := b.isLt
  obtain ⟨h1, -, h3⟩ := div_pow_exact (a := (b.toNat : Int) - P.BIAS8) (e := 7) (by omega) (by decide)
  have e : ((2 : Int) ^ 7) = 128 := by norm_num
  rw [e] at h1 h3
  refine ⟨h1, ?_, ?_⟩
  · rw [dequant8, h3]
    calc ((b.toNat : Int) - P.BIAS8).natAbs * 2 ^ (1074 - 7) ≤ 2 ^ 8 * 2 ^ (1074 - 7) :=
          Nat.mul_le_mul_right _ (by omega)
      _ = 2 ^ 1075 := by rw [← pow_add]
  · rw [dequant8, h3]
    rcases Nat.eq_zero_or_pos ((b.toNat : Int) - P.BIAS8).natAbs with h0 | h0
    · left; rw [h0, zero_mul]
    · right
      calc 2 ^ 1059 ≤ 2 ^ (1074 - 7) := Nat.pow_le_pow_right (by decide) (by decide)
        _ = 1 * 2 ^ (1074 - 7) := (one_mul _).symm
        _ ≤ _ := Nat.mul_le_mul_right _ h0

theorem sext16_bounds (h l : Byte) : -32768 ≤ sext16 h l ∧ sext16 h l ≤ 32767 := by
  have h1 := BitVec.toInt_lt (x := h ++ l)
  have h2 := BitVec.le_toInt (x := h ++ l)
  unfold sext16
  norm_num at h1 h2
  omega

theorem sampleBound_dequant16 (h l : Byte) : SampleBound (dequant16 h l) := by
  obtain ⟨g1, g2⟩ := sext16_bounds h l
  obtain ⟨h1, -, h3⟩ := div_pow_exact (a := sext16 h l) (e := 15) (by omega) (by decide)
  have e : ((2 : Int) ^ 15) = 32768 := by norm_num
  rw [e] at h1 h3
  refine ⟨h1, ?_, ?_⟩
  · rw [dequant16, h3]
    calc (sext16 h l).natAbs * 2 ^ (1074 - 15) ≤ 2 ^ 15 * 2 ^ (1074 - 15) :=
          Nat.mul_le_mul_right _ (by omega)
      _ = 2 ^ 1074 := by rw [← pow_add]
      _ ≤ 2 ^ 1075 := Nat.pow_le_pow_right (by decide) (by decide)
  · rw [dequant16, h3]
    rcases Nat.eq_zero_or_pos (sext16 h l).natAbs with h0 | h0
    · left; rw [h0, zero_mul]
    · right
      exact le_trans (one_mul _).ge (Nat.mul_le_mul_right _ h0)

theorem sampleBound_windowSample {P : Params} (h : P.BIAS8 ≤ 255) (d : Depth) (m : Memory) (b n : Nat) :
    SampleBound (windowSample P d m b n) := by
  unfold windowSample
  split
  · exact sampleBound_dequant8 h _
  · exact sampleBound_dequant16 _ _

/-! ## The window table -/

/-- Inside, a window of at most 16384 samples is at least 2^-26. -/
theorem hann_pos {t L : Nat} (hL : L ≤ 16384) (h0 : 0 < t) (h1 : t < L - 1) :
    1 / 2 ^ 26 ≤ RealSpec.hann t L := by
  rw [FixedTrig.hann_eq_sin_sq]
  have hR : (1 : ℝ) ≤ t ∧ (t : ℝ) + 1 ≤ (L : ℝ) - 1 ∧ (L : ℝ) ≤ 16384 := by
    refine ⟨by exact_mod_cast h0, ?_, by exact_mod_cast hL⟩
    have : t + 2 ≤ L := by omega
    have : (t : ℝ) + 2 ≤ L := by exact_mod_cast this
    linarith
  have hsin : (1 : ℝ) / 2 ^ 13 ≤ Real.sin (Real.pi * t / ((L : ℝ) - 1)) := by
    have hpi := Real.pi_pos
    have hM : (0 : ℝ) < (L : ℝ) - 1 := by linarith
    have key : ∀ x : ℝ, Real.pi / ((L : ℝ) - 1) ≤ x → x ≤ Real.pi / 2 → (1 : ℝ) / 2 ^ 13 ≤ Real.sin x := by
      intro x hx hx2
      have h3 := Real.mul_le_sin ((div_nonneg hpi.le hM.le).trans hx) hx2
      have h4 : 2 / Real.pi * (Real.pi / ((L : ℝ) - 1)) ≤ 2 / Real.pi * x :=
        mul_le_mul_of_nonneg_left hx (by positivity)
      have h5 : 2 / Real.pi * (Real.pi / ((L : ℝ) - 1)) = 2 / ((L : ℝ) - 1) := by field_simp
      have h6 : (1 : ℝ) / 2 ^ 13 ≤ 2 / ((L : ℝ) - 1) := by
        rw [div_le_div_iff₀ (by positivity) hM]; norm_num; linarith
      linarith
    rcases le_or_gt (Real.pi * t / ((L : ℝ) - 1)) (Real.pi / 2) with hc | hc
    · refine key _ ?_ hc
      exact div_le_div_of_nonneg_right (by nlinarith) hM.le
    · rw [← Real.sin_pi_sub]
      refine key _ ?_ (by linarith)
      rw [show Real.pi - Real.pi * t / ((L : ℝ) - 1) = Real.pi * ((L : ℝ) - 1 - t) / ((L : ℝ) - 1) by
        field_simp]
      exact div_le_div_of_nonneg_right (by nlinarith) hM.le
  calc (1 : ℝ) / 2 ^ 26 = (1 / 2 ^ 13) ^ 2 := by norm_num
    _ ≤ _ := pow_le_pow_left₀ (by positivity) hsin 2

/-- A window coefficient is zero or of moderate size. -/
theorem windowCoeff_bound {F n : Nat} (hF2 : 2 ≤ F) (hF : F ≤ 16384) (hn : n < F) :
    isFinite (windowCoeff F n) = true ∧ units (windowCoeff F n) ≤ 2 ^ 1074 ∧
      (units (windowCoeff F n) = 0 ∨ 2 ^ 1047 ≤ units (windowCoeff F n)) := by
  obtain ⟨w0, w1⟩ := FixedTrig.hann_mem n F
  have hz : hannFloor F n (2 ^ 80) = ⌊2 ^ 80 * RealSpec.hann n F⌋ := by
    rw [hannFloor_eq hF2 hn (by norm_num)]; norm_num
  have hz' : hannFloor F n (-2 ^ 80) = ⌊-(2 ^ 80 * RealSpec.hann n F)⌋ := by
    rw [hannFloor_eq hF2 hn (by norm_num)]; norm_num
  have hup : (hannFloor F n (2 ^ 80) - hannFloor F n (-2 ^ 80)).toNat ≤ 2 ^ 81 := by
    have h1 : ⌊2 ^ 80 * RealSpec.hann n F⌋ ≤ 2 ^ 80 := by
      rw [Int.floor_le_iff]; push_cast; linarith
    have h2 : -2 ^ 80 ≤ ⌊-(2 ^ 80 * RealSpec.hann n F)⌋ := by
      rw [Int.le_floor]; push_cast; linarith
    rw [hz, hz']
    omega
  obtain ⟨h1, h2⟩ := roundBits_le_pow
    (n := (hannFloor F n (2 ^ 80) - hannFloor F n (-2 ^ 80)).toNat * 2 ^ 993) (d := 1) (e := 1074) one_pos (by decide)
    (by rw [mul_one, show 1074 = 81 + 993 from rfl, pow_add]; exact Nat.mul_le_mul_right _ hup)
  have hu : units (windowCoeff F n) =
      unitsOfBits (roundBits ((hannFloor F n (2 ^ 80) - hannFloor F n (-2 ^ 80)).toNat * 2 ^ 993) 1) := by
    rw [windowCoeff, units_rne]
  have hf : isFinite (windowCoeff F n) = true := by rw [isFinite_iff, windowCoeff, absBits_rne]; exact h1
  rw [hu]
  refine ⟨hf, h2, ?_⟩
  by_cases hend : n = 0 ∨ n = F - 1
  · left
    have hf0 : ∀ A, hannFloor F n A = 0 := fun A => by rw [hannFloor, if_pos hend]
    rw [hf0, hf0, sub_self, Int.toNat_zero, zero_mul]
    exact unitsOfBits_roundBits_zero 1 one_pos
  · right
    have hpos := hann_pos hF (t := n) (by omega) (by omega)
    have hlow : 2 ^ 54 ≤ (hannFloor F n (2 ^ 80) - hannFloor F n (-2 ^ 80)).toNat := by
      have h1 : 2 ^ 54 ≤ ⌊2 ^ 80 * RealSpec.hann n F⌋ := by
        rw [Int.le_floor]; push_cast; linarith
      have h2 : ⌊-(2 ^ 80 * RealSpec.hann n F)⌋ ≤ 0 := by
        rw [Int.floor_le_iff]; push_cast; linarith
      rw [hz, hz']
      omega
    refine pow_le_roundBits one_pos (by decide) ?_
    rw [mul_one, show 1047 = 54 + 993 from rfl, pow_add]
    exact Nat.mul_le_mul_right _ hlow

/-! ## The windowed samples -/

/-- A windowed sample is zero or of moderate size. -/
theorem product_bound {x w : F64} (hx : SampleBound x)
    (hw : isFinite w = true ∧ units w ≤ 2 ^ 1074 ∧ (units w = 0 ∨ 2 ^ 1047 ≤ units w)) :
    isFinite (mul x w) = true ∧ units (mul x w) ≤ 2 ^ 1075 ∧
      (units (mul x w) = 0 ∨ 2 ^ 1032 ≤ units (mul x w)) := by
  obtain ⟨fx, ux, lx⟩ := hx
  obtain ⟨fw, uw, lw⟩ := hw
  rw [mul_finite fx fw]
  have hd : 0 < 2 ^ 1074 := Nat.two_pow_pos _
  obtain ⟨h1, h2⟩ := roundBits_le_pow (n := units x * units w) (e := 1075) hd (by decide)
    (Nat.mul_le_mul ux uw)
  refine ⟨by rw [isFinite_iff, absBits_rne]; exact h1, by rw [units_rne]; exact h2, ?_⟩
  rw [units_rne]
  rcases lx with lx | lx
  · left; rw [lx, zero_mul]; exact unitsOfBits_roundBits_zero _ hd
  rcases lw with lw | lw
  · left; rw [lw, mul_zero]; exact unitsOfBits_roundBits_zero _ hd
  right
  refine pow_le_roundBits hd (by decide) ?_
  calc 2 ^ 1032 * 2 ^ 1074 = 2 ^ 1059 * 2 ^ 1047 := by rw [← pow_add, ← pow_add]
    _ ≤ _ := Nat.mul_le_mul lx lw

@[simp] theorem length_windowed (P : Params) (d : Depth) (sl : Slot) (m : Memory) :
    (windowed P d sl m).length = P.F := by simp [windowed]

theorem getD_windowed {P : Params} {n : Nat} (h : n < P.F) (d : Depth) (sl : Slot) (m : Memory) (x : F64) :
    (windowed P d sl m).getD n x =
      mul (windowSample P d m (winSlotBase P sl d) n) (windowCoeff P.F n) := by
  rw [List.getD_eq_getElem _ _ (by simpa using h)]
  simp [windowed]

/-- Every windowed sample of a valid instance is zero or of moderate size. -/
theorem windowed_bound {P : Params} (h : P.wellFormed = true) (d : Depth) (sl : Slot) (m : Memory) {y : F64}
    (hy : y ∈ windowed P d sl m) :
    isFinite y = true ∧ units y ≤ 2 ^ 1075 ∧ (units y = 0 ∨ 2 ^ 1032 ≤ units y) := by
  simp only [Params.wellFormed, Params.fftOk, Params.amp8Ok, Bool.and_eq_true, decide_eq_true_eq] at h
  simp only [windowed, List.mem_map, List.mem_range] at hy
  obtain ⟨n, hn, rfl⟩ := hy
  exact product_bound (sampleBound_windowSample (by omega) d m _ n)
    (windowCoeff_bound (by omega) (by omega) hn)

/-- **What DETECT gives MAG is always an input that MAG_ACC bounds.** -/
theorem windowed_magInput {P : Params} (h : P.wellFormed = true) (d : Depth) (sl : Slot) (m : Memory) :
    RealSpec.MagInput P.F (windowed P d sl m) := by
  have hb := fun y hy => windowed_bound h d sl m (y := y) hy
  refine ⟨length_windowed P d sl m, fun y hy => (hb y hy).1, ?_⟩
  rw [Magnitude.absSum_eq (length_windowed P d sl m)]
  have hF : P.F ≤ 16384 := by
    simp only [Params.wellFormed, Params.fftOk, Bool.and_eq_true, decide_eq_true_eq] at h
    omega
  have main : ∀ l : List F64, (∀ y ∈ l, units y ≤ 2 ^ 1075 ∧ (units y = 0 ∨ 2 ^ 1032 ≤ units y)) →
      Magnitude.absUnits l ≤ l.length * 2 ^ 1075 ∧
        (Magnitude.absUnits l = 0 ∨ 2 ^ 1032 ≤ Magnitude.absUnits l) := by
    intro l
    induction l with
    | nil => intro _; simp [Magnitude.absUnits]
    | cons y l ih =>
      intro hl
      obtain ⟨h1, h2⟩ := ih fun z hz => hl z (List.mem_cons_of_mem _ hz)
      obtain ⟨h3, h4⟩ := hl y (by simp)
      have e : Magnitude.absUnits (y :: l) = units y + Magnitude.absUnits l := by simp [Magnitude.absUnits]
      rw [e, List.length_cons, Nat.succ_mul]
      generalize Magnitude.absUnits l = U at *
      generalize units y = u at *
      generalize (2 : Nat) ^ 1075 = A at *
      generalize (2 : Nat) ^ 1032 = B at *
      exact ⟨by omega, by omega⟩
  obtain ⟨h1, h2⟩ := main _ fun y hy => (hb y hy).2
  rw [length_windowed] at h1
  rcases h2 with h2 | h2
  · left; rw [h2]; simp
  · right
    constructor
    · rw [div_le_div_iff₀ (by positivity) (by positivity)]
      have : (2 : ℝ) ^ 1032 ≤ (Magnitude.absUnits (windowed P d sl m) : ℝ) := by exact_mod_cast h2
      calc (1 : ℝ) * 2 ^ 1074 ≤ 2 ^ 1032 * 2 ^ 1000 := by
            rw [one_mul, ← pow_add]; exact pow_le_pow_right₀ (by norm_num) (by decide)
        _ ≤ _ := mul_le_mul_of_nonneg_right this (by positivity)
    · rw [div_le_iff₀ (by positivity)]
      have h3 : Magnitude.absUnits (windowed P d sl m) ≤ 2 ^ 14 * 2 ^ 1075 :=
        h1.trans (Nat.mul_le_mul_right _ (by omega))
      have : (Magnitude.absUnits (windowed P d sl m) : ℝ) ≤ 2 ^ 14 * 2 ^ 1075 := by exact_mod_cast h3
      refine this.trans ?_
      rw [← pow_add, ← pow_add]
      exact pow_le_pow_right₀ (by norm_num) (by decide)

end Sys2Proof.Machine
end

