-- ==== Sys2Proof/Laws/Memory.lean ====
section
/-! SUPPORT. The laws of buffer memory: a read after a write, what a write leaves alone, the canonical form that
every operation keeps, and equality of canonical memories that read alike. -/

namespace Sys2Proof.Machine.Memory

/-! ## Reads -/

theorem read_of_not_mem {m : Memory} {a : Nat} (h : ∀ c ∈ m, c.1 ≠ a) : m.read a = initByte := by
  induction m with
  | nil => rfl
  | cons c m ih =>
    rw [read, if_neg (h c (by simp)), ih fun c' hc' => h c' (by simp [hc'])]

theorem read_append (m m' : Memory) (a : Nat) :
    (m ++ m').read a = if ∃ c ∈ m, c.1 = a then m.read a else m'.read a := by
  induction m with
  | nil => simp
  | cons c m ih =>
    by_cases h : c.1 = a
    · simp [read, h]
    · simp [read, h, ih]

theorem read_filter (p : Nat → Bool) (m : Memory) (a : Nat) :
    Memory.read (m.filter fun c => p c.1) a = if p a then m.read a else initByte := by
  induction m with
  | nil => simp [read]
  | cons c m ih =>
    by_cases hp : p c.1 = true
    · rw [List.filter_cons_of_pos (by exact hp)]
      by_cases h : c.1 = a
      · simp [read, ← h, hp]
      · simp [read, h, ih]
    · rw [List.filter_cons_of_neg (by exact hp), ih]
      by_cases h : c.1 = a
      · simp [← h, hp]
      · simp [read, h]

theorem mem_cellsFrom {o : Nat} {bs : List Byte} {c : Host.Cell} :
    c ∈ cellsFrom o bs → o ≤ c.1 ∧ c.1 < o + bs.length ∧ c.2 ≠ initByte := by
  induction bs generalizing o with
  | nil => simp [cellsFrom]
  | cons b bs ih =>
    simp only [cellsFrom]
    split
    · intro h
      have := ih h
      simp only [List.length_cons]
      exact ⟨by omega, by omega, this.2.2⟩
    · rename_i hb
      simp only [List.mem_cons, List.length_cons]
      rintro (rfl | h)
      · exact ⟨le_rfl, by simp, hb⟩
      · have := ih h
        exact ⟨by omega, by omega, this.2.2⟩

theorem read_cellsFrom (o : Nat) (bs : List Byte) (a : Nat) :
    (cellsFrom o bs).read a = if o ≤ a ∧ a < o + bs.length then bs.getD (a - o) initByte else initByte := by
  induction bs generalizing o with
  | nil => simp [cellsFrom, read]
  | cons b bs ih =>
    have hstep : (cellsFrom o (b :: bs)).read a = if o = a then b else (cellsFrom (o + 1) bs).read a := by
      simp only [cellsFrom]
      split
      · rename_i hb
        split
        · rename_i ha
          rw [ih, if_neg (by omega), hb]
        · rfl
      · rfl
    rw [hstep, ih]
    by_cases ha : o = a
    · subst ha; simp
    · rw [if_neg ha]
      by_cases hr : o + 1 ≤ a ∧ a < o + 1 + bs.length
      · rw [if_pos hr, if_pos (by simp; omega)]
        obtain ⟨n, hn⟩ : ∃ n, a - o = n + 1 := ⟨a - o - 1, by omega⟩
        rw [hn, List.getD_cons_succ]
        congr 1
        omega
      · rw [if_neg hr, if_neg (by simp; omega)]

/-- A read after a block write: the written byte inside the block, and the old byte everywhere else. -/
theorem read_writeBlock (m : Memory) (o : Nat) (bs : List Byte) (a : Nat) :
    (m.writeBlock o bs).read a =
      if o ≤ a ∧ a < o + bs.length then bs.getD (a - o) initByte else m.read a := by
  rw [writeBlock, read_append, read_append, read_filter (fun k => decide (k < o)),
    read_filter (fun k => decide (o + bs.length ≤ k)), read_cellsFrom]
  have hcells : ∀ c ∈ cellsFrom o bs, o ≤ c.1 ∧ c.1 < o + bs.length := fun c hc =>
    ⟨(mem_cellsFrom hc).1, (mem_cellsFrom hc).2.1⟩
  by_cases hin : o ≤ a ∧ a < o + bs.length
  · have h1 : ¬∃ c ∈ m.filter (fun c => decide (c.1 < o)), c.1 = a := by
      rintro ⟨c, hc, rfl⟩; simp at hc; omega
    rw [if_neg h1, if_pos hin]
    split
    · rfl
    · rename_i h2
      rw [if_neg (by simp; omega)]
      have : (cellsFrom o bs).read a = initByte :=
        read_of_not_mem fun c hc e => h2 ⟨c, by simp [hc], e⟩
      rw [read_cellsFrom, if_pos hin] at this
      exact this.symm
  · have h2 : ¬∃ c ∈ cellsFrom o bs, c.1 = a := by
      rintro ⟨c, hc, rfl⟩; exact hin (hcells c hc)
    by_cases ha : a < o
    · have e : decide (a < o) = true := by simpa using ha
      have e' : decide (o + bs.length ≤ a) = false := by simp; omega
      simp only [e, e', if_neg hin, if_true, Bool.false_eq_true, if_false]
      split
      · split
        · rfl
        · rename_i h3
          have : m.read a = initByte := by
            refine read_of_not_mem fun c hc e' => h3 ⟨c, ?_, e'⟩
            simp [List.mem_filter, hc]; omega
          exact this.symm
      · rename_i h3
        have : m.read a = initByte := by
          refine read_of_not_mem fun c hc e' => h3 ⟨c, ?_, e'⟩
          simp [hc]; omega
        exact this.symm
    · have e : decide (o + bs.length ≤ a) = true := by simp; omega
      have h3 : ¬∃ c ∈ m.filter (fun c => decide (c.1 < o)) ++ cellsFrom o bs, c.1 = a := by
        rintro ⟨c, hc, rfl⟩
        rcases List.mem_append.1 hc with hc | hc
        · simp at hc; omega
        · exact h2 ⟨c, hc, rfl⟩
      rw [if_neg h3, if_neg hin, e]
      rfl

/-- A byte outside the block is untouched. -/
theorem read_writeBlock_frame {m : Memory} {o : Nat} {bs : List Byte} {a : Nat}
    (h : a < o ∨ o + bs.length ≤ a) : (m.writeBlock o bs).read a = m.read a := by
  rw [read_writeBlock, if_neg (by omega)]

@[simp] theorem length_wordBytes (v : Word) : (wordBytes v).length = 4 := rfl

theorem wordOfBytes_wordBytes (v : Word) :
    wordOfBytes (v.extractLsb' 24 8) (v.extractLsb' 16 8) (v.extractLsb' 8 8) (v.extractLsb' 0 8) = v := by
  apply BitVec.eq_of_getLsbD_eq
  intro i hi
  simp only [wordOfBytes, BitVec.getLsbD_append, BitVec.getLsbD_extractLsb']
  split
  · simp [*]
  · split
    · simp [*, show 8 + (i - 8) = i by omega]
    · split
      · simp [*, show 16 + (i - 8 - 8) = i by omega]
      · simp [*, show 24 + (i - 8 - 8 - 8) = i by omega, show i - 8 - 8 - 8 < 8 by omega]

/-- A word read back after it was written. -/
theorem readWord_writeWord (m : Memory) (o : Nat) (v : Word) : (m.writeWord o v).readWord o = v := by
  simp only [readWord, writeWord, read_writeBlock, length_wordBytes]
  simp only [show o ≤ o ∧ o < o + 4 by omega, show o ≤ o + 1 ∧ o + 1 < o + 4 by omega,
    show o ≤ o + 2 ∧ o + 2 < o + 4 by omega, show o ≤ o + 3 ∧ o + 3 < o + 4 by omega, if_true, and_self,
    Nat.sub_self, Nat.add_sub_cancel_left]
  exact wordOfBytes_wordBytes v

/-! ## The canonical form -/

theorem wfFrom_iff (lo : Nat) (m : Memory) :
    wfFrom lo m = true ↔
      m.Pairwise (fun c c' => c.1 < c'.1) ∧ ∀ c ∈ m, lo ≤ c.1 ∧ c.1 < bufferBytes ∧ c.2 ≠ initByte := by
  induction m generalizing lo with
  | nil => simp [wfFrom]
  | cons c m ih =>
    obtain ⟨k, b⟩ := c
    simp only [wfFrom, Bool.and_eq_true, decide_eq_true_eq, bne_iff_ne, ih, List.pairwise_cons,
      List.mem_cons, forall_eq_or_imp]
    constructor
    · rintro ⟨⟨⟨h1, h2⟩, h3⟩, h4, h5⟩
      exact ⟨⟨fun c hc => (h5 c hc).1, h4⟩, ⟨h1, h2, h3⟩, fun c hc => ⟨by have := (h5 c hc).1; omega, (h5 c hc).2⟩⟩
    · rintro ⟨⟨h1, h2⟩, ⟨h3, h4, h5⟩, h6⟩
      exact ⟨⟨⟨h3, h4⟩, h5⟩, h2, fun c hc => ⟨h1 c hc, (h6 c hc).2⟩⟩

theorem wf_iff (m : Memory) :
    m.wf = true ↔
      m.Pairwise (fun c c' => c.1 < c'.1) ∧ ∀ c ∈ m, c.1 < bufferBytes ∧ c.2 ≠ initByte := by
  simp [wf, wfFrom_iff]

theorem pairwise_cellsFrom (o : Nat) (bs : List Byte) :
    (cellsFrom o bs).Pairwise (fun c c' => c.1 < c'.1) := by
  induction bs generalizing o with
  | nil => simp [cellsFrom]
  | cons b bs ih =>
    simp only [cellsFrom]
    split
    · exact ih _
    · rw [List.pairwise_cons]
      exact ⟨fun c hc => (mem_cellsFrom hc).1, ih _⟩

/-- Block writes inside the buffer keep the canonical form. -/
theorem wf_writeBlock {m : Memory} (h : m.wf = true) {o : Nat} {bs : List Byte}
    (hin : o + bs.length ≤ bufferBytes) : (m.writeBlock o bs).wf = true := by
  rw [wf_iff] at h ⊢
  constructor
  · rw [writeBlock, List.pairwise_append, List.pairwise_append]
    refine ⟨⟨h.1.filter _, pairwise_cellsFrom o bs, fun c hc c' hc' => ?_⟩, h.1.filter _, fun c hc c' hc' => ?_⟩
    · have := mem_cellsFrom hc'
      simp at hc; omega
    · simp at hc'
      rcases List.mem_append.1 hc with hc | hc
      · simp at hc; omega
      · have := mem_cellsFrom hc; omega
  · intro c hc
    simp only [writeBlock, List.mem_append, List.mem_filter] at hc
    rcases hc with (hc | hc) | hc
    · exact h.2 c hc.1
    · have := mem_cellsFrom hc
      exact ⟨by omega, this.2.2⟩
    · exact h.2 c hc.1

/-- Word writes inside the buffer keep the canonical form. -/
theorem wf_writeWord {m : Memory} (h : m.wf = true) {o : Nat} (v : Word) (hin : o + 4 ≤ bufferBytes) :
    (m.writeWord o v).wf = true := wf_writeBlock h (by simpa using hin)

theorem wf_nil : Memory.wf [] = true := rfl

theorem read_of_mem {m : Memory} (h : m.Pairwise fun c c' => c.1 < c'.1) {c : Host.Cell} (hc : c ∈ m) :
    m.read c.1 = c.2 := by
  induction m with
  | nil => simp at hc
  | cons c' m ih =>
    rw [List.pairwise_cons] at h
    rcases List.mem_cons.1 hc with rfl | hc
    · simp [read]
    · rw [read, if_neg (Nat.ne_of_lt (h.1 c hc)), ih h.2 hc]

theorem mem_of_read {m : Memory} {a : Nat} (h : m.read a ≠ initByte) : (a, m.read a) ∈ m := by
  induction m with
  | nil => simp [read] at h
  | cons c m ih =>
    obtain ⟨k, b⟩ := c
    simp only [read] at h ⊢
    split
    · rename_i hk; simp [hk]
    · rename_i hk
      rw [if_neg hk] at h
      exact List.mem_cons_of_mem _ (ih h)

theorem eq_of_pairwise_of_mem {m m' : Memory} (h : m.Pairwise fun c c' => c.1 < c'.1)
    (h' : m'.Pairwise fun c c' => c.1 < c'.1) (hm : ∀ c, c ∈ m ↔ c ∈ m') : m = m' := by
  refine List.Perm.eq_of_pairwise (le := fun c c' : Host.Cell => c.1 < c'.1) ?_ h h' ?_
  · intro a b _ _ hab hba; omega
  · have nd : ∀ {l : Memory}, l.Pairwise (fun c c' => c.1 < c'.1) → l.Nodup := fun hl =>
      hl.imp fun {a b} hab e => by subst e; omega
    exact (List.perm_ext_iff_of_nodup (nd h) (nd h')).2 hm

/-- Canonical memories that read alike are equal. -/
theorem ext_read {m m' : Memory} (h : m.wf = true) (h' : m'.wf = true) (hr : ∀ a, m.read a = m'.read a) :
    m = m' := by
  rw [wf_iff] at h h'
  refine eq_of_pairwise_of_mem h.1 h'.1 fun c => ⟨fun hc => ?_, fun hc => ?_⟩
  · have e := read_of_mem h.1 hc
    have := mem_of_read (m := m') (a := c.1) (by rw [← hr, e]; exact (h.2 c hc).2)
    rwa [← hr, e] at this
  · have e := read_of_mem h'.1 hc
    have := mem_of_read (m := m) (a := c.1) (by rw [hr, e]; exact (h'.2 c hc).2)
    rwa [hr, e] at this

@[simp] theorem length_readBlock (m : Memory) (o n : Nat) : (m.readBlock o n).length = n := by simp [readBlock]

/-- A block read back after it was written. -/
theorem readBlock_writeBlock (m : Memory) (o : Nat) (bs : List Byte) :
    (m.writeBlock o bs).readBlock o bs.length = bs := by
  refine List.ext_getElem (by simp) fun k h1 h2 => ?_
  rw [length_readBlock] at h1
  simp only [readBlock, List.getElem_map, List.getElem_range, read_writeBlock]
  rw [if_pos (by omega), show o + k - o = k by omega, List.getD_eq_getElem _ _ h1]

end Sys2Proof.Machine.Memory
end

