-- ==== Sys2Proof/Laws/Ops.lean ====
section
/-! SUPPORT. What each shared operation of the port can do, said once: command acceptance, register writes, a
whole transaction. -/

namespace Sys2Proof.Machine

/-! ## Decoding and the latch -/

/-- A latched command word is latched as the command it decodes to. -/
theorem latchedInstr_latchOf {c : Word} {i : Instr} (h : decode c = .cmd i) (s : State) :
    latchedInstr (latchOf c s) = some i := by
  unfold decode at h
  simp only [latchedInstr, latchOf]
  split at h
  · cases h
  · rename_i j hj
    split at h
    · cases h
    · rw [hj]; cases h; rfl

/-! ## Acceptance -/

/-- The five outcomes of the acceptance procedure (43_control.md R221). -/
theorem acceptCommand_cases (c : Word) (s : State) :
    (s.eng = .init ∧ acceptCommand c s = raiseCmdError .notReady c s) ∨
    (s.eng = .busy ∧ acceptCommand c s = raiseCmdError .busy c s) ∨
    (s.eng = .idle ∧ decode c = .illegal ∧ acceptCommand c s = raiseCmdError .illegalOpcode c s) ∨
    (s.eng = .idle ∧ decode c = .reserved ∧ acceptCommand c s = raiseCmdError .reservedField c s) ∨
    (s.eng = .idle ∧ (∃ i, decode c = .cmd i) ∧ acceptCommand c s = startCommand c s) := by
  unfold acceptCommand
  cases s.eng
  · simp
  · cases h : decode c <;> simp
  · simp

/-! ## Register writes -/

/-- The six effects of a write that the port does not refuse: nothing, or one of the five writable places
(20_memory.md R93). -/
theorem writeData_cases (a : Addr) (v : Word) (s : State) :
    writeData a v s = s ∨
    writeData a v s = writeStatus v s ∨
    writeData a v s = { s with ctrl := v &&& ctrlMask } ∨
    writeData a v s = acceptCommand v s ∨
    (∃ x, writeData a v s = { s with mapIn := x }) ∨
    (regionOf a = .winbuf ∧
      writeData a v s = { s with winbuf := s.winbuf.writeWord (bufferOffset a) v }) := by
  unfold writeData
  cases h : regionOf a with
  | regs =>
    unfold writeReg
    cases regAt a.toNat <;>
      first
        | exact .inl rfl
        | exact .inr (.inl rfl)
        | exact .inr (.inr (.inl rfl))
        | exact .inr (.inr (.inr (.inl rfl)))
        | exact .inr (.inr (.inr (.inr (.inl ⟨_, rfl⟩))))
  | winbuf => simp
  | tonebuf => simp
  | unmapped => simp

/-- An aligned buffer address has room for a word. -/
theorem bufferOffset_room {a : Addr} (h : a.toNat % 4 = 0) : bufferOffset a + 4 ≤ bufferBytes := by
  simp only [bufferOffset, bufferBytes]
  omega

/-! ## Transactions -/

/-- Which system addresses reach the block (20_memory.md R81). -/
theorem selects_iff (P : Params) (A : Nat) :
    selects P A = true ↔ ∃ b ∈ P.BASE_ADDR :: P.ALIASES, b ≤ A ∧ A < b + blockBytes := by
  simp only [selects, List.any_eq_true, Bool.and_eq_true, decide_eq_true_eq]

/-- The port's address is the low 18 bits of a system address that reaches it (20_memory.md R81). -/
theorem portAddr_eq_some {P : Params} {A : Nat} {a : Addr} :
    portAddr P A = some a ↔ selects P A = true ∧ a = BitVec.ofNat 18 A := by
  unfold portAddr
  split
  · rename_i h; rw [Option.some.injEq, eq_comm]; exact ⟨fun e => ⟨h, e⟩, And.right⟩
  · rename_i h; exact ⟨fun e => absurd e (by simp), fun e => absurd e.1 h⟩

/-- What one transaction can do: a refusal, a read, or one effect of `writeData_cases`. -/
theorem transact_cases (P : Params) (t : Transaction) (s : State) :
    ((refusal t s).isSome ∧ transact P t s = (raiseBusError s, { resp := .slverr, data := 0 })) ∨
    (∃ a size, t = .read a size ∧ refusal t s = none ∧
      transact P t s = (s, { resp := .okay, data := readData P a s })) ∨
    (∃ a size strobe v, t = .write a size strobe v ∧ refusal t s = none ∧
      transact P t s = (writeData a v s, { resp := .okay, data := 0 })) := by
  unfold transact
  cases h : refusal t s with
  | some e => simp
  | none => cases t <;> simp

/-- A transaction that is not refused is a whole, aligned word. -/
theorem aligned_of_refusal {t : Transaction} {s : State} (h : refusal t s = none) : t.addr.toNat % 4 = 0 := by
  unfold refusal at h
  split at h
  · cases h
  · split at h
    · cases h
    · omega

/-- A transaction on WINBUF that is not refused finds the engine idle (20_memory.md R95). -/
theorem idle_of_refusal {t : Transaction} {s : State} (h : refusal t s = none)
    (hr : regionOf t.addr = .winbuf) : s.eng = .idle := by
  unfold refusal at h
  split at h
  · cases h
  · split at h
    · cases h
    · rw [hr] at h
      simp only at h
      split at h
      · cases h
      · rename_i hb
        simpa [State.busy] using hb

/-- What one transaction can do to the block, all effects in one list. -/
theorem transact_effect (P : Params) (t : Transaction) (s : State) :
    (transact P t s).1 = raiseBusError s ∨
    (transact P t s).1 = s ∨
    (∃ v, (transact P t s).1 = writeStatus v s) ∨
    (∃ v, (transact P t s).1 = { s with ctrl := v &&& ctrlMask }) ∨
    (∃ v, (transact P t s).1 = acceptCommand v s) ∨
    (∃ x, (transact P t s).1 = { s with mapIn := x }) ∨
    (∃ o v, s.eng = .idle ∧ o + 4 ≤ bufferBytes ∧
      (transact P t s).1 = { s with winbuf := s.winbuf.writeWord o v }) := by
  rcases transact_cases P t s with ⟨-, e⟩ | ⟨a, size, -, -, e⟩ | ⟨a, size, strobe, v, rfl, hr, e⟩
  · exact .inl (by rw [e])
  · exact .inr (.inl (by rw [e]))
  · rw [e]
    rcases writeData_cases a v s with e | e | e | e | ⟨x, e⟩ | ⟨hw, e⟩
    · exact .inr (.inl e)
    · exact .inr (.inr (.inl ⟨v, e⟩))
    · exact .inr (.inr (.inr (.inl ⟨v, e⟩)))
    · exact .inr (.inr (.inr (.inr (.inl ⟨v, e⟩))))
    · exact .inr (.inr (.inr (.inr (.inr (.inl ⟨x, e⟩)))))
    · exact .inr (.inr (.inr (.inr (.inr (.inr
        ⟨_, v, idle_of_refusal hr hw, bufferOffset_room (aligned_of_refusal hr), e⟩)))))

/-- Only its own offset selects a register that a write changes (10_state.md R34). -/
theorem regAt_writable {off : Nat} :
    (regAt off = .status → off = 0x004) ∧ (regAt off = .ctrl → off = 0x008) ∧ (regAt off = .cmd → off = 0x00C) ∧
      (regAt off = .mapInLo → off = 0x018) ∧ (regAt off = .mapInHi → off = 0x01C) := by
  refine ⟨?_, ?_, ?_, ?_, ?_⟩ <;> intro h <;> unfold regAt at h <;> split at h <;> first | rfl | cases h

/-- A write that the port does not refuse is a whole word. -/
theorem word_of_refusal {a : Addr} {size : Nat} {strobe : BitVec 4} {v : Word} {s : State}
    (h : refusal (.write a size strobe v) s = none) : size = 4 ∧ strobe = 0xF := by
  unfold refusal at h
  split at h
  · cases h
  · rename_i hb
    simpa [Transaction.badWidth] using hb

/-- What one transaction can do to the block, with the transaction that does it. -/
theorem transact_source (P : Params) (t : Transaction) (s : State) :
    ((transact P t s).2.resp = .slverr ∧ (transact P t s).1 = raiseBusError s) ∨
    (transact P t s).1 = s ∨
    (∃ v, t = .write 0x00004 4 0xF v ∧ (transact P t s).1 = writeStatus v s) ∨
    (∃ v, t = .write 0x00008 4 0xF v ∧ (transact P t s).1 = { s with ctrl := v &&& ctrlMask }) ∨
    (∃ v, t = .write 0x0000C 4 0xF v ∧ (transact P t s).1 = acceptCommand v s) ∨
    (∃ v, t = .write 0x00018 4 0xF v ∧ (transact P t s).1 = { s with mapIn := withLo s.mapIn v }) ∨
    (∃ v, t = .write 0x0001C 4 0xF v ∧ (transact P t s).1 = { s with mapIn := withHi s.mapIn v }) ∨
    (∃ o v, s.eng = .idle ∧ o + 4 ≤ bufferBytes ∧
      (transact P t s).1 = { s with winbuf := s.winbuf.writeWord o v }) := by
  rcases transact_cases P t s with ⟨-, e⟩ | ⟨a, size, -, -, e⟩ | ⟨a, size, strobe, v, rfl, hr, e⟩
  · exact .inl (by rw [e]; exact ⟨rfl, rfl⟩)
  · exact .inr (.inl (by rw [e]))
  · refine .inr ?_
    rw [e]
    obtain ⟨rfl, rfl⟩ := word_of_refusal hr
    have at_ : ∀ {n : Nat} {b : Addr}, a.toNat = n → b.toNat = n → a = b := fun h h' =>
      BitVec.eq_of_toNat_eq (h.trans h'.symm)
    unfold writeData
    cases h : regionOf a with
    | regs =>
      obtain ⟨h1, h2, h3, h4, h5⟩ := regAt_writable (off := a.toNat)
      unfold writeReg
      cases hreg : regAt a.toNat with
      | status => exact .inr (.inl ⟨v, by rw [at_ (h1 hreg) (b := 0x00004) rfl], rfl⟩)
      | ctrl => exact .inr (.inr (.inl ⟨v, by rw [at_ (h2 hreg) (b := 0x00008) rfl], rfl⟩))
      | cmd => exact .inr (.inr (.inr (.inl ⟨v, by rw [at_ (h3 hreg) (b := 0x0000C) rfl], rfl⟩)))
      | mapInLo => exact .inr (.inr (.inr (.inr (.inl ⟨v, by rw [at_ (h4 hreg) (b := 0x00018) rfl], rfl⟩))))
      | mapInHi => exact .inr (.inr (.inr (.inr (.inr (.inl ⟨v, by rw [at_ (h5 hreg) (b := 0x0001C) rfl], rfl⟩)))))
      | _ => exact .inl rfl
    | winbuf =>
      exact .inr (.inr (.inr (.inr (.inr (.inr
        ⟨_, v, idle_of_refusal hr h, bufferOffset_room (aligned_of_refusal hr), rfl⟩)))))
    | tonebuf => exact .inl rfl
    | unmapped => exact .inl rfl

end Sys2Proof.Machine
end

