-- ==== Sys2Proof/Laws/PerInstr.lean ====
section
/-! SUPPORT. What holds of every command as syntax, one lemma per command: its word matches its row of the opcode
table and has no reserved bit set (30_encoding.md R116, R117). -/

namespace Sys2Proof.Laws

namespace EncodesItsRow

/-- The encoded word matches the command's row, and none of its reserved bits is 1. -/
def Statement (i : Instr) : Prop :=
  encode i &&& i.maskWord = i.matchWord ∧ encode i &&& reservedMask (opcodeOf (encode i)) = 0

theorem nop : Statement .nop := by unfold Statement; decide

theorem synth (d : Depth) (s : Slot) (i : Nibble) : Statement (.synth d s i) := by
  unfold Statement; revert d s i; decide +kernel

theorem detect (d : Depth) (s : Slot) : Statement (.detect d s) := by
  unfold Statement; revert d s; decide +kernel

theorem map : Statement .map := by unfold Statement; decide

theorem sreset : Statement .sreset := by unfold Statement; decide

end EncodesItsRow

end Sys2Proof.Laws
end

