-- ==== Sys2Proof/Laws/State.lean ====
section
/-! SUPPORT. One lemma per field per named update of the state: what the update leaves in that field. -/

namespace Sys2Proof.Machine

@[simp] theorem raiseCmdError_eng (e : CmdErr) (c : Word) (s : State) : (raiseCmdError e c s).eng = s.eng := by
  unfold raiseCmdError; split <;> simp_all
@[simp] theorem raiseCmdError_latch (e : CmdErr) (c : Word) (s : State) : (raiseCmdError e c s).latch = s.latch := by
  unfold raiseCmdError; split <;> simp_all
@[simp] theorem raiseCmdError_ctrl (e : CmdErr) (c : Word) (s : State) : (raiseCmdError e c s).ctrl = s.ctrl := by
  unfold raiseCmdError; split <;> simp_all
@[simp] theorem raiseCmdError_errinfo (e : CmdErr) (c : Word) (s : State) : (raiseCmdError e c s).errinfo =
    (if s.err then errinfoOverflow s.errinfo else errinfoFirst s.errinfo e.code) := by
  unfold raiseCmdError; split <;> simp_all
@[simp] theorem raiseCmdError_errCmd (e : CmdErr) (c : Word) (s : State) : (raiseCmdError e c s).errCmd =
    (if s.err then s.errCmd else c) := by
  unfold raiseCmdError; split <;> simp_all
@[simp] theorem raiseCmdError_done (e : CmdErr) (c : Word) (s : State) : (raiseCmdError e c s).done = s.done := by
  unfold raiseCmdError; split <;> simp_all
@[simp] theorem raiseCmdError_err (e : CmdErr) (c : Word) (s : State) : (raiseCmdError e c s).err = true := by
  unfold raiseCmdError; split <;> simp_all
@[simp] theorem raiseCmdError_peak (e : CmdErr) (c : Word) (s : State) : (raiseCmdError e c s).peak = s.peak := by
  unfold raiseCmdError; split <;> simp_all
@[simp] theorem raiseCmdError_nibv (e : CmdErr) (c : Word) (s : State) : (raiseCmdError e c s).nibv = s.nibv := by
  unfold raiseCmdError; split <;> simp_all
@[simp] theorem raiseCmdError_berr (e : CmdErr) (c : Word) (s : State) : (raiseCmdError e c s).berr = s.berr := by
  unfold raiseCmdError; split <;> simp_all
@[simp] theorem raiseCmdError_mapIn (e : CmdErr) (c : Word) (s : State) : (raiseCmdError e c s).mapIn = s.mapIn := by
  unfold raiseCmdError; split <;> simp_all
@[simp] theorem raiseCmdError_resPeak (e : CmdErr) (c : Word) (s : State) : (raiseCmdError e c s).resPeak =
    s.resPeak := by
  unfold raiseCmdError; split <;> simp_all
@[simp] theorem raiseCmdError_resNibble (e : CmdErr) (c : Word) (s : State) : (raiseCmdError e c s).resNibble =
    s.resNibble := by
  unfold raiseCmdError; split <;> simp_all
@[simp] theorem raiseCmdError_resCorr (e : CmdErr) (c : Word) (s : State) : (raiseCmdError e c s).resCorr =
    s.resCorr := by
  unfold raiseCmdError; split <;> simp_all
@[simp] theorem raiseCmdError_resFreq (e : CmdErr) (c : Word) (s : State) : (raiseCmdError e c s).resFreq =
    s.resFreq := by
  unfold raiseCmdError; split <;> simp_all
@[simp] theorem raiseCmdError_winbuf (e : CmdErr) (c : Word) (s : State) : (raiseCmdError e c s).winbuf =
    s.winbuf := by
  unfold raiseCmdError; split <;> simp_all
@[simp] theorem raiseCmdError_tonebuf (e : CmdErr) (c : Word) (s : State) : (raiseCmdError e c s).tonebuf =
    s.tonebuf := by
  unfold raiseCmdError; split <;> simp_all
@[simp] theorem raiseCmdError_host (e : CmdErr) (c : Word) (s : State) : (raiseCmdError e c s).host = s.host := by
  unfold raiseCmdError; split <;> simp_all
@[simp] theorem raiseCmdError_sched (e : CmdErr) (c : Word) (s : State) : (raiseCmdError e c s).sched = s.sched := by
  unfold raiseCmdError; split <;> simp_all

@[simp] theorem raiseBusError_eng (s : State) : (raiseBusError s).eng = s.eng := rfl
@[simp] theorem raiseBusError_latch (s : State) : (raiseBusError s).latch = s.latch := rfl
@[simp] theorem raiseBusError_ctrl (s : State) : (raiseBusError s).ctrl = s.ctrl := rfl
@[simp] theorem raiseBusError_errinfo (s : State) : (raiseBusError s).errinfo = s.errinfo := rfl
@[simp] theorem raiseBusError_errCmd (s : State) : (raiseBusError s).errCmd = s.errCmd := rfl
@[simp] theorem raiseBusError_done (s : State) : (raiseBusError s).done = s.done := rfl
@[simp] theorem raiseBusError_err (s : State) : (raiseBusError s).err = s.err := rfl
@[simp] theorem raiseBusError_peak (s : State) : (raiseBusError s).peak = s.peak := rfl
@[simp] theorem raiseBusError_nibv (s : State) : (raiseBusError s).nibv = s.nibv := rfl
@[simp] theorem raiseBusError_berr (s : State) : (raiseBusError s).berr = true := rfl
@[simp] theorem raiseBusError_mapIn (s : State) : (raiseBusError s).mapIn = s.mapIn := rfl
@[simp] theorem raiseBusError_resPeak (s : State) : (raiseBusError s).resPeak = s.resPeak := rfl
@[simp] theorem raiseBusError_resNibble (s : State) : (raiseBusError s).resNibble = s.resNibble := rfl
@[simp] theorem raiseBusError_resCorr (s : State) : (raiseBusError s).resCorr = s.resCorr := rfl
@[simp] theorem raiseBusError_resFreq (s : State) : (raiseBusError s).resFreq = s.resFreq := rfl
@[simp] theorem raiseBusError_winbuf (s : State) : (raiseBusError s).winbuf = s.winbuf := rfl
@[simp] theorem raiseBusError_tonebuf (s : State) : (raiseBusError s).tonebuf = s.tonebuf := rfl
@[simp] theorem raiseBusError_host (s : State) : (raiseBusError s).host = s.host := rfl
@[simp] theorem raiseBusError_sched (s : State) : (raiseBusError s).sched = s.sched := rfl

@[simp] theorem writeStatus_eng (v : Word) (s : State) : (writeStatus v s).eng = s.eng := rfl
@[simp] theorem writeStatus_latch (v : Word) (s : State) : (writeStatus v s).latch = s.latch := rfl
@[simp] theorem writeStatus_ctrl (v : Word) (s : State) : (writeStatus v s).ctrl = s.ctrl := rfl
@[simp] theorem writeStatus_errinfo (v : Word) (s : State) : (writeStatus v s).errinfo =
    (if v.getLsbD 3 then 0 else s.errinfo) := rfl
@[simp] theorem writeStatus_errCmd (v : Word) (s : State) : (writeStatus v s).errCmd =
    (if v.getLsbD 3 then 0 else s.errCmd) := rfl
@[simp] theorem writeStatus_done (v : Word) (s : State) : (writeStatus v s).done = (s.done && !v.getLsbD 2) := rfl
@[simp] theorem writeStatus_err (v : Word) (s : State) : (writeStatus v s).err = (s.err && !v.getLsbD 3) := rfl
@[simp] theorem writeStatus_peak (v : Word) (s : State) : (writeStatus v s).peak = s.peak := rfl
@[simp] theorem writeStatus_nibv (v : Word) (s : State) : (writeStatus v s).nibv = s.nibv := rfl
@[simp] theorem writeStatus_berr (v : Word) (s : State) : (writeStatus v s).berr = (s.berr && !v.getLsbD 6) := rfl
@[simp] theorem writeStatus_mapIn (v : Word) (s : State) : (writeStatus v s).mapIn = s.mapIn := rfl
@[simp] theorem writeStatus_resPeak (v : Word) (s : State) : (writeStatus v s).resPeak = s.resPeak := rfl
@[simp] theorem writeStatus_resNibble (v : Word) (s : State) : (writeStatus v s).resNibble = s.resNibble := rfl
@[simp] theorem writeStatus_resCorr (v : Word) (s : State) : (writeStatus v s).resCorr = s.resCorr := rfl
@[simp] theorem writeStatus_resFreq (v : Word) (s : State) : (writeStatus v s).resFreq = s.resFreq := rfl
@[simp] theorem writeStatus_winbuf (v : Word) (s : State) : (writeStatus v s).winbuf = s.winbuf := rfl
@[simp] theorem writeStatus_tonebuf (v : Word) (s : State) : (writeStatus v s).tonebuf = s.tonebuf := rfl
@[simp] theorem writeStatus_host (v : Word) (s : State) : (writeStatus v s).host = s.host := rfl
@[simp] theorem writeStatus_sched (v : Word) (s : State) : (writeStatus v s).sched = s.sched := rfl

@[simp] theorem startCommand_eng (c : Word) (s : State) : (startCommand c s).eng = .busy := rfl
@[simp] theorem startCommand_latch (c : Word) (s : State) : (startCommand c s).latch = (latchOf c s) := rfl
@[simp] theorem startCommand_ctrl (c : Word) (s : State) : (startCommand c s).ctrl = s.ctrl := rfl
@[simp] theorem startCommand_errinfo (c : Word) (s : State) : (startCommand c s).errinfo = s.errinfo := rfl
@[simp] theorem startCommand_errCmd (c : Word) (s : State) : (startCommand c s).errCmd = s.errCmd := rfl
@[simp] theorem startCommand_done (c : Word) (s : State) : (startCommand c s).done = s.done := rfl
@[simp] theorem startCommand_err (c : Word) (s : State) : (startCommand c s).err = s.err := rfl
@[simp] theorem startCommand_peak (c : Word) (s : State) : (startCommand c s).peak = s.peak := rfl
@[simp] theorem startCommand_nibv (c : Word) (s : State) : (startCommand c s).nibv = s.nibv := rfl
@[simp] theorem startCommand_berr (c : Word) (s : State) : (startCommand c s).berr = s.berr := rfl
@[simp] theorem startCommand_mapIn (c : Word) (s : State) : (startCommand c s).mapIn = s.mapIn := rfl
@[simp] theorem startCommand_resPeak (c : Word) (s : State) : (startCommand c s).resPeak = s.resPeak := rfl
@[simp] theorem startCommand_resNibble (c : Word) (s : State) : (startCommand c s).resNibble = s.resNibble := rfl
@[simp] theorem startCommand_resCorr (c : Word) (s : State) : (startCommand c s).resCorr = s.resCorr := rfl
@[simp] theorem startCommand_resFreq (c : Word) (s : State) : (startCommand c s).resFreq = s.resFreq := rfl
@[simp] theorem startCommand_winbuf (c : Word) (s : State) : (startCommand c s).winbuf = s.winbuf := rfl
@[simp] theorem startCommand_tonebuf (c : Word) (s : State) : (startCommand c s).tonebuf = s.tonebuf := rfl
@[simp] theorem startCommand_host (c : Word) (s : State) : (startCommand c s).host = s.host := rfl
@[simp] theorem startCommand_sched (c : Word) (s : State) : (startCommand c s).sched = s.sched := rfl

@[simp] theorem commitMap_eng (r : Bool × Nibble) (s : State) : (commitMap r s).eng = s.eng := rfl
@[simp] theorem commitMap_latch (r : Bool × Nibble) (s : State) : (commitMap r s).latch = s.latch := rfl
@[simp] theorem commitMap_ctrl (r : Bool × Nibble) (s : State) : (commitMap r s).ctrl = s.ctrl := rfl
@[simp] theorem commitMap_errinfo (r : Bool × Nibble) (s : State) : (commitMap r s).errinfo = s.errinfo := rfl
@[simp] theorem commitMap_errCmd (r : Bool × Nibble) (s : State) : (commitMap r s).errCmd = s.errCmd := rfl
@[simp] theorem commitMap_done (r : Bool × Nibble) (s : State) : (commitMap r s).done = true := rfl
@[simp] theorem commitMap_err (r : Bool × Nibble) (s : State) : (commitMap r s).err = s.err := rfl
@[simp] theorem commitMap_peak (r : Bool × Nibble) (s : State) : (commitMap r s).peak = s.peak := rfl
@[simp] theorem commitMap_nibv (r : Bool × Nibble) (s : State) : (commitMap r s).nibv = r.1 := rfl
@[simp] theorem commitMap_berr (r : Bool × Nibble) (s : State) : (commitMap r s).berr = s.berr := rfl
@[simp] theorem commitMap_mapIn (r : Bool × Nibble) (s : State) : (commitMap r s).mapIn = s.mapIn := rfl
@[simp] theorem commitMap_resPeak (r : Bool × Nibble) (s : State) : (commitMap r s).resPeak = s.resPeak := rfl
@[simp] theorem commitMap_resNibble (r : Bool × Nibble) (s : State) : (commitMap r s).resNibble = r.2 := rfl
@[simp] theorem commitMap_resCorr (r : Bool × Nibble) (s : State) : (commitMap r s).resCorr = s.resCorr := rfl
@[simp] theorem commitMap_resFreq (r : Bool × Nibble) (s : State) : (commitMap r s).resFreq = s.resFreq := rfl
@[simp] theorem commitMap_winbuf (r : Bool × Nibble) (s : State) : (commitMap r s).winbuf = s.winbuf := rfl
@[simp] theorem commitMap_tonebuf (r : Bool × Nibble) (s : State) : (commitMap r s).tonebuf = s.tonebuf := rfl
@[simp] theorem commitMap_host (r : Bool × Nibble) (s : State) : (commitMap r s).host = s.host := rfl
@[simp] theorem commitMap_sched (r : Bool × Nibble) (s : State) : (commitMap r s).sched = s.sched := rfl

@[simp] theorem commitSynth_eng (P : Params) (d : Depth) (sl : Slot) (i : Nibble) (s : State) : (commitSynth P d sl i s).eng =
    s.eng := rfl
@[simp] theorem commitSynth_latch (P : Params) (d : Depth) (sl : Slot) (i : Nibble) (s : State) : (commitSynth P d sl i s).latch =
    s.latch := rfl
@[simp] theorem commitSynth_ctrl (P : Params) (d : Depth) (sl : Slot) (i : Nibble) (s : State) : (commitSynth P d sl i s).ctrl =
    s.ctrl := rfl
@[simp] theorem commitSynth_errinfo (P : Params) (d : Depth) (sl : Slot) (i : Nibble) (s : State) : (commitSynth P d sl i s).errinfo =
    s.errinfo := rfl
@[simp] theorem commitSynth_errCmd (P : Params) (d : Depth) (sl : Slot) (i : Nibble) (s : State) : (commitSynth P d sl i s).errCmd =
    s.errCmd := rfl
@[simp] theorem commitSynth_done (P : Params) (d : Depth) (sl : Slot) (i : Nibble) (s : State) : (commitSynth P d sl i s).done =
    true := rfl
@[simp] theorem commitSynth_err (P : Params) (d : Depth) (sl : Slot) (i : Nibble) (s : State) : (commitSynth P d sl i s).err =
    s.err := rfl
@[simp] theorem commitSynth_peak (P : Params) (d : Depth) (sl : Slot) (i : Nibble) (s : State) : (commitSynth P d sl i s).peak =
    s.peak := rfl
@[simp] theorem commitSynth_nibv (P : Params) (d : Depth) (sl : Slot) (i : Nibble) (s : State) : (commitSynth P d sl i s).nibv =
    s.nibv := rfl
@[simp] theorem commitSynth_berr (P : Params) (d : Depth) (sl : Slot) (i : Nibble) (s : State) : (commitSynth P d sl i s).berr =
    s.berr := rfl
@[simp] theorem commitSynth_mapIn (P : Params) (d : Depth) (sl : Slot) (i : Nibble) (s : State) : (commitSynth P d sl i s).mapIn =
    s.mapIn := rfl
@[simp] theorem commitSynth_resPeak (P : Params) (d : Depth) (sl : Slot) (i : Nibble) (s : State) : (commitSynth P d sl i s).resPeak =
    s.resPeak := rfl
@[simp] theorem commitSynth_resNibble (P : Params) (d : Depth) (sl : Slot) (i : Nibble) (s : State) : (commitSynth P d sl i s).resNibble =
    s.resNibble := rfl
@[simp] theorem commitSynth_resCorr (P : Params) (d : Depth) (sl : Slot) (i : Nibble) (s : State) : (commitSynth P d sl i s).resCorr =
    s.resCorr := rfl
@[simp] theorem commitSynth_resFreq (P : Params) (d : Depth) (sl : Slot) (i : Nibble) (s : State) : (commitSynth P d sl i s).resFreq =
    s.resFreq := rfl
@[simp] theorem commitSynth_winbuf (P : Params) (d : Depth) (sl : Slot) (i : Nibble) (s : State) : (commitSynth P d sl i s).winbuf =
    s.winbuf := rfl
@[simp] theorem commitSynth_tonebuf (P : Params) (d : Depth) (sl : Slot) (i : Nibble) (s : State) : (commitSynth P d sl i s).tonebuf =
    (s.tonebuf.writeBlock (toneSlotBase P sl d) (romEntry P d i)) := rfl
@[simp] theorem commitSynth_host (P : Params) (d : Depth) (sl : Slot) (i : Nibble) (s : State) : (commitSynth P d sl i s).host =
    s.host := rfl
@[simp] theorem commitSynth_sched (P : Params) (d : Depth) (sl : Slot) (i : Nibble) (s : State) : (commitSynth P d sl i s).sched =
    s.sched := rfl

@[simp] theorem commitDetect_eng (r : Detection) (s : State) : (commitDetect r s).eng = s.eng := rfl
@[simp] theorem commitDetect_latch (r : Detection) (s : State) : (commitDetect r s).latch = s.latch := rfl
@[simp] theorem commitDetect_ctrl (r : Detection) (s : State) : (commitDetect r s).ctrl = s.ctrl := rfl
@[simp] theorem commitDetect_errinfo (r : Detection) (s : State) : (commitDetect r s).errinfo = s.errinfo := rfl
@[simp] theorem commitDetect_errCmd (r : Detection) (s : State) : (commitDetect r s).errCmd = s.errCmd := rfl
@[simp] theorem commitDetect_done (r : Detection) (s : State) : (commitDetect r s).done = true := rfl
@[simp] theorem commitDetect_err (r : Detection) (s : State) : (commitDetect r s).err = s.err := rfl
@[simp] theorem commitDetect_peak (r : Detection) (s : State) : (commitDetect r s).peak = r.found := rfl
@[simp] theorem commitDetect_nibv (r : Detection) (s : State) : (commitDetect r s).nibv = r.nibv := rfl
@[simp] theorem commitDetect_berr (r : Detection) (s : State) : (commitDetect r s).berr = s.berr := rfl
@[simp] theorem commitDetect_mapIn (r : Detection) (s : State) : (commitDetect r s).mapIn = s.mapIn := rfl
@[simp] theorem commitDetect_resPeak (r : Detection) (s : State) : (commitDetect r s).resPeak =
    (BitVec.ofNat 32 r.peak) := rfl
@[simp] theorem commitDetect_resNibble (r : Detection) (s : State) : (commitDetect r s).resNibble = r.nib := rfl
@[simp] theorem commitDetect_resCorr (r : Detection) (s : State) : (commitDetect r s).resCorr = r.corr := rfl
@[simp] theorem commitDetect_resFreq (r : Detection) (s : State) : (commitDetect r s).resFreq = r.freq := rfl
@[simp] theorem commitDetect_winbuf (r : Detection) (s : State) : (commitDetect r s).winbuf = s.winbuf := rfl
@[simp] theorem commitDetect_tonebuf (r : Detection) (s : State) : (commitDetect r s).tonebuf = s.tonebuf := rfl
@[simp] theorem commitDetect_host (r : Detection) (s : State) : (commitDetect r s).host = s.host := rfl
@[simp] theorem commitDetect_sched (r : Detection) (s : State) : (commitDetect r s).sched = s.sched := rfl

@[simp] theorem initDone_eng (s : State) : (initDone s).eng = .idle := rfl
@[simp] theorem initDone_latch (s : State) : (initDone s).latch = s.latch := rfl
@[simp] theorem initDone_ctrl (s : State) : (initDone s).ctrl = s.ctrl := rfl
@[simp] theorem initDone_errinfo (s : State) : (initDone s).errinfo = s.errinfo := rfl
@[simp] theorem initDone_errCmd (s : State) : (initDone s).errCmd = s.errCmd := rfl
@[simp] theorem initDone_done (s : State) : (initDone s).done = s.done := rfl
@[simp] theorem initDone_err (s : State) : (initDone s).err = s.err := rfl
@[simp] theorem initDone_peak (s : State) : (initDone s).peak = s.peak := rfl
@[simp] theorem initDone_nibv (s : State) : (initDone s).nibv = s.nibv := rfl
@[simp] theorem initDone_berr (s : State) : (initDone s).berr = s.berr := rfl
@[simp] theorem initDone_mapIn (s : State) : (initDone s).mapIn = s.mapIn := rfl
@[simp] theorem initDone_resPeak (s : State) : (initDone s).resPeak = s.resPeak := rfl
@[simp] theorem initDone_resNibble (s : State) : (initDone s).resNibble = s.resNibble := rfl
@[simp] theorem initDone_resCorr (s : State) : (initDone s).resCorr = s.resCorr := rfl
@[simp] theorem initDone_resFreq (s : State) : (initDone s).resFreq = s.resFreq := rfl
@[simp] theorem initDone_winbuf (s : State) : (initDone s).winbuf = [] := rfl
@[simp] theorem initDone_tonebuf (s : State) : (initDone s).tonebuf = [] := rfl
@[simp] theorem initDone_host (s : State) : (initDone s).host = s.host := rfl
@[simp] theorem initDone_sched (s : State) : (initDone s).sched = s.sched := rfl

@[simp] theorem finishCommand_eng (s : State) : (finishCommand s).eng = .idle := rfl
@[simp] theorem finishCommand_latch (s : State) : (finishCommand s).latch = s.latch := rfl
@[simp] theorem finishCommand_ctrl (s : State) : (finishCommand s).ctrl = s.ctrl := rfl
@[simp] theorem finishCommand_errinfo (s : State) : (finishCommand s).errinfo = s.errinfo := rfl
@[simp] theorem finishCommand_errCmd (s : State) : (finishCommand s).errCmd = s.errCmd := rfl
@[simp] theorem finishCommand_done (s : State) : (finishCommand s).done = s.done := rfl
@[simp] theorem finishCommand_err (s : State) : (finishCommand s).err = s.err := rfl
@[simp] theorem finishCommand_peak (s : State) : (finishCommand s).peak = s.peak := rfl
@[simp] theorem finishCommand_nibv (s : State) : (finishCommand s).nibv = s.nibv := rfl
@[simp] theorem finishCommand_berr (s : State) : (finishCommand s).berr = s.berr := rfl
@[simp] theorem finishCommand_mapIn (s : State) : (finishCommand s).mapIn = s.mapIn := rfl
@[simp] theorem finishCommand_resPeak (s : State) : (finishCommand s).resPeak = s.resPeak := rfl
@[simp] theorem finishCommand_resNibble (s : State) : (finishCommand s).resNibble = s.resNibble := rfl
@[simp] theorem finishCommand_resCorr (s : State) : (finishCommand s).resCorr = s.resCorr := rfl
@[simp] theorem finishCommand_resFreq (s : State) : (finishCommand s).resFreq = s.resFreq := rfl
@[simp] theorem finishCommand_winbuf (s : State) : (finishCommand s).winbuf = s.winbuf := rfl
@[simp] theorem finishCommand_tonebuf (s : State) : (finishCommand s).tonebuf = s.tonebuf := rfl
@[simp] theorem finishCommand_host (s : State) : (finishCommand s).host = s.host := rfl
@[simp] theorem finishCommand_sched (s : State) : (finishCommand s).sched = s.sched := rfl

@[simp] theorem resetBlock_eng (s : State) : (resetBlock s).eng = State.reset.eng := rfl
@[simp] theorem resetBlock_latch (s : State) : (resetBlock s).latch = State.reset.latch := rfl
@[simp] theorem resetBlock_ctrl (s : State) : (resetBlock s).ctrl = State.reset.ctrl := rfl
@[simp] theorem resetBlock_errinfo (s : State) : (resetBlock s).errinfo = State.reset.errinfo := rfl
@[simp] theorem resetBlock_errCmd (s : State) : (resetBlock s).errCmd = State.reset.errCmd := rfl
@[simp] theorem resetBlock_done (s : State) : (resetBlock s).done = State.reset.done := rfl
@[simp] theorem resetBlock_err (s : State) : (resetBlock s).err = State.reset.err := rfl
@[simp] theorem resetBlock_peak (s : State) : (resetBlock s).peak = State.reset.peak := rfl
@[simp] theorem resetBlock_nibv (s : State) : (resetBlock s).nibv = State.reset.nibv := rfl
@[simp] theorem resetBlock_berr (s : State) : (resetBlock s).berr = State.reset.berr := rfl
@[simp] theorem resetBlock_mapIn (s : State) : (resetBlock s).mapIn = State.reset.mapIn := rfl
@[simp] theorem resetBlock_resPeak (s : State) : (resetBlock s).resPeak = State.reset.resPeak := rfl
@[simp] theorem resetBlock_resNibble (s : State) : (resetBlock s).resNibble = State.reset.resNibble := rfl
@[simp] theorem resetBlock_resCorr (s : State) : (resetBlock s).resCorr = State.reset.resCorr := rfl
@[simp] theorem resetBlock_resFreq (s : State) : (resetBlock s).resFreq = State.reset.resFreq := rfl
@[simp] theorem resetBlock_winbuf (s : State) : (resetBlock s).winbuf = State.reset.winbuf := rfl
@[simp] theorem resetBlock_tonebuf (s : State) : (resetBlock s).tonebuf = State.reset.tonebuf := rfl
@[simp] theorem resetBlock_host (s : State) : (resetBlock s).host = s.host := rfl
@[simp] theorem resetBlock_sched (s : State) : (resetBlock s).sched = s.sched := rfl

end Sys2Proof.Machine
end

