-- ==== Sys2Proof/Laws/Step.lean ====
section
/-! SUPPORT. What a completion, a turn and a step can do, said once. -/

namespace Sys2Proof.Machine

/-- Every command has a next state; here are the five. -/
theorem exec_cases (i : Instr) (s : State) :
    (i = .nop ∧ exec i s = .next { s with done := true }) ∨
    (∃ d sl n, i = .synth d sl n ∧ exec i s = .next (commitSynth Config.params d sl n s)) ∨
    (∃ d sl, i = .detect d sl ∧ exec i s = .next (commitDetect
      (detectSpectrum Config.params (Config.mag.fn (windowed Config.params d sl s.winbuf))) s)) ∨
    (i = .map ∧ exec i s = .next (commitMap (mapNibble Config.params s.latch.mapin) s)) ∨
    (i = .sreset ∧ exec i s = execSreset s) := by
  cases i with
  | nop => exact .inl ⟨rfl, rfl⟩
  | synth d sl n => exact .inr (.inl ⟨d, sl, n, rfl, rfl⟩)
  | detect d sl => exact .inr (.inr (.inl ⟨d, sl, rfl, rfl⟩))
  | map => exact .inr (.inr (.inr (.inl ⟨rfl, rfl⟩)))
  | sreset => exact .inr (.inr (.inr (.inr ⟨rfl, rfl⟩)))

/-- On the default instance the effect of a command is `exec`. -/
theorem commandAt_inst (i : Instr) (s : State) : commandAt Config.inst i s = exec i s := by
  cases i <;> rfl

/-- Every command of every instance has a next state; here are the five. -/
theorem commandAt_cases (I : Instance) (i : Instr) (s : State) :
    (i = .nop ∧ commandAt I i s = .next { s with done := true }) ∨
    (∃ d sl n, i = .synth d sl n ∧ commandAt I i s = .next (commitSynth I.params d sl n s)) ∨
    (∃ d sl, i = .detect d sl ∧ commandAt I i s = .next (commitDetect
      (detectSpectrum I.params (I.mag.fn (windowed I.params d sl s.winbuf))) s)) ∨
    (i = .map ∧ commandAt I i s = .next (commitMap (mapNibble I.params s.latch.mapin) s)) ∨
    (i = .sreset ∧ commandAt I i s = execSreset s) := by
  cases i with
  | nop => exact .inl ⟨rfl, rfl⟩
  | synth d sl n => exact .inr (.inl ⟨d, sl, n, rfl, rfl⟩)
  | detect d sl => exact .inr (.inr (.inl ⟨d, sl, rfl, rfl⟩))
  | map => exact .inr (.inr (.inr (.inl ⟨rfl, rfl⟩)))
  | sreset => exact .inr (.inr (.inr (.inr ⟨rfl, rfl⟩)))

/-- A completion that answers a next state ran the latched command. -/
theorem completeAt_next {I : Instance} {s t : State} (h : completeAt I s = .next t) :
    ∃ i u, latchedInstr s.latch = some i ∧ commandAt I i s = .next u ∧ t = finishCommand u := by
  unfold completeAt at h
  split at h
  · cases h
  · rename_i i hi
    split at h
    · rename_i u hu
      cases h
      exact ⟨i, u, hi, hu, rfl⟩
    · cases h
    · cases h

/-- A completion on the default instance that answers a next state ran `exec` of the latched command. -/
theorem complete_next {s t : State} (h : complete s = .next t) :
    ∃ i u, latchedInstr s.latch = some i ∧ exec i s = .next u ∧ t = finishCommand u := by
  obtain ⟨i, u, h1, h2, h3⟩ := completeAt_next h
  exact ⟨i, u, h1, commandAt_inst i s ▸ h2, h3⟩

/-- A completion with a command in LATCH has a next state. -/
theorem completeAt_total (I : Instance) {s : State} {i : Instr} (h : latchedInstr s.latch = some i) :
    ∃ u, commandAt I i s = .next u ∧ completeAt I s = .next (finishCommand u) := by
  have hu : ∃ u, commandAt I i s = .next u := by
    rcases commandAt_cases I i s with ⟨-, e⟩ | ⟨_, _, _, -, e⟩ | ⟨_, _, -, e⟩ | ⟨-, e⟩ | ⟨-, e⟩ <;> exact ⟨_, e⟩
  obtain ⟨u, hu⟩ := hu
  exact ⟨u, hu, by simp only [completeAt, h, hu]⟩

/-- What the turn of an agent that answers a next state did, on any instance. -/
theorem turnAt_next {I : Instance} {g : Agent} {s t : State} (h : turnAt I g s = .next t) :
    (g = .host ∧ t = hostTurn I.params s) ∨
    (g = .engine ∧ s.eng = .init ∧ t = initDone s) ∨
    (g = .engine ∧ s.eng = .idle ∧ t = s) ∨
    (g = .engine ∧ s.eng = .busy ∧ completeAt I s = .next t) ∨
    (g = .reset ∧ t = resetBlock s) := by
  cases g with
  | host => exact .inl ⟨rfl, by cases h; rfl⟩
  | engine =>
    simp only [turnAt, engineTurnAt] at h
    cases he : s.eng <;> rw [he] at h <;> simp only at h
    · exact .inr (.inl ⟨rfl, rfl, by cases h; rfl⟩)
    · exact .inr (.inr (.inl ⟨rfl, rfl, by cases h; rfl⟩))
    · exact .inr (.inr (.inr (.inl ⟨rfl, rfl, h⟩)))
  | reset => exact .inr (.inr (.inr (.inr ⟨rfl, by cases h; rfl⟩)))

/-- What the turn of an agent that answers a next state did. -/
theorem turn_next {g : Agent} {s t : State} (h : turn g s = .next t) :
    (g = .host ∧ t = hostTurn Config.params s) ∨
    (g = .engine ∧ s.eng = .init ∧ t = initDone s) ∨
    (g = .engine ∧ s.eng = .idle ∧ t = s) ∨
    (g = .engine ∧ s.eng = .busy ∧ complete s = .next t) ∨
    (g = .reset ∧ t = resetBlock s) := turnAt_next h

/-- A step of a valid instance is one turn of the agent whose turn it is. -/
theorem stepAt_eq {I : Instance} (h : I.params.wellFormed = true) (s : State) :
    stepAt I s = turnAt I (nextTurn s).1 (nextTurn s).2 := by
  rw [stepAt, if_pos h]

/-- An instance that is not valid takes no step (00_scope.md R6). -/
theorem stepAt_invalid {I : Instance} (h : I.params.wellFormed ≠ true) (s : State) :
    stepAt I s = .refused .invalidInstance := by
  rw [stepAt, if_neg h]

/-- A step is one turn of the agent whose turn it is. -/
theorem step_eq (s : State) : step s = turn (nextTurn s).1 (nextTurn s).2 :=
  stepAt_eq (I := Config.inst) params_wellFormed s

/-- The schedule aside, taking a turn off it changes nothing. -/
theorem nextTurn_state (s : State) : (nextTurn s).2 = { s with sched := s.sched.tail } := by
  unfold nextTurn
  split
  · rename_i h; cases s; simp_all
  · rename_i h; simp [h]

/-- A turn of the host issues its next transaction, and changes only its own bookkeeping besides. -/
theorem hostTurn_transaction (P : Params) (s : State) :
    (nextTransactionAt P s = none ∧ ∃ h, hostTurn P s = { s with host := h }) ∨
      ∃ tr h, nextTransactionAt P s = some tr ∧ hostTurn P s = { (transact P tr s).1 with host := h } := by
  unfold nextTransactionAt hostTurn
  split
  · rename_i h; exact .inl ⟨by rw [h]; rfl, s.host, rfl⟩
  · rename_i op rest h
    rw [h]
    change (op.transaction P s.host = none ∧ _) ∨ ∃ tr h, op.transaction P s.host = some tr ∧ _
    split
    · rename_i ht; exact .inl ⟨ht, _, rfl⟩
    · rename_i t ht; exact .inr ⟨t, _, ht, rfl⟩

/-- A turn of the host: only its own bookkeeping, or one transaction and that. -/
theorem hostTurn_cases (P : Params) (s : State) :
    (∃ h, hostTurn P s = { s with host := h }) ∨ ∃ t h, hostTurn P s = { (transact P t s).1 with host := h } := by
  rcases hostTurn_transaction P s with ⟨-, h⟩ | ⟨t, h, -, e⟩
  · exact .inl h
  · exact .inr ⟨t, h, e⟩

end Sys2Proof.Machine
end

