-- ==== Sys2Proof/Tests/Slice0.lean ====
section
/-! SUPPORT. The model's own tests. Expected values come from spec/95_test_vectors.md and from the rules named; the
last part shows, for each statement that has hypotheses, a concrete case that meets them. -/

namespace Sys2Proof.Tests

open Sys2Proof Sys2Proof.Machine

set_option Elab.async false

/-! ## WellFormed: an ill-formed instance for each check (00_scope.md R5, R6) -/

theorem test_wf_default : Config.params.wellFormed = true := params_wellFormed
theorem test_wf_rate_zero : ({ Config.params with SR := 0 } : Params).wellFormed = false := by decide +kernel
theorem test_wf_rate_high : ({ Config.params with SR := 2 ^ 31 } : Params).wellFormed = false := by decide +kernel
theorem test_wf_length : ({ Config.params with N := 8819 } : Params).wellFormed = false := by decide +kernel
theorem test_wf_odd : ({ Config.params with N := 8821, F := 8821 } : Params).wellFormed = false := by decide +kernel
theorem test_wf_short : ({ Config.params with N := 6, F := 6 } : Params).wellFormed = false := by decide +kernel
theorem test_wf_long : ({ Config.params with N := 16386, F := 16386 } : Params).wellFormed = false := by
  decide +kernel
theorem test_wf_base : ({ Config.params with BASE := 0 } : Params).wellFormed = false := by decide +kernel
theorem test_wf_step : ({ Config.params with STEP := 0 } : Params).wellFormed = false := by decide +kernel
theorem test_wf_tones : ({ Config.params with NT := 8 } : Params).wellFormed = false := by decide +kernel
theorem test_wf_amp8 : ({ Config.params with AMP8 := 128 } : Params).wellFormed = false := by decide +kernel
theorem test_wf_amp16 : ({ Config.params with AMP16 := 32768 } : Params).wellFormed = false := by decide +kernel
theorem test_wf_tol : ({ Config.params with magTolDen := 2 ^ 39 } : Params).wellFormed = false := by decide +kernel
theorem test_wf_synth_slot :
    (Instr.synth 1 1 0).wellFormed { Config.params with N := 16386, F := 16386 } = false := by decide +kernel
theorem test_wf_detect_slot :
    (Instr.detect 1 1).wellFormed { Config.params with N := 16386, F := 16386 } = false := by decide +kernel

/-- An instance that the integrator placed at 0x80000, with an alias at 0x200000. -/
def placed : Params := { Config.params with BASE_ADDR := 0x80000, ALIASES := [0x200000] }

/-! ## Decoding: words written out from 30_encoding.md R111, R125 and R127 -/

theorem test_decode_nop : decode 0b00000000000000000000000000000000 = .cmd .nop := by decide
theorem test_decode_synth : decode 0b00000001000000010000000100001010 = .cmd (.synth 1 1 0xA) := by decide
theorem test_decode_synth_d8 : decode 0b00000001000000000000000000000011 = .cmd (.synth 0 0 3) := by decide
theorem test_decode_detect : decode 0b00000010000000010000000100000000 = .cmd (.detect 1 1) := by decide
theorem test_decode_detect_d8_s1 : decode 0b00000010000000000000000100000000 = .cmd (.detect 0 1) := by decide
theorem test_decode_map : decode 0b00000011000000000000000000000000 = .cmd .map := by decide
theorem test_decode_sreset : decode 0b00000100000000000000000000000000 = .cmd .sreset := by decide
theorem test_decode_reserved : decode 0x03010000 = .reserved ∧ decode 0x04000100 = .reserved := by decide
theorem test_decode_illegal : decode 0x80000000 = .illegal ∧ decode 0xFFFFFFFF = .illegal := by decide
theorem test_encode_synth : encode (.synth 1 1 0xA) = 0x0101010A := by decide
theorem test_table_word : decodeTableWord 32 0x02010100 = some (.detect 1 1) := by decide

/-! ## One step on a small state -/

/-- An idle block after InitDone, nothing scheduled. -/
def idle : State := { State.reset with eng := .idle }

/-- Another valid instance: the smallest window, with the reference magnitude as MAG. -/
def smallInstance : Instance where
  params := { Config.params with SR := 8000, N := 8, F := 8 }
  mag := {
    fn := Magnitude.reference 8
    acc := by
      have h : ((({ Config.params with SR := 8000, N := 8, F := 8 } : Params).magTolNum : ℝ) /
          ({ Config.params with SR := 8000, N := 8, F := 8 } : Params).magTolDen) = 1 / 2 ^ 40 := by
        norm_num [Config.params]
      rw [h]
      exact Magnitude.reference_magAcc 8 }

/-- The same block with a command accepted and MAP_IN holding `x`. -/
def running (c : Word) (x : F64) : State := startCommand c { idle with mapIn := x }

/-- The next state of a step, and the reset state if there is none. -/
def after (s : State) : State :=
  match step s with
  | .next t => t
  | .fault _ => State.reset
  | .refused _ => State.reset

theorem step_running (c : Word) (x : F64) (i : Instr) (t : State) (h : decode c = .cmd i)
    (ht : exec i (running c x) = .next t) : step (running c x) = .next (finishCommand t) := by
  have hl : latchedInstr (running c x).latch = some i := latchedInstr_latchOf h _
  rw [step_eq]
  show completeAt Config.inst (running c x) = _
  obtain ⟨u, hu, e⟩ := completeAt_total Config.inst hl
  rw [commandAt_inst, ht] at hu
  cases hu
  exact e

/-- 43_control.md R229, its example: `nop` with DONE = 0 leaves STATUS 0x00000005. -/
theorem test_nop_status : statusWord (after (running 0x00000000 0)) = 0x00000005 := by decide +kernel
/-- 43_control.md R230: ERR, ERRINFO and ERR_CMD are cleared, MAP_IN is not. -/
theorem test_sreset :
    let t := after { running 0x04000000 7 with err := true, errinfo := 0x101, errCmd := 5, resPeak := 9 }
    (t.err, t.errinfo, t.errCmd, t.resPeak, t.done, t.mapIn) = (false, 0, 0, 0, true, 7) := by decide +kernel
/-- 42_mapping.md R206, its example: MAP_IN = 1012.5 gives nibble 1. -/
theorem test_map_tie : (after (running 0x03000000 0x408FA40000000000)).resNibble = 1 := by decide +kernel
/-- 42_mapping.md R208: 987.5 is invalid. -/
theorem test_map_invalid : (after (running 0x03000000 0x408EDC0000000000)).nibv = false := by decide +kernel
/-- 95_test_vectors.md 2.9: 1387.4999999999998 gives nibble 15. -/
theorem test_map_last : mapNibble Config.params 0x4095ADFFFFFFFFFF = (true, 15) := by decide +kernel
/-- 40_synthesis.md R147, its example: the 8-bit samples 4404 to 4411 of nibble 0. -/
theorem test_rom_8bit : ((List.range 8).map fun k => q8 Config.params 0 (4404 + k)) =
    [32, 44, 59, 75, 92, 109, 128, 146] := by decide +kernel
/-- 95_test_vectors.md P3: the 16-bit samples 4404, 4405, 4410 and 4411 of nibble 5. -/
theorem test_rom_16bit : ([4404, 4405, 4410, 4411].map fun t => q16 Config.params 5 t) =
    [26874, 23538, 0, -5229] := by decide +kernel
/-- 95_test_vectors.md P7: a scan of a falling spectrum finds no peak, and 41_detection.md R171's tie goes to the
lower bin. -/
theorem test_scan : scan [3, 2, 1, 0] = 0 ∧ scan [0, 2, 1, 2, 0] = 1 := by decide +kernel
/-- 95_test_vectors.md 2.5: a symmetric peak gives -0.0 (93_implementation_defined.md I19), and
(1, 2, 0), (0, 2, 1) and (0, 1, 1 - 2^-52) give corrections that tell the two neighbours apart. -/
theorem test_correction :
    correction 0x3FE0000000000000 0x3FF0000000000000 0x3FE0000000000000 = 0x8000000000000000 ∧
      correction 0x3FF0000000000000 0x4000000000000000 0 = 0xBFC5555555555555 ∧
      correction 0 0x4000000000000000 0x3FF0000000000000 = 0x3FC5555555555555 ∧
      correction 0 0x3FF0000000000000 0x3FEFFFFFFFFFFFFE = 0x3FDFFFFFFFFFFFFC := by decide +kernel
/-- 95_test_vectors.md 2.6: bin 200 with the correction -1/6, and bin 275 with 0.25. -/
theorem test_freq :
    freqEstimate Config.params 200 0xBFC5555555555555 = 0x408F395555555555 ∧
      freqEstimate Config.params 275 0x3FD0000000000000 = 0x4095810000000000 := by decide +kernel
/-- 00_scope.md R11: the signs of zero results, as IEEE 754 gives them: -0 + -0, 1 + -1, -0 * 1 and 0 / -1. -/
theorem test_zero_signs :
    F64.add 0x8000000000000000 0x8000000000000000 = 0x8000000000000000 ∧
      F64.add 0x3FF0000000000000 0xBFF0000000000000 = 0 ∧
      F64.mul 0x8000000000000000 0x3FF0000000000000 = 0x8000000000000000 ∧
      F64.div 0 0xBFF0000000000000 = 0x8000000000000000 := by decide +kernel
/-- 95_test_vectors.md 2.11: `wr 0x10000 <- 0x11223344` stores 11 22 33 44. -/
theorem test_winbuf_order :
    (transact Config.params (.write 0x10000 4 0xF 0x11223344) idle).1.winbuf =
      [(0, 0x11), (1, 0x22), (2, 0x33), (3, 0x44)] := by decide +kernel
/-- 20_memory.md R81 and 60_exceptions.md R272: a write at BASE_ADDR + 0x10000, at the same place of an alias, and at a
system address that is not the block's. -/
theorem test_system_address :
    let buf := fun A => (hostTurn placed
      { idle with host := { idle.host with prog := [.sys (.write A 4 0xF 0x11223344)] } }).winbuf
    buf 0x90000 = [(0, 0x11), (1, 0x22), (2, 0x33), (3, 0x44)] ∧
      buf 0x210004 = [(4, 0x11), (5, 0x22), (6, 0x33), (7, 0x44)] ∧ buf 0x10000 = [] := by decide +kernel
/-- 95_test_vectors.md 2.11: TONEBUF refuses a host write. -/
theorem test_tonebuf_write :
    (transact Config.params (.write 0x20000 4 0xF 1) idle).2 = slverr := by decide +kernel
/-- 95_test_vectors.md 2.12: writing 0x4C to STATUS 0x7D leaves 0x31. -/
theorem test_status_w1c :
    statusWord (writeStatus 0x4C { idle with
      done := true, err := true, peak := true, nibv := true, berr := true }) = 0x00000031 := by decide +kernel
/-- 95_test_vectors.md P4, lines 1 to 7: the first error is kept and OVF is set. -/
theorem test_error_overflow :
    let t := transactAll Config.params [cmdWrite 0x05000000, cmdWrite 0x02000005] idle
    (t.errinfo, t.errCmd) = (0x00000101, 0x05000000) := by decide +kernel
/-- 20_memory.md R89, its example: f64 1000.0. -/
theorem test_f64_1000 : F64.ofInt 1000 = 0x408F400000000000 := by decide +kernel
/-- 70_reset_and_hazards.md R329, R330: dropped windows leave no gap, and an odd count fails. -/
theorem test_pairing :
    pairNibbles [3, 0xC] = some [0x3C] ∧ pairNibbles [3] = none ∧ pairNibbles [] = some [] := by decide
/-- 70_reset_and_hazards.md R331 and 93_implementation_defined.md I5: the other depth is refused. -/
theorem test_wrong_depth (mag : List F64 → List F64) :
    decodeStreamOf Config.params mag 1 0 [] = .wrongDepth ∧
      decodeStreamOf Config.params mag 0 0 [] = .payload [] := ⟨rfl, rfl⟩
/-- 70_reset_and_hazards.md R328: the lines for one window, its bytes packed most significant first. -/
theorem test_decode_program :
    hostDetectWindow 1 2 [0x11, 0x22, 0x33, 0x44, 0x55, 0x66] =
      [.wr 0x10000 (.imm 0x11223344), .wr 0x10004 (.imm 0x55660000), .wr 0x00004 (.imm 0x4C),
        .wr 0x0000C (.imm 0x02010000), .poll 0x00004 2 0, .rd 4 0x00004, .rd 5 0x00024] := by decide
/-- 70_reset_and_hazards.md R329: NIBV = 1 keeps the nibble and NIBV = 0 drops it. -/
theorem test_kept_nibbles :
    let h : HostAgent := { idle.host with vars := [(0, 0x35), (1, 3), (2, 0x05), (3, 0), (4, 0x35), (5, 0xC)] }
    hostDecoded h 3 = some [0x3C] ∧ hostDecoded h 2 = none := by decide
/-- 30_encoding.md R126: `setmap x` of a variable writes its two halves. -/
theorem test_setmap :
    hostSetMap (.var 3 4) = [.wr 0x00018 (.var 3), .wr 0x0001C (.var 4)] ∧
      hostSetMap (.imm 0x408F400000000001) = [.wr 0x00018 (.imm 1), .wr 0x0001C (.imm 0x408F4000)] := by decide
/-- 70_reset_and_hazards.md R332. -/
theorem test_hex_digit : hexDigit 9 = '9' ∧ hexDigit 10 = 'a' ∧ hexDigit 15 = 'f' := by decide

/-- Each table row's word, placed by withFetchWord, runs as the first step after reset. -/
theorem test_fetch_nop : (after (State.reset.withFetchWord 32 0x00000000)).done = true := by decide +kernel
theorem test_fetch_map : (after (State.reset.withFetchWord 32 0x03000000)).done = true := by decide +kernel
theorem test_fetch_sreset : (after (State.reset.withFetchWord 32 0x04000000)).done = true := by decide +kernel
theorem test_fetch_synth : (after (State.reset.withFetchWord 32 0x0101010A)).done = true := by decide +kernel
theorem test_fetch_detect : (after (State.reset.withFetchWord 32 0x02010100)).done = true := by decide +kernel
theorem test_fetch_illegal : (after (State.reset.withFetchWord 32 0x05000000)).err = true := by decide +kernel

/-! ## Witnesses: for each statement with hypotheses, a case that meets them all

Each is named after its statement. Where a statement has several clauses over one input, each clause has a case. -/

/-- A busy block running `i`. -/
def busyWith (i : Instr) : State := running (encode i) 0

/-- The host's next two turns of an idle block: write `c` to CMD, then let the engine complete. -/
def aboutToWrite (c : Word) : State :=
  { idle with host := { idle.host with prog := [hostCmd c] }, sched := [.host, .engine] }

theorem toReal_half_units {x : F64} {n : Int} (h : F64.scaled x = n * 2 ^ 1073) : RealSpec.toReal x = n / 2 := by
  rw [RealSpec.toReal, h]
  have h2 : (2 : ℝ) ^ 1073 ≠ 0 := pow_ne_zero _ (by norm_num)
  rw [pow_succ (2 : ℝ) 1073, mul_comm ((2 : ℝ) ^ 1073) 2, Int.cast_mul, Int.cast_pow, Int.cast_ofNat]
  exact mul_div_mul_right _ _ h2

theorem witness_IllegalWordsExactly :
    0x05 ≤ ((0x05000000 : Word).extractLsb' 24 8).toNat ∧ 0x05 ≤ ((0xFFFFFFFF : Word).extractLsb' 24 8).toNat ∧
      idle.eng = .idle := by decide

theorem witness_ReservedWordsExactly :
    ([0x00800000, 0x01000010, 0x02000001, 0x03000001, 0x04FFFFFF].map decode = List.replicate 5 .reserved) ∧
      idle.eng = .idle := by decide +kernel

theorem witness_AcceptanceProcedure : (8 ≠ 4 ∨ (0xF : BitVec 4) ≠ 0xF) ∧ (4 ≠ 4 ∨ (0x7 : BitVec 4) ≠ 0xF) := by
  decide

theorem witness_AcceptChangesOnlyLatchAndEng : idle.eng = .idle ∧ decode 0x0101010A = .cmd (.synth 1 1 10) := by
  decide

theorem witness_CommandErrorEffect : idle.err = false ∧ (raiseCmdError .busy 1 idle).err = true := by decide

theorem witness_FirstErrorIsKept : idle.err = false := rfl

theorem witness_RejectedCommandDoesNothingElse :
    ¬(State.reset.eng = .idle ∧ ∃ i, decode 0 = .cmd i) ∧ ¬(idle.eng = .idle ∧ ∃ i, decode 0x05000000 = .cmd i) := by
  refine ⟨fun h => absurd h.1 (by decide), ?_⟩
  rintro ⟨-, i, h⟩
  have : decode 0x05000000 = .illegal := by decide
  rw [this] at h
  cases h

theorem witness_BusErrorEffect :
    (transact Config.params (.read 0x00002 4) idle).2.resp = .slverr ∧
      (transact Config.params (.read 0x00000 2) idle).2.resp = .slverr ∧
      (transact Config.params (.read 0x0FFFC 4) idle).2.resp = .slverr ∧
      (transact Config.params (.read 0x1FFFC 4) (busyWith .nop)).2.resp = .slverr ∧
      (transact Config.params (.write 0x20000 4 0xF 0) idle).2.resp = .slverr := by decide +kernel

theorem witness_ReadsHaveNoSideEffect :
    (transact Config.params (.read 0x00004 4) idle).2.resp = .okay ∧
      (transact Config.params (.read 0x30000 4) idle).2.resp = .slverr := by decide +kernel

theorem witness_BufferWordsAreBigEndian :
    (0 % 4 = 0 ∧ 0 < 65536) ∧ (65532 % 4 = 0 ∧ 65532 < 65536) ∧ idle.eng = .idle := by decide

theorem witness_ReadOnlyRegistersIgnoreWrites :
    (([0x000, 0x010, 0x034, 0x038, 0x060, 0x064, 0x0FC] : List Addr).all fun a =>
      a.toNat % 4 = 0 && a.toNat < 0x100 && a.toNat != 0x004 && a.toNat != 0x008 && a.toNat != 0x00C &&
        a.toNat != 0x018 && a.toNat != 0x01C) = true := by decide +kernel

theorem witness_ReadOnlyRegistersReadTheirValues :
    Config.params.wellFormed = true ∧
      (([0x038, 0x03C, 0x064, 0x0FC] : List Addr).all fun a =>
        decide (a.toNat % 4 = 0 ∧ (a.toNat = 0x038 ∨ a.toNat = 0x03C ∨ (0x064 ≤ a.toNat ∧ a.toNat ≤ 0x0FC)))) = true :=
  ⟨params_wellFormed, by decide +kernel⟩

/-- The largest instance that R5 allows. -/
theorem witness_SlotsLieInsideTheBuffers :
    ({ Config.params with N := 16384, F := 16384 } : Params).wellFormed = true := by decide +kernel

/-- The instance placed at 0x80000 with an alias at 0x200000, its first and last address, and one before and after. -/
theorem witness_SlotsLieInsideTheBuffers_system :
    placed.BASE_ADDR % 0x40000 = 0 ∧
      (∀ A ∈ [0x7FFFF, 0xC0000], ∀ b ∈ placed.BASE_ADDR :: placed.ALIASES, A < b ∨ b + 0x40000 ≤ A) ∧
      ∀ A ∈ [0x80000, 0xBFFFF, 0x200004], ∃ b ∈ placed.BASE_ADDR :: placed.ALIASES, b ≤ A ∧ A < b + 0x40000 := by
  decide

theorem witness_SynthIsIdempotent :
    (idle.tonebuf.wf = true ∧ exec (.synth 0 0 3) idle = .next (commitSynth Config.params 0 0 3 idle)) ∧
      smallInstance.params.wellFormed = true ∧
      commandAt smallInstance (.synth 1 1 3) idle = .next (commitSynth smallInstance.params 1 1 3 idle) :=
  ⟨⟨rfl, rfl⟩, by decide +kernel, rfl⟩

theorem witness_F64OperationsRoundToNearestEven :
    F64.isFinite 0x7FEFFFFFFFFFFFFF = true ∧ F64.isFinite (1 : F64) = true ∧
      RealSpec.toReal (F64.ofInt 1) ≠ 0 ∧ F64.isFinite (F64.div (F64.ofInt 1) (F64.ofInt 3)) = true ∧
      (2 ^ 53 : Int).natAbs ≤ 2 ^ 53 ∧
      F64.isFinite 0xBFF0000000000000 = true ∧
      RealSpec.toReal (F64.ofInt 1) + RealSpec.toReal 0xBFF0000000000000 = 0 ∧
      RealSpec.toReal (F64.ofInt 1) - RealSpec.toReal (F64.ofInt 1) = 0 := by
  have h1 : RealSpec.toReal (F64.ofInt 1) = (2 : Int) / 2 := toReal_half_units (n := 2) (by decide +kernel)
  have h2 : RealSpec.toReal 0xBFF0000000000000 = (-2 : Int) / 2 := toReal_half_units (n := -2) (by decide +kernel)
  refine ⟨by decide +kernel, by decide +kernel, ?_, by decide +kernel, by decide +kernel, by decide +kernel, ?_,
    sub_self _⟩
  · rw [h1]; norm_num
  · rw [h1, h2]; norm_num

/-- A second valid instance, with a sample that no approximation settles: at `t = 3` of nibble 2 the waveform is exactly
`sin(pi/2) * 3/4`, so `AMP8 * v` is the integer 6. -/
def coarse : Params := { Config.params with N := 10, F := 10, SR := 60, BASE := 1, STEP := 2, AMP8 := 8 }

theorem witness_RomSamplesQuantizeTheWaveform :
    (Config.params.wellFormed = true ∧ 8819 < Config.params.N) ∧ coarse.wellFormed = true ∧ 3 < coarse.N := by
  refine ⟨⟨params_wellFormed, by decide⟩, by decide +kernel, by decide⟩

/-- 40_synthesis.md R143: `floor(6 + 128)`, by the law of `toneFloor`. -/
theorem test_exact_integer_sample : q8 coarse 2 3 = 134 := by
  have hv : RealSpec.waveform (toneFreq coarse 2) coarse.SR coarse.N 3 = 3 / 4 := by
    change RealSpec.waveform 5 60 10 3 = 3 / 4
    have e1 : 2 * Real.pi * (5 : ℕ) * (3 : ℕ) / (60 : ℕ) = Real.pi / 2 := by push_cast; ring
    have e2 : Real.pi * (3 : ℕ) / (((10 : ℕ) : ℝ) - 1) = Real.pi / 3 := by push_cast; ring
    rw [RealSpec.waveform, FixedTrig.hann_eq_sin_sq, e1, e2, Real.sin_pi_div_two, Real.sin_pi_div_three, div_pow,
      Real.sq_sqrt (by norm_num)]
    norm_num
  rw [q8, toneFloor_eq 2 (by decide) (by decide) (by decide) (by norm_num [coarse]), hv, Int.floor_eq_iff]
  norm_num [coarse, Config.params]

theorem witness_RomEntryIsExact :
    (Config.params.wellFormed = true ∧ 8819 < Config.params.N) ∧ coarse.wellFormed = true ∧ 3 < coarse.N :=
  witness_RomSamplesQuantizeTheWaveform

theorem witness_RomExactZeros :
    (Config.params.wellFormed = true ∧ 4410 < Config.params.N) ∧
      Config.params.SR ∣ 2 * toneFreq Config.params 3 * 4410 := by
  refine ⟨⟨params_wellFormed, by decide⟩, by decide⟩

/-- 95_test_vectors.md 2.9: the quotients at which the clauses meet. -/
theorem witness_MapOutcomeForEachQuotient :
    Config.params.wellFormed = true ∧ (F64.isFinite 0x408EDC0000000000 = true ∧
      RealSpec.toReal (mapQuotient Config.params 0x408EDC0000000000) = (-1 : Int) / 2) ∧
    RealSpec.toReal (mapQuotient Config.params 0x408F400000000000) = (0 : Int) / 2 ∧
    RealSpec.toReal (mapQuotient Config.params 0x408FA40000000000) = (1 : Int) / 2 ∧
    RealSpec.toReal (mapQuotient Config.params 0x40954A0000000000) = (29 : Int) / 2 ∧
    RealSpec.toReal (mapQuotient Config.params 0x4095AE0000000000) = (31 : Int) / 2 :=
  ⟨params_wellFormed, ⟨by decide +kernel, toReal_half_units (by decide +kernel)⟩,
    toReal_half_units (by decide +kernel), toReal_half_units (by decide +kernel), toReal_half_units (by decide +kernel),
    toReal_half_units (by decide +kernel)⟩

theorem witness_MapOutcomeForEachQuotient_nonFinite :
    F64.isNaN 0xFFF8000000000001 = true ∧ F64.isInf 0x7FF0000000000000 = true ∧
      F64.isInf 0xFFF0000000000000 = true := by decide +kernel

theorem witness_MapToleranceBands : F64.isFinite 0x408EDC0000000001 = true := by decide +kernel

theorem witness_DequantizationIsExact : Config.params.wellFormed = true ∧ Config.params.BIAS8 = 128 :=
  ⟨params_wellFormed, rfl⟩

theorem witness_WindowTableIsRounded :
    (Config.params.wellFormed = true ∧ 8819 < Config.params.F) ∧ coarse.wellFormed = true ∧ 3 * 3 = coarse.F - 1 := by
  refine ⟨⟨params_wellFormed, by decide⟩, by decide +kernel, by decide⟩

theorem witness_WindowedSamplesAreBounded :
    Config.params.wellFormed = true ∧ 0 < Config.params.F ∧ Config.params.F - 1 < Config.params.F :=
  ⟨params_wellFormed, by decide, by decide⟩

/-- A spectrum with two equal largest local maxima, at bins 1 and 3: the scan's hypotheses at a tie. -/
def tiedSpectrum : List F64 := [0, 2, 1, 2, 0]

theorem magnitudes_of_all {m : List F64} (h : (m.all fun x => F64.isFinite x && !F64.sign x) = true) :
    Magnitudes m := by
  intro x hx
  simpa using List.all_eq_true.1 h x hx

theorem toReal_small (n : Nat) (h : n < 2 ^ 52) :
    RealSpec.toReal (BitVec.ofNat 64 n) = n / 2 ^ 1074 := by
  have e : F64.scaled (BitVec.ofNat 64 n) = n := by
    have h1 : (BitVec.ofNat 64 n).toNat = n := by
      rw [BitVec.toNat_ofNat]; exact Nat.mod_eq_of_lt (h.trans (by decide))
    have h2 : F64.absBits (BitVec.ofNat 64 n) = n := by
      rw [F64.absBits, h1]; exact Nat.mod_eq_of_lt (h.trans (by decide))
    have h3 : F64.sign (BitVec.ofNat 64 n) = false := by
      rw [F64.sign_eq, h1]; exact decide_eq_false (by omega)
    rw [F64.scaled, h3, F64.units, h2, F64.unitsOfBits, if_pos (Nat.div_eq_of_lt h)]
    simp
  rw [RealSpec.toReal, e, Int.cast_natCast]

theorem toReal_zero : RealSpec.toReal 0#64 = 0 := by simpa using toReal_small 0 (by decide)

theorem witness_ScanFindsLowestLargestPeak :
    Magnitudes tiedSpectrum ∧ scan tiedSpectrum ≠ 0 ∧ StrictLocalMax tiedSpectrum 1 ∧
      StrictLocalMax tiedSpectrum 3 := by
  have h := fun n hn => toReal_small n hn
  have e0 : RealSpec.toReal 0#64 = 0 / 2 ^ 1074 := by simpa using h 0 (by decide)
  have e1 : RealSpec.toReal 1#64 = 1 / 2 ^ 1074 := by simpa using h 1 (by decide)
  have e2 : RealSpec.toReal 2#64 = 2 / 2 ^ 1074 := by simpa using h 2 (by decide)
  have p : (0 : ℝ) < 2 ^ 1074 := pow_pos two_pos _
  refine ⟨magnitudes_of_all (by decide +kernel), by decide +kernel, ?_, ?_⟩
  · refine ⟨by decide, by decide, ?_, ?_⟩
    · show RealSpec.toReal 0#64 < RealSpec.toReal 2#64
      rw [e0, e2]; exact div_lt_div_of_pos_right (by norm_num) p
    · show RealSpec.toReal 1#64 < RealSpec.toReal 2#64
      rw [e1, e2]; exact div_lt_div_of_pos_right (by norm_num) p
  · refine ⟨by decide, by decide, ?_, ?_⟩
    · show RealSpec.toReal 1#64 < RealSpec.toReal 2#64
      rw [e1, e2]; exact div_lt_div_of_pos_right (by norm_num) p
    · show RealSpec.toReal 0#64 < RealSpec.toReal 2#64
      rw [e0, e2]; exact div_lt_div_of_pos_right (by norm_num) p

theorem witness_NoLocalMaximumMeansNoPeak :
    Magnitudes [0, 0, 0] ∧ ∀ k, ¬StrictLocalMax [0, 0, 0] k := by
  refine ⟨magnitudes_of_all (by decide +kernel), ?_⟩
  rintro k ⟨h1, h2, h3, -⟩
  obtain rfl : k = 1 := by simp at h2; omega
  exact lt_irrefl _ h3

/-- Silence at both depths: no byte listed at 16 bits, `0x80` bytes at 8 bits. -/
theorem witness_SilenceGivesNoPeak :
    (smallInstance.params.wellFormed = true ∧ SilentWindow smallInstance.params 1 0 idle.winbuf) ∧
      SilentWindow Config.params 1 0 idle.winbuf ∧
      SilentWindow Config.params 0 0 (Memory.writeBlock [] 0 (List.replicate 8820 0x80)) := by
  refine ⟨⟨by decide +kernel, fun n _ => ⟨fun h => absurd h (by decide), fun _ => ⟨rfl, rfl⟩⟩⟩,
    fun n _ => ⟨fun h => absurd h (by decide), fun _ => ⟨rfl, rfl⟩⟩,
    fun n hn => ⟨fun _ => ?_, fun h => absurd h (by decide)⟩⟩
  have hb : winSlotBase Config.params 0 0 = 0 := rfl
  have hn' : n < 8820 := hn
  rw [hb, Memory.read_writeBlock, List.length_replicate, if_pos (by omega), List.getD_replicate _ (by omega)]
  rfl

/-! A window on which every magnitude function of the type finds a peak: two equal 16-bit samples a half window
apart, whose spectrum alternates between `a + b` and `|a - b|`. -/

def twoSamples : Memory := [(4410, 0x40), (13230, 0x40)]

theorem scanFrom_ne_zero {k p : Nat} {best : F64} {l : List F64} (hp : p ≠ 0) (hk : k ≠ 0) :
    scanFrom k p best l ≠ 0 := by
  induction l generalizing k p best with
  | nil => exact hp
  | cons a l ih =>
    rcases l with _ | ⟨b, _ | ⟨c, l⟩⟩
    · exact hp
    · exact hp
    · rw [scanFrom]
      split
      · exact ih hk (by omega)
      · exact ih hp (by omega)

/-- A local maximum at bin 2 makes the scan find a peak. -/
theorem scan_ne_zero {a b c d : F64} {l : List F64} (h1 : F64.gt c b = true) (h2 : F64.gt c d = true)
    (h3 : F64.gt c F64.zero = true) : scan (a :: b :: c :: d :: l) ≠ 0 := by
  rw [scan, scanFrom]
  split <;> rw [scanFrom] <;> split
  · exact scanFrom_ne_zero (by decide) (by decide)
  · rename_i h; simp [h1, h2] at h
  · exact scanFrom_ne_zero (by decide) (by decide)
  · rename_i h; simp [h1, h2, h3] at h

def yPeak : List F64 := windowed Config.params 1 0 twoSamples

theorem yPeak_other {n : Nat} (h1 : n ≠ 2205) (h2 : n ≠ 6615) : RealSpec.toReal (yPeak.getD n 0#64) = 0 := by
  rcases Nat.lt_or_ge n 8820 with hn | hn
  · have h : yPeak.getD n 0#64 = _ := getD_windowed (P := Config.params) hn 1 0 twoSamples 0#64
    have hx : windowSample Config.params 1 twoSamples (winSlotBase Config.params 0 1) n = 0#64 := by
      have hb : winSlotBase Config.params 0 1 = 0 := by decide
      have r1 : twoSamples.read (0 + 2 * n) = 0 := Memory.read_of_not_mem (by simp [twoSamples]; omega)
      have r2 : twoSamples.read (0 + 2 * n + 1) = 0 := Memory.read_of_not_mem (by simp [twoSamples]; omega)
      rw [windowSample, if_neg (by decide), hb, r1, r2]
      decide +kernel
    obtain ⟨f, -, -⟩ := windowCoeff_bound (F := Config.params.F) (n := n) (by decide) (by decide) hn
    rw [h, hx, F64.mul_finite (by decide +kernel) f, F64.toReal_eq, F64.units_rne,
      show F64.units 0#64 = 0 by decide +kernel, zero_mul,
      F64.unitsOfBits_roundBits_zero _ (Nat.two_pow_pos _)]
    simp
  · rw [List.getD_eq_default _ _ (by rw [yPeak, length_windowed]; exact hn), toReal_zero]

/-- Both samples are within a tenth of 1/4. -/
theorem yPeak_two : ∀ n, n = 2205 ∨ n = 6615 →
    (9 : ℝ) / 40 ≤ RealSpec.toReal (yPeak.getD n 0#64) ∧ RealSpec.toReal (yPeak.getD n 0#64) ≤ 11 / 40 := by
  intro n hn
  have hlt : n < Config.params.F := by rcases hn with rfl | rfl <;> decide
  have h : yPeak.getD n 0#64 = _ := getD_windowed (P := Config.params) hlt 1 0 twoSamples 0#64
  rw [h, RealSpec.toReal]
  have hs : (9 * 2 ^ 1074 : Int) ≤ F64.scaled (F64.mul
        (windowSample Config.params 1 twoSamples (winSlotBase Config.params 0 1) n)
        (windowCoeff Config.params.F n)) * 40 ∧
      F64.scaled (F64.mul (windowSample Config.params 1 twoSamples (winSlotBase Config.params 0 1) n)
        (windowCoeff Config.params.F n)) * 40 ≤ 11 * 2 ^ 1074 := by
    rcases hn with rfl | rfl <;> decide +kernel
  generalize F64.scaled (F64.mul (windowSample Config.params 1 twoSamples (winSlotBase Config.params 0 1) n)
    (windowCoeff Config.params.F n)) = x at hs
  have p : (0 : ℝ) < 2 ^ 1074 := pow_pos two_pos _
  have q1 : (9 : ℝ) * 2 ^ 1074 ≤ x * 40 := by exact_mod_cast hs.1
  have q2 : (x : ℝ) * 40 ≤ 11 * 2 ^ 1074 := by exact_mod_cast hs.2
  generalize (2 : ℝ) ^ 1074 = D at *
  constructor
  · rw [div_le_div_iff₀ (by norm_num) p]; linarith
  · rw [div_le_div_iff₀ p (by norm_num)]; linarith

theorem sum_two {f : ℕ → ℂ} (h : ∀ n, n ≠ 2205 → n ≠ 6615 → f n = 0) :
    ∑ n ∈ Finset.range 8820, f n = f 2205 + f 6615 := by
  rw [← Finset.sum_pair (show (2205 : ℕ) ≠ 6615 by decide)]
  refine (Finset.sum_subset (fun n hn => ?_) fun n _ hn => ?_).symm
  · simp only [Finset.mem_insert, Finset.mem_singleton] at hn
    rw [Finset.mem_range]; omega
  · simp only [Finset.mem_insert, Finset.mem_singleton, not_or] at hn
    exact h n hn.1 hn.2

/-- The spectrum at bin `k` is `(-i)^k (a + (-1)^k b)`. -/
theorem dft_yPeak (k : ℕ) :
    ‖RealSpec.dft 8820 yPeak k‖ =
      |RealSpec.toReal (yPeak.getD 2205 0#64) + (-1) ^ k * RealSpec.toReal (yPeak.getD 6615 0#64)| := by
  rw [RealSpec.dft, sum_two fun n h1 h2 => by rw [yPeak_other h1 h2]; simp]
  generalize RealSpec.toReal (yPeak.getD 2205 0#64) = a
  generalize RealSpec.toReal (yPeak.getD 6615 0#64) = b
  have e : Complex.exp (-2 * Real.pi * Complex.I * k * (6615 : ℕ) / (8820 : ℕ)) =
      Complex.exp (-2 * Real.pi * Complex.I * k * (2205 : ℕ) / (8820 : ℕ)) * (-1) ^ k := by
    rw [← Complex.exp_pi_mul_I, ← Complex.exp_nat_mul, ← Complex.exp_add, Complex.exp_eq_exp_iff_exists_int]
    refine ⟨-k, ?_⟩
    push_cast
    ring
  rw [e, show (a : ℂ) * Complex.exp (-2 * Real.pi * Complex.I * k * (2205 : ℕ) / (8820 : ℕ)) +
      (b : ℂ) * (Complex.exp (-2 * Real.pi * Complex.I * k * (2205 : ℕ) / (8820 : ℕ)) * (-1) ^ k) =
      ((a + (-1) ^ k * b : ℝ) : ℂ) * Complex.exp (-2 * Real.pi * Complex.I * k * (2205 : ℕ) / (8820 : ℕ)) by
    push_cast; ring, norm_mul, Complex.norm_real, Real.norm_eq_abs]
  have : ‖Complex.exp (-2 * Real.pi * Complex.I * k * (2205 : ℕ) / (8820 : ℕ))‖ = 1 := by
    rw [show (-2 * Real.pi * Complex.I * k * (2205 : ℕ) / (8820 : ℕ) : ℂ) =
      ((-2 * Real.pi * k * (2205 : ℕ) / (8820 : ℕ) : ℝ) : ℂ) * Complex.I by push_cast; ring]
    exact Complex.norm_exp_ofReal_mul_I _
  rw [this, mul_one]

theorem absSum_yPeak : RealSpec.absSum 8820 yPeak ≤ 11 / 20 := by
  have h : ((RealSpec.absSum 8820 yPeak : ℝ) : ℂ) =
      ((|RealSpec.toReal (yPeak.getD 2205 0#64)| + |RealSpec.toReal (yPeak.getD 6615 0#64)| : ℝ) : ℂ) := by
    rw [RealSpec.absSum, Complex.ofReal_sum, sum_two fun n h1 h2 => by rw [yPeak_other h1 h2]; simp]
    push_cast; rfl
  have h' := Complex.ofReal_injective h
  obtain ⟨a1, a2⟩ := yPeak_two 2205 (.inl rfl)
  obtain ⟨b1, b2⟩ := yPeak_two 6615 (.inr rfl)
  rw [h', abs_of_nonneg (by linarith), abs_of_nonneg (by linarith)]
  linarith

/-- **Whatever MAG is, DETECT finds a peak in this window.** -/
theorem peak_found : scan (Config.mag.fn yPeak) ≠ 0 := by
  have acc := Config.mag.acc yPeak
  have hin : RealSpec.MagInput Config.params.F yPeak := windowed_magInput params_wellFormed 1 0 twoSamples
  obtain ⟨hlen, hk⟩ := acc
  have hF : Config.params.F = 8820 := rfl
  rw [hF] at hlen hk hin
  have tol : (Config.params.magTolNum : ℝ) / Config.params.magTolDen ≤ 1 / 1000 := by
    norm_num [Config.params]
  have near : ∀ k, k < 4410 → F64.isFinite ((Config.mag.fn yPeak).getD k 0#64) = true ∧
      |RealSpec.toReal ((Config.mag.fn yPeak).getD k 0#64) - ‖RealSpec.dft 8820 yPeak k‖| ≤ 11 / 20000 := by
    intro k h
    obtain ⟨f, -, e⟩ := hk k h
    refine ⟨f, (e hin).trans ?_⟩
    have hs := absSum_yPeak
    have h0 : 0 ≤ RealSpec.absSum 8820 yPeak := Finset.sum_nonneg fun _ _ => abs_nonneg _
    calc _ ≤ 1 / 1000 * RealSpec.absSum 8820 yPeak := mul_le_mul_of_nonneg_right tol h0
      _ ≤ _ := by linarith
  generalize Config.mag.fn yPeak = m at *
  obtain ⟨a1, a2⟩ := yPeak_two 2205 (.inl rfl)
  obtain ⟨b1, b2⟩ := yPeak_two 6615 (.inr rfl)
  have n1 := near 1 (by decide)
  have n2 := near 2 (by decide)
  have n3 := near 3 (by decide)
  rw [dft_yPeak] at n1 n2 n3
  generalize RealSpec.toReal (yPeak.getD 2205 0#64) = a at *
  generalize RealSpec.toReal (yPeak.getD 6615 0#64) = b at *
  have e1 : |a + (-1) ^ 1 * b| ≤ 1 / 20 := by rw [abs_le]; constructor <;> linarith
  have e2 : |a + (-1) ^ 2 * b| = a + b := by rw [abs_of_nonneg] <;> linarith
  have e3 : |a + (-1) ^ 3 * b| ≤ 1 / 20 := by rw [abs_le]; constructor <;> linarith
  rw [e2] at n2
  rcases m with _ | ⟨m0, _ | ⟨m1, _ | ⟨m2, _ | ⟨m3, l⟩⟩⟩⟩
  · simp at hlen
  · simp at hlen
  · simp at hlen
  · simp at hlen
  simp only [List.getD_cons_zero, List.getD_cons_succ] at n1 n2 n3
  have u1 := (abs_le.1 n1.2).2
  have u2 := (abs_le.1 n2.2).1
  have u3 := (abs_le.1 n3.2).2
  refine scan_ne_zero ((F64.gt_iff n2.1 n1.1).2 (by linarith)) ((F64.gt_iff n2.1 n3.1).2 (by linarith))
    ((F64.gt_iff n2.1 (by decide +kernel)).2 ?_)
  have : RealSpec.toReal F64.zero = 0 := toReal_zero
  linarith

theorem witness_PeakDenominatorIsNegative :
    Config.inst.params.wellFormed = true ∧
      scan (Config.inst.mag.fn (windowed Config.inst.params 1 0 twoSamples)) ≠ 0 := ⟨params_wellFormed, peak_found⟩

/-- The state whose window slot 0 holds the two samples. -/
def withTwoSamples : State := { idle with winbuf := twoSamples }

theorem peak_committed {s : State} (h : s.winbuf = twoSamples) : ∃ t, exec (.detect 1 0) s = .next t ∧ t.peak = true := by
  refine ⟨commitDetect (detectSpectrum Config.params (Config.mag.fn yPeak)) s, ?_, ?_⟩
  · rw [yPeak, ← h]; rfl
  · rw [commitDetect_peak, (detectSpectrum_peak _ _).2]
    exact decide_eq_true peak_found

theorem witness_PeakResultsAreFinite :
    (∃ t, exec (.detect 1 0) withTwoSamples = .next t ∧ t.peak = true) ∧
      Config.inst.params.wellFormed = true ∧
      (∃ t, commandAt Config.inst (.detect 1 0) withTwoSamples = .next t ∧ t.peak = true) ∧
      scan (Config.inst.mag.fn (windowed Config.inst.params 1 0 twoSamples)) ≠ 0 :=
  ⟨peak_committed rfl, params_wellFormed, by rw [commandAt_inst]; exact peak_committed rfl, peak_found⟩

/-- A DETECT of that window, accepted. -/
def detecting : State := startCommand (encode (.detect 1 0)) withTwoSamples

theorem witness_PeakResultsAreFinite_run : ∃ t, exec (.detect 1 0) detecting = .next t ∧ t.peak = true :=
  peak_committed rfl

/-- An impulse window of length 8 and its flat spectrum. -/
def impulse : List F64 := [F64.half, 0, 0, 0, 0, 0, 0, 0]

theorem toReal_half : RealSpec.toReal F64.half = 1 / 2 := by
  have := toReal_half_units (x := F64.half) (n := 1) (by decide +kernel)
  simpa using this

theorem dft_impulse (k : Nat) : ‖RealSpec.dft 8 impulse k‖ = 1 / 2 := by
  simp [RealSpec.dft, Finset.sum_range_succ, impulse, toReal_half, toReal_zero]

theorem witness_MagRefMeetsMagAcc :
    RealSpec.MagInput 8 impulse ∧ RealSpec.IsMagRef 8 impulse [F64.half, F64.half, F64.half, F64.half] := by
  have hs : RealSpec.absSum 8 impulse = 1 / 2 := by
    simp [RealSpec.absSum, Finset.sum_range_succ, impulse, toReal_half, toReal_zero]
  refine ⟨⟨rfl, List.all_eq_true.1 (by decide +kernel), Or.inr ?_⟩, rfl, ?_⟩
  · rw [hs]
    constructor
    · exact one_div_le_one_div_of_le two_pos (le_self_pow₀ one_le_two (by decide))
    · exact le_trans one_half_lt_one.le (one_le_pow₀ one_le_two)
  · intro k hk
    have hm : ([F64.half, F64.half, F64.half, F64.half] : List F64).getD k 0#64 = F64.half := by
      have : k < 4 := hk
      interval_cases k <;> rfl
    rw [hm, dft_impulse]
    refine ⟨by decide +kernel, by decide +kernel, fun z' _ => ?_⟩
    rw [toReal_half, sub_self, abs_zero]
    rcases eq_or_ne (RealSpec.toReal z') (1 / 2) with h | h
    · exact .inl h
    · exact .inr (.inl (abs_pos.2 (sub_ne_zero.2 h)))

theorem witness_ImpulseGivesNoPeakUnderMagRef :
    RealSpec.MagInput 8 impulse ∧ RealSpec.IsMagRef 8 impulse [F64.half, F64.half, F64.half, F64.half] ∧
      ∀ n, n ≠ 0 → RealSpec.toReal (impulse.getD n 0#64) = 0 := by
  refine ⟨witness_MagRefMeetsMagAcc.1, witness_MagRefMeetsMagAcc.2, fun n hn => ?_⟩
  have : impulse.getD n 0#64 = 0#64 := by
    rcases n with _ | n
    · exact absurd rfl hn
    · rcases Nat.lt_or_ge n 7 with h | h
      · interval_cases n <;> rfl
      · exact List.getD_eq_default _ _ (by simp [impulse]; omega)
  rw [this, toReal_zero]

theorem witness_StepRunsTheDecodedInstruction :
    let s := aboutToWrite 0x03000000
    smallInstance.params.wellFormed = true ∧
      s.eng = .idle ∧ s.host.prog = hostCmd 0x03000000 :: [] ∧ s.sched = .host :: .engine :: [] ∧
      decode 0x03000000 = .cmd .map := ⟨by decide +kernel, by decide⟩

/-- A line that reaches the block and one that does not. -/
theorem witness_StepRunsTheDecodedInstruction_host (h : HostAgent) :
    placed.wellFormed = true ∧
      (HostOp.sys (.read 0x80004 4)).transaction placed h = some (.read 4 4) ∧
      (HostOp.sys (.read 4 4)).transaction placed h = none := ⟨by decide +kernel, rfl, rfl⟩

theorem witness_InitDoneClearsBothBuffers : State.reset.eng = .init := rfl

/-- One step of each kind that moves ENG. -/
theorem witness_EngineTransitions :
    (step State.reset = .next (initDone State.reset) ∧ (initDone State.reset).eng ≠ State.reset.eng) ∧
    (∃ t, step (busyWith .nop) = .next t ∧ t.eng ≠ (busyWith .nop).eng) ∧
    (nextTransaction (aboutToWrite 0) = some (cmdWrite 0) ∧ decode 0 = .cmd .nop ∧
      ∃ t, step (aboutToWrite 0) = .next t ∧ t.eng ≠ (aboutToWrite 0).eng) ∧
    (∃ t, step { idle with sched := [.reset] } = .next t ∧ t.eng ≠ idle.eng) := by
  refine ⟨⟨?_, by decide⟩, ⟨_, step_running 0 0 .nop _ (by decide) rfl, by decide⟩, ?_, ?_⟩
  · rw [step_eq]; rfl
  · rw [step_eq]; exact ⟨rfl, by decide, _, rfl, by decide +kernel⟩
  · rw [step_eq]; exact ⟨_, rfl, by decide⟩

theorem witness_DoneIsSetByCompleteOnly :
    ∃ t, step (busyWith .nop) = .next t ∧ (nextTurn (busyWith .nop)).1 = .engine ∧ (busyWith .nop).eng = .busy ∧
      (busyWith .nop).done = false ∧ t.done = true :=
  ⟨_, step_running 0 0 .nop _ (by decide) rfl, rfl, rfl, rfl, rfl⟩

/-- A MAP that sets NIBV, an SRESET that clears RES_PEAK, and a DETECT that sets PEAK. -/
theorem witness_ResultsChangeOnlyAtTheirCommands :
    (∃ t, step (running 0x03000000 0x408F400000000000) = .next t ∧
      (nextTurn (running 0x03000000 0x408F400000000000)).1 ≠ .reset ∧
      t.nibv ≠ (running 0x03000000 0x408F400000000000).nibv) ∧
    (∃ t, step { busyWith .sreset with resPeak := 9 } = .next t ∧
      (nextTurn { busyWith .sreset with resPeak := 9 }).1 ≠ .reset ∧ t.resPeak ≠ 9) ∧
    (∃ t, step detecting = .next t ∧ (nextTurn detecting).1 ≠ .reset ∧ t.peak ≠ detecting.peak) := by
  refine ⟨⟨_, step_running 0x03000000 _ .map _ (by decide) rfl, by decide, by decide +kernel⟩, ?_, ?_⟩
  · rw [step_eq]
    exact ⟨_, rfl, by decide, by decide⟩
  · have hl : latchedInstr detecting.latch = some (.detect 1 0) := by decide
    obtain ⟨u, hu, e⟩ := completeAt_total Config.inst hl
    obtain ⟨v, hv, hp⟩ := witness_PeakResultsAreFinite_run
    rw [commandAt_inst, hv] at hu
    cases hu
    refine ⟨_, by rw [step_eq]; exact e, by decide, ?_⟩
    rw [finishCommand_peak, hp]
    decide

/-- The first sample of every 8-bit tone is BIAS8. -/
theorem romEntry_cons (P : Params) (n : Nat) (h : P.N = n + 1) (d : Depth) (i : Nibble) :
    ∃ l, romEntry P d i = sampleBytes P d i 0 ++ l := by
  rw [romEntry, h, List.range_succ_eq_map, List.flatMap_cons]
  exact ⟨_, rfl⟩

theorem romEntry_first (i : Nibble) : ∃ l, romEntry Config.params 0 i = 128 :: l := by
  have h0 : sampleBytes Config.params 0 i 0 = [128] := by revert i; decide +kernel
  obtain ⟨l, hl⟩ := romEntry_cons Config.params 8819 rfl 0 i
  exact ⟨l, by rw [hl, h0]; rfl⟩

theorem synth_first (m : Memory) (i : Nibble) :
    (m.writeBlock (toneSlotBase Config.params 0 0) (romEntry Config.params 0 i)).read 0 = 128 := by
  obtain ⟨l, hl⟩ := romEntry_first i
  have hb : toneSlotBase Config.params 0 0 = 0 := by decide
  rw [hl, hb, Memory.read_writeBlock, if_pos (by simp)]
  rfl

theorem witness_BuffersChangeOnlyAsGiven :
    (∃ t, step { idle with host := { idle.host with prog := [.wr addrWinbuf (.imm 1)] } } = .next t ∧
      t.winbuf ≠ idle.winbuf) ∧
    (∃ t, step (busyWith (.synth 0 0 3)) = .next t ∧ (nextTurn (busyWith (.synth 0 0 3))).1 ≠ .reset ∧
      t.tonebuf ≠ (busyWith (.synth 0 0 3)).tonebuf) := by
  constructor
  · rw [step_eq]; exact ⟨_, rfl, by decide +kernel⟩
  · refine ⟨_, step_running (encode (.synth 0 0 3)) 0 (.synth 0 0 3)
      (commitSynth Config.params 0 0 3 (busyWith (.synth 0 0 3))) (by decide) rfl, by decide, ?_⟩
    rw [finishCommand_tonebuf, commitSynth_tonebuf]
    intro h
    have h1 := synth_first (busyWith (.synth 0 0 3)).tonebuf 3
    rw [h] at h1
    exact absurd h1 (by decide)

theorem witness_ResultIsFixedAtAccept :
    idle.eng = .idle ∧ decode 0x03000000 = .cmd .map ∧ (busyWith .map).eng = .busy ∧
      ∃ t, complete (busyWith .map) = .next t := ⟨rfl, by decide, rfl, _, rfl⟩

/-- The reset state meets the invariant: the witness of the statements that assume it. -/
theorem reset_inv (P : Params) : State.reset.InvAt P where
  winbufWf := rfl
  tonebufWf := rfl
  latched := fun h => absurd h (by decide)
  ctrlReserved := by decide
  errinfoReserved := by decide
  noError := fun _ => ⟨rfl, rfl⟩
  errorCode := fun h => absurd h (by decide)
  noNibble := fun _ => rfl
  noPeak := fun _ => ⟨rfl, rfl, rfl⟩
  peakRange := fun h => absurd h (by decide)

theorem witness_EveryStepHasANextState :
    State.reset.Inv ∧ (smallInstance.params.wellFormed = true ∧ State.reset.InvAt smallInstance.params) ∧
      ({ smallInstance.params with NT := 8 } : Params).wellFormed = false :=
  ⟨reset_inv _, ⟨by decide +kernel, reset_inv _⟩, by decide +kernel⟩

theorem witness_EveryStepKeepsTheInvariant :
    (State.reset.Inv ∧ step State.reset = .next (initDone State.reset)) ∧
      State.reset.InvAt smallInstance.params ∧
      stepAt smallInstance State.reset = .next (initDone State.reset) :=
  ⟨⟨reset_inv _, by rw [step_eq]; rfl⟩, reset_inv _, by rw [stepAt_eq (by decide +kernel)]; rfl⟩

/-- A NOP runs on that instance, and its P_FFT_SIZE reads 8. -/
theorem test_small_instance :
    (∃ t, stepAt smallInstance (busyWith .nop) = .next t ∧ t.done = true) ∧
      readReg smallInstance.params .pFftSize idle = 8 :=
  ⟨⟨_, by rw [stepAt_eq (by decide +kernel)]; rfl, rfl⟩, by decide⟩

/-- The reset state with two host turns, an engine turn and a host turn to come. -/
def scheduled : State := { State.reset with sched := [.host, .host, .engine, .host] }

theorem witness_EngineTurnEndsBusy :
    scheduled.Inv ∧ scheduled.eng ≠ .idle ∧ scheduled.sched = List.replicate 2 .host ++ .engine :: [.host] :=
  ⟨{ winbufWf := rfl, tonebufWf := rfl, latched := fun h => absurd h (by decide), ctrlReserved := by decide,
     errinfoReserved := by decide, noError := fun _ => ⟨rfl, rfl⟩, errorCode := fun h => absurd h (by decide),
     noNibble := fun _ => rfl, noPeak := fun _ => ⟨rfl, rfl, rfl⟩, peakRange := fun h => absurd h (by decide) },
    by decide, rfl⟩

theorem witness_RunPseudoInstructionCompletes :
    (let s := { idle with host := { idle.host with prog := hostRun (encode .map) } }
     s.eng = .idle ∧ s.sched = [] ∧ s.host.prog = hostRun (encode .map)) ∧
    (let s := { idle with host := { idle.host with prog := hostRun 0x05000000 } }
     s.eng = .idle ∧ s.sched = [] ∧ s.host.prog = hostRun 0x05000000 ∧ decode 0x05000000 = .illegal) ∧
    decode 0x02000005 = .reserved := ⟨⟨rfl, rfl, rfl⟩, ⟨rfl, rfl, rfl, by decide⟩, by decide⟩

/-- A host about to make one transaction. -/
def hostAbout (t : Transaction) : State := { idle with host := { idle.host with prog := [.bus t] } }

/-- A step for each clause. -/
theorem witness_ErrorsAndSettingsChangeOnlyAsGiven :
    (∃ t, step (hostAbout (cmdWrite 0x05000000)) = .next t ∧ t.err = true ∧ t.errCmd ≠ idle.errCmd) ∧
    (∃ t, step { hostAbout (statusWrite 8) with err := true } = .next t ∧ t.err = false) ∧
    (∃ t, step { hostAbout (cmdWrite 0x05000000) with err := true } = .next t ∧ t.err = true) ∧
    (∃ t, step (hostAbout (.read 2 4)) = .next t ∧ t.berr = true) ∧
    (∃ t, step { busyWith .sreset with berr := true } = .next t ∧ t.berr = false) ∧
    (∃ t, step (hostAbout (.write addrCtrl 4 0xF 3)) = .next t ∧ t.ctrl ≠ idle.ctrl) ∧
    (∃ t, step (hostAbout (.write addrMapInHi 4 0xF 3)) = .next t ∧ t.mapIn ≠ idle.mapIn) ∧
    (∃ t, step (hostAbout (cmdWrite 0x01000003)) = .next t ∧ t.latch ≠ idle.latch) := by
  refine ⟨?_, ?_, ?_, ?_, ?_, ?_, ?_, ?_⟩ <;> rw [step_eq] <;> exact ⟨_, rfl, by decide +kernel⟩

theorem witness_NibblePairingRoundTrip : [(3 : Nibble)].length % 2 = 1 := by decide

theorem witness_EncodedStreamCutsIntoItsTones :
    Config.params.wellFormed = true ∧ (List.replicate 24 (0 : Byte)).length = headerLen :=
  ⟨params_wellFormed, by decide⟩

end Sys2Proof.Tests
end

section
/-! PROOFS. The invariant: every operation of the block keeps it, so every step does (O55), and under it every step of a
valid record has a next state (O53). -/

namespace Sys2Proof

/-- The sizes of a valid record (00_scope.md R5). -/
theorem Params.size_bounds {P : Params} (h : P.wellFormed = true) : P.N = P.F ∧ 8 ≤ P.F ∧ P.F ≤ 16384 := by
  simp only [Params.wellFormed, Params.lengthOk, Params.fftOk, Bool.and_eq_true, decide_eq_true_eq] at h
  omega

/-- The sample rate and the amplitudes of a valid record (00_scope.md R5). -/
theorem Params.sample_bounds {P : Params} (h : P.wellFormed = true) :
    1 ≤ P.SR ∧ P.AMP8 ≤ P.BIAS8 ∧ P.AMP8 + P.BIAS8 ≤ 255 ∧ P.AMP16 ≤ 32767 := by
  simp only [Params.wellFormed, Params.rateOk, Params.amp8Ok, Params.amp16Ok, Bool.and_eq_true,
    decide_eq_true_eq] at h
  omega

end Sys2Proof

namespace Sys2Proof.Machine

/-! ### ERRINFO's fields under the updates of 60_exceptions.md R252 -/

theorem errinfoFirst_of_reserved {w : Word} (h : w &&& ~~~errinfoMask = 0) (code : BitVec 4) :
    errinfoFirst w code = code.zeroExtend 32 := by
  rw [errinfoFirst, h]
  exact BitVec.zero_or

theorem errinfoOverflow_reserved (w : Word) : errinfoOverflow w &&& ~~~errinfoMask = w &&& ~~~errinfoMask := by
  have hbit : (0x00000100 : Word) &&& ~~~errinfoMask = 0 := by decide
  rw [errinfoOverflow, BitVec.and_or_distrib_right, hbit]
  exact BitVec.or_zero

theorem errCode_errinfoOverflow (w : Word) : errCode (errinfoOverflow w) = errCode w := by
  rw [errCode, errinfoOverflow, BitVec.extractLsb'_or]
  exact BitVec.or_zero

/-- A code alone in ERRINFO leaves the reserved bits 0, reads back, and is one of the four (60_exceptions.md R251). -/
theorem CmdErr.code_errinfo (e : CmdErr) :
    e.code.zeroExtend 32 &&& ~~~errinfoMask = 0 ∧ errCode (e.code.zeroExtend 32) = e.code ∧
      1 ≤ e.code.toNat ∧ e.code.toNat ≤ 4 := by
  cases e <;> decide

/-- A rejection while ERR is set only sets OVF (60_exceptions.md R252). -/
theorem raiseCmdError_of_err {s : State} (h : s.err = true) (e : CmdErr) (c : Word) :
    raiseCmdError e c s = { s with errinfo := errinfoOverflow s.errinfo } := by
  rw [raiseCmdError, if_pos h]

/-- The first rejection is captured (60_exceptions.md R252). -/
theorem raiseCmdError_of_noErr {s : State} (h : s.err ≠ true) (e : CmdErr) (c : Word) :
    raiseCmdError e c s = { s with err := true, errinfo := errinfoFirst s.errinfo e.code, errCmd := c } := by
  rw [raiseCmdError, if_neg h]

/-! ### What keeps the invariant -/

namespace State.InvAt

variable {P : Params} {s : State}

theorem withHost (h : s.InvAt P) (a : HostAgent) : State.InvAt P { s with host := a } := { h with }

theorem withSched (h : s.InvAt P) (g : List Agent) : State.InvAt P { s with sched := g } := { h with }

theorem withMapIn (h : s.InvAt P) (x : F64) : State.InvAt P { s with mapIn := x } := { h with }

theorem withCtrl (h : s.InvAt P) (v : Word) : State.InvAt P { s with ctrl := v &&& ctrlMask } :=
  { h with
    ctrlReserved := by
      show v &&& ctrlMask &&& ~~~ctrlMask = 0
      rw [BitVec.and_assoc, show ctrlMask &&& ~~~ctrlMask = 0 by decide]
      exact BitVec.and_zero }

theorem withWinbuf (h : s.InvAt P) {o : Nat} (v : Word) (ho : o + 4 ≤ bufferBytes) :
    State.InvAt P { s with winbuf := s.winbuf.writeWord o v } :=
  { h with winbufWf := Memory.wf_writeWord h.winbufWf v ho }

theorem raiseBusError (h : s.InvAt P) : (raiseBusError s).InvAt P := { h with }

/-- The first rejection captures one of the four codes, and a later one keeps the code (60_exceptions.md R254). -/
theorem raiseCmdError (h : s.InvAt P) (e : CmdErr) (c : Word) : (raiseCmdError e c s).InvAt P := by
  by_cases herr : s.err = true
  · rw [raiseCmdError_of_err herr]
    exact { h with
      errinfoReserved := (errinfoOverflow_reserved s.errinfo).trans h.errinfoReserved
      noError := fun hno => nomatch herr.symm.trans hno
      errorCode := fun _ => by
        rw [errCode_errinfoOverflow]
        exact h.errorCode herr }
  · obtain ⟨hres, hcode, hrange⟩ := e.code_errinfo
    rw [raiseCmdError_of_noErr herr, errinfoFirst_of_reserved h.errinfoReserved]
    exact { h with
      errinfoReserved := hres
      noError := fun hno => nomatch hno
      errorCode := fun _ => by
        rw [hcode]
        exact hrange }

/-- A write that clears ERR clears what it captured with it, and any other one keeps both (10_state.md R45). -/
theorem writeStatus (h : s.InvAt P) (v : Word) : (writeStatus v s).InvAt P := by
  by_cases hv : v.getLsbD 3 = true
  · have herr : (Machine.writeStatus v s).err = false := by rw [writeStatus_err, hv, Bool.not_true, Bool.and_false]
    have hinfo : (Machine.writeStatus v s).errinfo = 0 := by rw [writeStatus_errinfo, if_pos hv]
    have hcmd : (Machine.writeStatus v s).errCmd = 0 := by rw [writeStatus_errCmd, if_pos hv]
    exact { h with
      errinfoReserved := by rw [hinfo]; exact BitVec.zero_and
      noError := fun _ => ⟨hinfo, hcmd⟩
      errorCode := fun h1 => nomatch herr.symm.trans h1 }
  · have herr : (Machine.writeStatus v s).err = s.err := by
      rw [writeStatus_err, Bool.eq_false_of_not_eq_true hv, Bool.not_false, Bool.and_true]
    have hinfo : (Machine.writeStatus v s).errinfo = s.errinfo := by rw [writeStatus_errinfo, if_neg hv]
    have hcmd : (Machine.writeStatus v s).errCmd = s.errCmd := by rw [writeStatus_errCmd, if_neg hv]
    exact { h with
      errinfoReserved := by rw [hinfo]; exact h.errinfoReserved
      noError := by rw [herr, hinfo, hcmd]; exact h.noError
      errorCode := by rw [herr, hinfo]; exact h.errorCode }

/-- Only a decoded command is latched (43_control.md R227). -/
theorem startCommand (h : s.InvAt P) {c : Word} {i : Instr} (hd : decode c = .cmd i) : (startCommand c s).InvAt P :=
  { h with latched := fun _ => by rw [startCommand_latch, latchedInstr_latchOf hd, Option.isSome_some] }

theorem acceptCommand (h : s.InvAt P) (c : Word) : (acceptCommand c s).InvAt P := by
  rcases acceptCommand_cases c s with ⟨-, e⟩ | ⟨-, e⟩ | ⟨-, -, e⟩ | ⟨-, -, e⟩ | ⟨-, ⟨i, hd⟩, e⟩ <;> rw [e]
  · exact h.raiseCmdError .notReady c
  · exact h.raiseCmdError .busy c
  · exact h.raiseCmdError .illegalOpcode c
  · exact h.raiseCmdError .reservedField c
  · exact h.startCommand hd

theorem transact (h : s.InvAt P) (t : Transaction) : (transact P t s).1.InvAt P := by
  rcases transact_effect P t s with e | e | ⟨v, e⟩ | ⟨v, e⟩ | ⟨v, e⟩ | ⟨x, e⟩ | ⟨o, v, -, ho, e⟩ <;> rw [e]
  · exact h.raiseBusError
  · exact h
  · exact h.writeStatus v
  · exact h.withCtrl v
  · exact h.acceptCommand v
  · exact h.withMapIn x
  · exact h.withWinbuf v ho

theorem hostTurn (h : s.InvAt P) : (hostTurn P s).InvAt P := by
  rcases hostTurn_cases P s with ⟨a, e⟩ | ⟨t, a, e⟩ <;> rw [e]
  · exact h.withHost a
  · exact (h.transact t).withHost a

theorem initDone (h : s.InvAt P) : (initDone s).InvAt P :=
  { h with winbufWf := Memory.wf_nil, tonebufWf := Memory.wf_nil, latched := fun hb => nomatch hb }

theorem finishCommand (h : s.InvAt P) : (finishCommand s).InvAt P := { h with latched := fun hb => nomatch hb }

theorem reset (P : Params) : State.reset.InvAt P where
  winbufWf := Memory.wf_nil
  tonebufWf := Memory.wf_nil
  latched := fun hb => nomatch hb
  ctrlReserved := by decide
  errinfoReserved := by decide
  noError := fun _ => ⟨rfl, rfl⟩
  errorCode := fun herr => nomatch herr
  noNibble := fun _ => rfl
  noPeak := fun _ => ⟨rfl, rfl, rfl⟩
  peakRange := fun hp => nomatch hp

theorem resetBlock (P : Params) (s : State) : (resetBlock s).InvAt P :=
  ((State.InvAt.reset P).withHost s.host).withSched s.sched

/-! ### The commands -/

theorem commitSynth (h : s.InvAt P) (hP : P.wellFormed = true) (d : Depth) (sl : Slot) (i : Nibble) :
    (commitSynth P d sl i s).InvAt P := by
  have hslot : (Instr.synth d sl i).wellFormed P = true := instr_wellFormed hP _
  have hroom : toneSlotBase P sl d + (romEntry P d i).length ≤ bufferBytes := by
    rw [length_romEntry]
    exact of_decide_eq_true hslot
  exact { h with tonebufWf := Memory.wf_writeBlock h.tonebufWf hroom }

/-- A detection of half a window of magnitudes names a bin of the scan range, or is all zeros. -/
theorem commitDetect (h : s.InvAt P) (hP : P.wellFormed = true) {m : List F64} (hm : m.length = P.F / 2) :
    (commitDetect (detectSpectrum P m) s).InvAt P := by
  obtain ⟨hpeak, hfound⟩ := detectSpectrum_peak P m
  obtain ⟨-, -, hF⟩ := Params.size_bounds hP
  exact { h with
    noNibble := fun hn => detectSpectrum_noNibble hn
    noPeak := fun hp => by
      have hk : scan m = 0 := by simpa [hfound] using hp
      rw [detectSpectrum_noPeak hk]
      exact ⟨rfl, rfl, rfl⟩
    peakRange := fun hp => by
      have hk : scan m ≠ 0 := by simpa [hfound] using hp
      obtain ⟨hlow, hhigh⟩ := scan_range hk
      rw [commitDetect_resPeak, hpeak, BitVec.toNat_ofNat, Nat.mod_eq_of_lt (by omega)]
      omega }

theorem commitMap (h : s.InvAt P) (f : F64) : (commitMap (mapNibble P f) s).InvAt P :=
  { h with noNibble := fun hn => mapNibble_unrecognized hn }

theorem execSreset {t : State} (h : s.InvAt P) (ht : execSreset s = .next t) : t.InvAt P := by
  cases ht
  exact { h with
    errinfoReserved := BitVec.zero_and
    noError := fun _ => ⟨rfl, rfl⟩
    errorCode := fun herr => nomatch herr
    noNibble := fun _ => rfl
    noPeak := fun _ => ⟨rfl, rfl, rfl⟩
    peakRange := fun hp => nomatch hp }

theorem commandAt {I : Instance} {t : State} (h : s.InvAt I.params) (hP : I.params.wellFormed = true) {i : Instr}
    (ht : commandAt I i s = .next t) : t.InvAt I.params := by
  rcases commandAt_cases I i s with ⟨-, e⟩ | ⟨d, sl, n, -, e⟩ | ⟨d, sl, -, e⟩ | ⟨-, e⟩ | ⟨-, e⟩ <;> rw [e] at ht
  · cases ht; exact { h with }
  · cases ht; exact h.commitSynth hP d sl n
  · cases ht; exact h.commitDetect hP (I.mag.acc _).1
  · cases ht; exact h.commitMap _
  · exact h.execSreset ht

/-! ### Turns and steps -/

theorem turnAt {I : Instance} {g : Agent} {t : State} (h : s.InvAt I.params) (hP : I.params.wellFormed = true)
    (ht : turnAt I g s = .next t) : t.InvAt I.params := by
  rcases turnAt_next ht with ⟨-, rfl⟩ | ⟨-, -, rfl⟩ | ⟨-, -, rfl⟩ | ⟨-, -, hc⟩ | ⟨-, rfl⟩
  · exact h.hostTurn
  · exact h.initDone
  · exact h
  · obtain ⟨i, u, -, hu, rfl⟩ := completeAt_next hc
    exact (h.commandAt hP hu).finishCommand
  · exact resetBlock I.params s

theorem nextTurn (h : s.InvAt P) : (nextTurn s).2.InvAt P := by
  rw [nextTurn_state]
  exact h.withSched _

theorem stepAt {I : Instance} {t : State} (h : s.InvAt I.params) (ht : stepAt I s = .next t) : t.InvAt I.params := by
  by_cases hP : I.params.wellFormed = true
  · rw [stepAt_eq hP] at ht
    exact h.nextTurn.turnAt hP ht
  · rw [stepAt_invalid hP] at ht
    cases ht

end State.InvAt

/-- Settles O55: `State.InvAt.stepAt`, of which the default step is a case. -/
theorem everyStepKeepsTheInvariant : Obligations.EveryStepKeepsTheInvariant := by
  unfold Obligations.EveryStepKeepsTheInvariant
  exact ⟨fun _ _ hs ht => State.InvAt.stepAt (I := Config.inst) hs ht, fun _ _ _ hs ht => hs.stepAt ht⟩

/-- Under the invariant every agent's turn has a next state: the LATCH of a busy block holds a command. -/
theorem turnAt_total {I : Instance} {s : State} (h : s.InvAt I.params) (g : Agent) : ∃ t, turnAt I g s = .next t := by
  cases g with
  | host => exact ⟨_, rfl⟩
  | reset => exact ⟨_, rfl⟩
  | engine =>
    unfold turnAt engineTurnAt
    cases he : s.eng with
    | init => exact ⟨_, rfl⟩
    | idle => exact ⟨_, rfl⟩
    | busy =>
      obtain ⟨i, hi⟩ := Option.isSome_iff_exists.1 (h.latched he)
      obtain ⟨u, -, hu⟩ := completeAt_total I hi
      exact ⟨_, hu⟩

theorem stepAt_total {I : Instance} {s : State} (hP : I.params.wellFormed = true) (h : s.InvAt I.params) :
    ∃ t, stepAt I s = .next t := by
  rw [stepAt_eq hP]
  exact turnAt_total h.nextTurn _

/-- Settles O53, by the totality of every turn under the invariant. -/
theorem everyStepHasANextState : Obligations.EveryStepHasANextState := by
  unfold Obligations.EveryStepHasANextState
  exact ⟨fun _ h => stepAt_total (I := Config.inst) params_wellFormed h,
    fun _ s => ⟨stepAt_total, fun hP => stepAt_invalid (ne_true_of_eq_false hP) s⟩⟩

end Sys2Proof.Machine
end

section
/-! PROOFS. From a CMD write to the completion of its command, one scheduled turn after the other (O45). -/

namespace Sys2Proof.Machine

/-! ### A register write and an accepted command -/

/-- A whole-word write to an aligned register offset is the register's write (20_memory.md R83). -/
theorem transact_writeReg (P : Params) {a : Addr} (hr : regionOf a = .regs) (ha : a.toNat % 4 = 0) (v : Word)
    (s : State) : transact P (.write a 4 0xF v) s = (writeReg (regAt a.toNat) v s, okay 0) := by
  have href : refusal (.write a 4 0xF v) s = none := by
    simp [refusal, Transaction.badWidth, Transaction.addr, ha, hr]
  simp only [transact, href, writeData, hr, okay]

theorem transact_cmdWrite (P : Params) (c : Word) (s : State) :
    transact P (cmdWrite c) s = (acceptCommand c s, okay 0) :=
  transact_writeReg P (a := addrCmd) (by decide) (by decide) c s

theorem acceptCommand_idle {c : Word} {i : Instr} {s : State} (he : s.eng = .idle) (hd : decode c = .cmd i) :
    acceptCommand c s = startCommand c s := by
  simp only [acceptCommand, he, hd]

/-! ### Scheduled turns -/

section
variable {P : Params} {I : Instance} {s : State} {op : HostOp} {ops : List HostOp} {rest : List Agent}
  {tr : Transaction}

theorem hostTurn_transacts (hp : s.host.prog = op :: ops) (ht : op.transaction P s.host = some tr) :
    hostTurn P s = { (transact P tr s).1 with host := hostAfter op ops (transact P tr s).2 s.host } := by
  rw [hostTurn, hp]
  simp only [ht]

theorem hostTurn_unreached (hp : s.host.prog = op :: ops) (ht : op.transaction P s.host = none) :
    hostTurn P s = { s with host := { s.host with prog := ops } } := by
  rw [hostTurn, hp]
  simp only [ht]

theorem nextTurn_cons {g : Agent} (hs : s.sched = g :: rest) : nextTurn s = (g, { s with sched := rest }) := by
  rw [nextTurn, hs]

theorem stepAt_host (hP : I.params.wellFormed = true) (hs : s.sched = .host :: rest) :
    stepAt I s = .next (hostTurn I.params { s with sched := rest }) := by
  rw [stepAt_eq hP, nextTurn_cons hs, turnAt]

theorem stepAt_engine (hP : I.params.wellFormed = true) (hs : s.sched = .engine :: rest) (he : s.eng = .busy) :
    stepAt I s = completeAt I { s with sched := rest } := by
  rw [stepAt_eq hP, nextTurn_cons hs]
  simp only [turnAt, engineTurnAt, he]

/-- A host turn whose line reaches the block issues the line's transaction. -/
theorem stepAt_transacts (hP : I.params.wellFormed = true) (hp : s.host.prog = op :: ops)
    (hs : s.sched = .host :: rest) (ht : op.transaction I.params s.host = some tr) :
    stepAt I s = .next { (transact I.params tr { s with sched := rest }).1 with
      host := hostAfter op ops (transact I.params tr { s with sched := rest }).2 s.host } :=
  (stepAt_host hP hs).trans (congrArg _ (hostTurn_transacts (s := { s with sched := rest }) hp ht))

/-- A host turn whose line does not reach the block leaves the block as it is (notes/assumptions/10.md). -/
theorem stepAt_unreached (hP : I.params.wellFormed = true) (hp : s.host.prog = op :: ops)
    (hs : s.sched = .host :: rest) (ht : op.transaction I.params s.host = none) :
    stepAt I s = .next { s with sched := rest, host := { s.host with prog := ops } } :=
  (stepAt_host hP hs).trans (congrArg _ (hostTurn_unreached (s := { s with sched := rest }) hp ht))

end

/-- The state after the host's turn that has the command word `c` accepted, with the lines `ops` and the turns `rest`
still to come. -/
def acceptedState (c : Word) (ops : List HostOp) (rest : List Agent) (s : State) : State :=
  { startCommand c { s with sched := rest } with host := hostAfter (hostCmd c) ops (okay 0) s.host }

section
variable {I : Instance} {s : State} {c : Word} {i : Instr} {ops : List HostOp} {rest : List Agent}

theorem stepAt_accepts (hP : I.params.wellFormed = true) (he : s.eng = .idle) (hp : s.host.prog = hostCmd c :: ops)
    (hs : s.sched = .host :: rest) (hd : decode c = .cmd i) : stepAt I s = .next (acceptedState c ops rest s) := by
  have hstart := acceptCommand_idle (s := { s with sched := rest }) he hd
  rw [stepAt_transacts hP hp hs (tr := cmdWrite c) rfl, transact_cmdWrite, hstart, acceptedState]

/-- Accept, then Complete (43_control.md R220, R227). -/
theorem stepAt_runs_decoded (hP : I.params.wellFormed = true) (he : s.eng = .idle)
    (hp : s.host.prog = hostCmd c :: ops) (hs : s.sched = .host :: .engine :: rest) (hd : decode c = .cmd i) :
    ∃ u t, stepAt I s = .next u ∧ u.eng = .busy ∧ u.latch = latchOf c s ∧ u.host.prog = ops ∧
      commandAt I i { u with sched := rest } = .next t ∧ stepAt I u = .next { t with eng := .idle } := by
  have hl : latchedInstr (acceptedState c ops rest s).latch = some i := latchedInstr_latchOf hd s
  obtain ⟨t, ht, hc⟩ := completeAt_total I hl
  exact ⟨_, t, stepAt_accepts hP he hp hs hd, rfl, rfl, rfl, ht, (stepAt_engine hP rfl rfl).trans hc⟩

end

/-- Settles O45: the turn of the host accepts the word and the engine's turn completes it; `exec` is `commandAt` of the
default record and MAG. -/
theorem stepRunsTheDecodedInstruction : Obligations.StepRunsTheDecodedInstruction := by
  unfold Obligations.StepRunsTheDecodedInstruction
  refine ⟨fun s c i ops rest he hp hs hd => ?_, fun I s c i ops rest hP he hp hs hd => ?_,
    fun I s op ops rest hP hp hs => ⟨fun ht => ?_, fun tr ht => ?_⟩⟩
  · simp only [← commandAt_inst]
    exact stepAt_runs_decoded (I := Config.inst) params_wellFormed he hp hs hd
  · exact stepAt_runs_decoded hP he hp hs hd
  · exact ⟨_, stepAt_unreached hP hp hs ht⟩
  · exact ⟨_, stepAt_transacts hP hp hs ht⟩

end Sys2Proof.Machine
end

section
/-! PROOFS. The slots inside the buffers, and the block at its system address (O22). -/

namespace Sys2Proof.Machine

theorem portAddr_selected {P : Params} {A : Nat} (h : selects P A = true) :
    portAddr P A = some (BitVec.ofNat 18 A) := by
  rw [portAddr, if_pos h]

theorem portAddr_unselected {P : Params} {A : Nat} (h : selects P A ≠ true) : portAddr P A = none := by
  rw [portAddr, if_neg h]

/-- No address outside every window is selected. -/
theorem not_selects_of_outside {P : Params} {A : Nat}
    (h : ∀ b ∈ P.BASE_ADDR :: P.ALIASES, A < b ∨ b + blockBytes ≤ A) : selects P A ≠ true := by
  intro hsel
  obtain ⟨b, hb, hle, hlt⟩ := (selects_iff P A).1 hsel
  rcases h b hb with hlow | hhigh
  · exact absurd hle hlow.not_ge
  · exact absurd hlt hhigh.not_gt

/-- The low 18 bits of an address behind a multiple of 256 KiB. -/
theorem ofNat_add_of_aligned {b : Nat} (h : b % 0x40000 = 0) (o : Nat) :
    BitVec.ofNat 18 (b + o) = BitVec.ofNat 18 o :=
  BitVec.eq_of_toNat_eq (by rw [BitVec.toNat_ofNat, BitVec.toNat_ofNat]; omega)

/-- Settles O22, by the room of a slot of at most 16384 samples and by the selection of the port's address. -/
theorem slotsLieInsideTheBuffers : Obligations.SlotsLieInsideTheBuffers := by
  unfold Obligations.SlotsLieInsideTheBuffers
  refine ⟨fun P hP => ?_, fun P h A size strobe v => ⟨fun hout => ?_, fun hin => ?_, fun o ho hbase => ?_⟩⟩
  · obtain ⟨hN, -, hF⟩ := Params.size_bounds hP
    refine ⟨fun s d => ⟨rfl, rfl, slot_room hF s d, slot_room (hN.trans_le hF) s d⟩, fun d => ?_, ?_⟩
    · have adjacent : ∀ n : Nat, 0 * n * bps d + n * bps d ≤ 1 * n * bps d := fun n => by
        rw [zero_mul, zero_mul, zero_add, one_mul]
      exact ⟨adjacent P.F, adjacent P.N⟩
    · show 1 * P.F * 1 + P.F * 1 = 0 * P.F * 2 + P.F * 2
      omega
  · have hsel := portAddr_unselected (not_selects_of_outside hout)
    simp only [HostOp.transaction, SysTransaction.atPort, hsel, Option.map_none, and_self]
  · have hsel := portAddr_selected ((selects_iff P A).2 hin)
    refine ⟨BitVec.ofNat 18 A, BitVec.toNat_ofNat A 18, ?_⟩
    simp only [HostOp.transaction, SysTransaction.atPort, hsel, Option.map_some, and_self]
  · have hwindow : selects P (P.BASE_ADDR + o) = true :=
      (selects_iff P _).2 ⟨P.BASE_ADDR, List.mem_cons_self, Nat.le_add_right _ _, Nat.add_lt_add_left ho _⟩
    rw [portAddr_selected hwindow, ofNat_add_of_aligned hbase]

end Sys2Proof.Machine
end

section
/-! PROOFS. The f64 operations round to nearest even (O29): each is `rne` of a fraction of units, and that fraction is
the real result. -/

namespace Sys2Proof.F64

open RealSpec

/-- What 00_scope.md R11 asks of an operation whose real result is `r`: a finite `z` is `r` rounded to nearest even, and
`z` is finite when `r` is well inside the range. -/
def Rounds (z : F64) (r : ℝ) : Prop :=
  (isFinite z = true → IsRNE r z) ∧ (|r| < 2 ^ 1023 → isFinite z = true)

/-- The real number that `rne` rounds: plus or minus `n / d` units. -/
noncomputable def fraction (s : Bool) (n d : Nat) : ℝ := (if s then -1 else 1) * ((n : ℝ) / d) / 2 ^ 1074

theorem abs_fraction (s : Bool) (n d : Nat) : |fraction s n d| = (n : ℝ) / d / 2 ^ 1074 := by
  have hsign : |(if s then -1 else 1 : ℝ)| = 1 := by cases s <;> simp
  have hnonneg : (0 : ℝ) ≤ (n : ℝ) / d := by positivity
  rw [fraction, abs_div, abs_mul, hsign, one_mul, abs_of_nonneg hnonneg, abs_of_pos (by positivity)]

theorem div_lt_of_abs_fraction_lt {s : Bool} {n d : Nat} (h : |fraction s n d| < 2 ^ 1023) : n / d < 2 ^ 2097 := by
  rw [abs_fraction, div_lt_iff₀ (by positivity), ← pow_add] at h
  have hcast : ((n / d : ℕ) : ℝ) < 2 ^ 2097 := Nat.cast_div_le.trans_lt h
  exact_mod_cast hcast

theorem rounds_rne (s : Bool) (n : Nat) {d : Nat} (hd : 0 < d) : Rounds (rne s n d) (fraction s n d) := by
  refine ⟨fun hfin => isRNE_rne s hd ?_, fun hr => isFinite_rne s hd (div_lt_of_abs_fraction_lt hr)⟩
  rwa [isFinite_iff, absBits_rne] at hfin

/-! ### Sums -/

theorem rne_zero (s : Bool) : rne s 0 1 = ofBits s 0 := by
  have hbits : roundBits 0 1 = 0 := by decide
  rw [rne, hbits]

/-- A sum of finite values is rounded in every case; only the sign of an exact zero is IEEE 754's own. -/
theorem add_eq_rne {x y : F64} (hx : isFinite x = true) (hy : isFinite y = true) :
    add x y = rne (if scaled x + scaled y = 0 then sign x && sign y else decide (scaled x + scaled y < 0))
      (scaled x + scaled y).natAbs 1 := by
  rw [add_finite hx hy]
  split
  · next h => rw [h, Int.natAbs_zero, rne_zero]
  · rfl

/-- An integer number of units is its magnitude under its sign, whatever sign its zero is given. -/
theorem fraction_natAbs {s : Bool} {i : Int} (h : i ≠ 0 → s = decide (i < 0)) :
    fraction s i.natAbs 1 = (i : ℝ) / 2 ^ 1074 := by
  rw [fraction, Nat.cast_one, div_one, Nat.cast_natAbs]
  congr 1
  rcases lt_trichotomy i 0 with hi | rfl | hi
  · rw [h hi.ne, decide_eq_true hi, if_pos rfl, abs_of_neg hi, Int.cast_neg, neg_one_mul, neg_neg]
  · rw [abs_zero, Int.cast_zero, mul_zero]
  · rw [h hi.ne', decide_eq_false hi.not_gt, if_neg Bool.false_ne_true, abs_of_pos hi, one_mul]

theorem toReal_add_toReal (x y : F64) : toReal x + toReal y = ((scaled x + scaled y : ℤ) : ℝ) / 2 ^ 1074 := by
  rw [toReal, toReal, Int.cast_add, add_div]

theorem rounds_add {x y : F64} (hx : isFinite x = true) (hy : isFinite y = true) :
    Rounds (add x y) (toReal x + toReal y) := by
  rw [add_eq_rne hx hy, toReal_add_toReal, ← fraction_natAbs fun h => if_neg h]
  exact rounds_rne _ _ one_pos

/-- An exact sum of zero is +0.0 unless both terms are negative. -/
theorem sign_add_of_zero {x y : F64} (hx : isFinite x = true) (hy : isFinite y = true)
    (h : toReal x + toReal y = 0) : sign (add x y) = (sign x && sign y) := by
  have hsum : scaled x + scaled y = 0 := by
    rw [toReal_add_toReal, div_eq_zero_iff] at h
    exact_mod_cast h.resolve_right (by positivity)
  rw [add_eq_rne hx hy, sign_rne, if_pos hsum]

theorem toReal_neg (x : F64) : toReal (neg x) = -toReal x := by
  rw [toReal, toReal, scaled_neg, Int.cast_neg, neg_div]

theorem rounds_sub {x y : F64} (hx : isFinite x = true) (hy : isFinite y = true) :
    Rounds (sub x y) (toReal x - toReal y) := by
  rw [sub, sub_eq_add_neg, ← toReal_neg]
  exact rounds_add hx (by rwa [isFinite_neg])

theorem sign_sub_of_zero {x y : F64} (hx : isFinite x = true) (hy : isFinite y = true)
    (h : toReal x - toReal y = 0) : sign (sub x y) = (sign x && !sign y) := by
  rw [sub, sign_add_of_zero hx (by rwa [isFinite_neg]) (by rwa [toReal_neg, ← sub_eq_add_neg]), sign_neg]

/-! ### Products and quotients -/

/-- Exclusive or of the sign bits multiplies the signs. -/
theorem sign_factor_xor (a b : Bool) :
    (if (a != b) = true then -1 else 1 : ℝ) = (if a then -1 else 1) * (if b then -1 else 1) := by
  cases a <;> cases b <;> norm_num

theorem rounds_mul {x y : F64} (hx : isFinite x = true) (hy : isFinite y = true) :
    Rounds (mul x y) (toReal x * toReal y) := by
  have hprod : toReal x * toReal y = fraction (sign x != sign y) (units x * units y) (2 ^ 1074) := by
    rw [fraction, sign_factor_xor, toReal_eq, toReal_eq, Nat.cast_mul, Nat.cast_pow, Nat.cast_ofNat]
    generalize (2 : ℝ) ^ 1074 = T
    ring
  rw [mul_finite hx hy, hprod]
  exact rounds_rne _ _ (Nat.two_pow_pos 1074)

theorem units_ne_zero {y : F64} (h : toReal y ≠ 0) : units y ≠ 0 := by
  intro h0
  exact h (by rw [toReal_eq, h0, Nat.cast_zero, mul_zero, zero_div])

theorem rounds_div {x y : F64} (hx : isFinite x = true) (hy : isFinite y = true) (h0 : toReal y ≠ 0) :
    Rounds (div x y) (toReal x / toReal y) := by
  have hu := units_ne_zero h0
  have hquot : toReal x / toReal y = fraction (sign x != sign y) (units x * 2 ^ 1074) (units y) := by
    have huR : (units y : ℝ) ≠ 0 := Nat.cast_ne_zero.2 hu
    have hT : (2 : ℝ) ^ 1074 ≠ 0 := by positivity
    rw [fraction, sign_factor_xor, toReal_eq, toReal_eq, Nat.cast_mul, Nat.cast_pow, Nat.cast_ofNat]
    generalize (2 : ℝ) ^ 1074 = T at *
    generalize (if sign x then -1 else 1 : ℝ) = σ
    cases sign y
    · rw [if_neg Bool.false_ne_true]; field_simp
    · rw [if_pos rfl]; field_simp
  rw [div_finite hx hy hu, hquot]
  exact rounds_rne _ _ (Nat.pos_of_ne_zero hu)

/-- Settles O29, one lemma an operation. -/
theorem f64OperationsRoundToNearestEven : Obligations.F64OperationsRoundToNearestEven := by
  unfold Obligations.F64OperationsRoundToNearestEven
  refine ⟨fun x y hx hy => ⟨fun z r hz => ?_, fun h0 => rounds_div hx hy h0, sign_add_of_zero hx hy,
    sign_sub_of_zero hx hy, ?_, fun h0 => ?_⟩, fun i hi => ofInt_exact hi, ?_⟩
  · simp only [List.mem_cons, Prod.mk.injEq, List.not_mem_nil, or_false] at hz
    rcases hz with ⟨rfl, rfl⟩ | ⟨rfl, rfl⟩ | ⟨rfl, rfl⟩
    · exact rounds_add hx hy
    · exact rounds_sub hx hy
    · exact rounds_mul hx hy
  · rw [mul_finite hx hy, sign_rne, Bool.bne_eq_xor]
  · rw [div_finite hx hy (units_ne_zero h0), sign_rne, Bool.bne_eq_xor]
  · rw [ofInt, sign_rne]; rfl

end Sys2Proof.F64
end

section
/-! PROOFS. The samples of the tone ROM quantize the exact waveform, in their ranges (O30). -/

namespace Sys2Proof.Machine

open RealSpec

theorem abs_waveform_le_one (f sr n t : ℕ) : |waveform f sr n t| ≤ 1 := by
  obtain ⟨h0, h1⟩ := FixedTrig.hann_mem t n
  rw [waveform, abs_mul, abs_of_nonneg h0]
  exact mul_le_one₀ (Real.abs_sin_le_one _) h0 h1

/-- An amplitude times a value of the waveform. -/
theorem amplitude_mul_mem (A : ℕ) {v : ℝ} (hv : |v| ≤ 1) : -(A : ℝ) ≤ A * v ∧ A * v ≤ A := by
  rw [← abs_le, abs_mul, Nat.abs_cast]
  exact mul_le_of_le_one_right (Nat.cast_nonneg A) hv

/-- The truncation as `q16` writes it, with two floors. -/
theorem trunc_eq_floors (r : ℝ) : trunc r = if 0 ≤ ⌊r⌋ then ⌊r⌋ else -⌊-r⌋ := by
  simp only [trunc, Int.floor_nonneg, Int.floor_neg, neg_neg]

/-- A real between two integers truncates between them. -/
theorem trunc_mem {r : ℝ} {a b : ℤ} (ha : a ≤ r) (hb : r ≤ b) : a ≤ trunc r ∧ trunc r ≤ b := by
  unfold trunc
  split
  · exact ⟨Int.le_floor.2 ha, by exact_mod_cast (Int.floor_le r).trans hb⟩
  · exact ⟨by exact_mod_cast ha.trans (Int.le_ceil r), Int.ceil_le.2 hb⟩

/-- An amplitude fits the 15 bits that `toneFloor_eq` asks for. -/
theorem abs_amplitude_le {A : ℕ} (h : A ≤ 32767) : |((A : ℤ) : ℝ)| ≤ 2 ^ 15 := by
  rw [← Int.cast_abs, Nat.abs_cast]
  exact_mod_cast h.trans (by norm_num)

section
variable {P : Params} {t : ℕ}

theorem q8_eq_floor (hP : P.wellFormed = true) (i : Nibble) (ht : t < P.N) :
    q8 P i t = ⌊P.AMP8 * waveform (toneFreq P i) P.SR P.N t + P.BIAS8⌋ := by
  obtain ⟨hN, hF, -⟩ := Params.size_bounds hP
  obtain ⟨hSR, -, hsum, -⟩ := Params.sample_bounds hP
  rw [q8, toneFloor_eq i hSR (by omega) ht (abs_amplitude_le (by omega)), Int.cast_natCast, Int.cast_natCast]

theorem q16_eq_trunc (hP : P.wellFormed = true) (i : Nibble) (ht : t < P.N) :
    q16 P i t = trunc (P.AMP16 * waveform (toneFreq P i) P.SR P.N t) := by
  obtain ⟨hN, hF, -⟩ := Params.size_bounds hP
  obtain ⟨hSR, -, -, hA⟩ := Params.sample_bounds hP
  have hneg : |((-P.AMP16 : ℤ) : ℝ)| ≤ 2 ^ 15 := by
    rw [Int.cast_neg, abs_neg]
    exact abs_amplitude_le hA
  rw [q16, toneFloor_eq i hSR (by omega) ht (abs_amplitude_le hA), toneFloor_eq i hSR (by omega) ht hneg,
    trunc_eq_floors, Int.cast_neg, Int.cast_natCast, Int.cast_zero, add_zero, add_zero, neg_mul]

theorem q8_mem (hP : P.wellFormed = true) (i : Nibble) (ht : t < P.N) :
    (P.BIAS8 : ℤ) - P.AMP8 ≤ q8 P i t ∧ q8 P i t ≤ P.BIAS8 + P.AMP8 := by
  obtain ⟨hlow, hhigh⟩ := amplitude_mul_mem P.AMP8 (abs_waveform_le_one (toneFreq P i) P.SR P.N t)
  rw [q8_eq_floor hP i ht]
  constructor
  · rw [Int.le_floor]; push_cast; linarith
  · rw [Int.floor_le_iff]; push_cast; linarith

theorem q16_mem (hP : P.wellFormed = true) (i : Nibble) (ht : t < P.N) :
    -(P.AMP16 : ℤ) ≤ q16 P i t ∧ q16 P i t ≤ P.AMP16 := by
  obtain ⟨hlow, hhigh⟩ := amplitude_mul_mem P.AMP16 (abs_waveform_le_one (toneFreq P i) P.SR P.N t)
  rw [q16_eq_trunc hP i ht]
  exact trunc_mem (by push_cast; exact hlow) (by push_cast; exact hhigh)

end

/-- Settles O30: the floor and the truncation are those of `toneFloor_eq`, and the waveform lies in -1..1. -/
theorem romSamplesQuantizeTheWaveform : Obligations.RomSamplesQuantizeTheWaveform := by
  unfold Obligations.RomSamplesQuantizeTheWaveform
  intro P i t hP ht v
  obtain ⟨-, hAB, hsum, -⟩ := Params.sample_bounds hP
  obtain ⟨hlow, hhigh⟩ := q8_mem hP i ht
  exact ⟨q8_eq_floor hP i ht, q16_eq_trunc hP i ht, hlow, hhigh, by omega, by omega, q16_mem hP i ht⟩

end Sys2Proof.Machine
end

section
/-! PROOFS. An encoded stream cuts into the tones of its nibbles (O59). -/

namespace Sys2Proof.Machine

/-- Cutting windows of one length laid end to end gives them back. -/
theorem windowsOf_flatten {len : Nat} (hlen : 0 < len) {ws : List (List Byte)} (hws : ∀ w ∈ ws, w.length = len)
    {n : Nat} (hn : ws.length ≤ n) : windowsOf len n ws.flatten = ws := by
  induction ws generalizing n with
  | nil =>
    cases n with
    | zero => rfl
    | succ n => rw [windowsOf, List.flatten_nil, if_neg (by rw [List.length_nil]; omega)]
  | cons w ws ih =>
    obtain ⟨hw, hws⟩ := List.forall_mem_cons.1 hws
    obtain ⟨n, rfl⟩ := Nat.exists_eq_add_one_of_ne_zero (n := n) (by rw [List.length_cons] at hn; omega)
    have hfit : len ≤ (w :: ws).flatten.length ∧ 0 < len := ⟨by simp [hw], hlen⟩
    rw [windowsOf, if_pos hfit, List.flatten_cons, List.take_left' hw, List.drop_left' hw,
      ih hws (Nat.le_of_succ_le_succ hn)]

theorem bps_pos (d : Depth) : 0 < bps d := by
  unfold bps
  split <;> decide

theorem length_payloadNibbles (p : List Byte) : (payloadNibbles p).length = 2 * p.length := by
  simp [payloadNibbles, byteNibbles, List.length_flatMap, Nat.mul_comm]

theorem length_encodeStream (P : Params) {header : List Byte} (hh : header.length = headerLen) (d : Depth)
    (p : List Byte) : (encodeStream P header d p).length = 24 + 2 * p.length * (P.N * bps d) := by
  have htones : ((payloadNibbles p).flatMap (romEntry P d)).length = (payloadNibbles p).length * (P.N * bps d) := by
    simp [List.length_flatMap]
  rw [encodeStream, List.length_append, hh, htones, length_payloadNibbles, headerLen]

/-- Settles O59: behind the header stand the tones, end to end, each of the window's length because N = F. -/
theorem encodedStreamCutsIntoItsTones : Obligations.EncodedStreamCutsIntoItsTones := by
  unfold Obligations.EncodedStreamCutsIntoItsTones
  intro P header d p hP hh
  obtain ⟨hN, hF, -⟩ := Params.size_bounds hP
  have hlen : 0 < P.F * bps d := Nat.mul_pos (by omega) (bps_pos d)
  have hsize := length_encodeStream P hh d p
  have hcount : ((payloadNibbles p).map (romEntry P d)).length ≤ (encodeStream P header d p).length := by
    have hnibbles := Nat.le_mul_of_pos_right (2 * p.length) hlen
    rw [List.length_map, length_payloadNibbles, hsize, hN]
    omega
  refine ⟨by rw [hsize, Nat.mul_assoc _ P.N], ?_⟩
  have hbody : (encodeStream P header d p).drop headerLen = ((payloadNibbles p).map (romEntry P d)).flatten := by
    rw [encodeStream, List.drop_left' hh, List.flatMap_def]
  rw [streamWindows, hbody]
  refine windowsOf_flatten hlen (fun w hw => ?_) hcount
  obtain ⟨i, -, rfl⟩ := List.mem_map.1 hw
  rw [length_romEntry, hN]

end Sys2Proof.Machine
end

section
/-! PROOFS. The register region through the port: a whole-word access to an aligned offset is the register's own read or
write, and with it what each register keeps and reads as (O15 to O20), the interrupt output (O21) and the reset values
(O52, O54). -/

namespace Sys2Proof

/-- No parameter of a valid record is larger than its register (00_scope.md R5). -/
theorem Params.register_bounds {P : Params} (h : P.wellFormed = true) :
    P.SR < 2 ^ 32 ∧ P.N < 2 ^ 32 ∧ P.F < 2 ^ 32 ∧ P.BASE < 2 ^ 32 ∧ P.STEP < 2 ^ 32 ∧ P.NT = 16 ∧
      P.AMP8 < 2 ^ 32 ∧ P.BIAS8 < 2 ^ 32 ∧ P.AMP16 < 2 ^ 32 := by
  simp only [Params.wellFormed, Params.rateOk, Params.lengthOk, Params.fftOk, Params.baseOk, Params.stepOk,
    Params.tonesOk, Params.amp8Ok, Params.amp16Ok, Bool.and_eq_true, decide_eq_true_eq] at h
  omega

end Sys2Proof

namespace Sys2Proof.Machine

/-! ### A register access at the port -/

theorem regionOf_of_lt {a : Addr} (h : a.toNat < 0x100) : regionOf a = .regs := by
  rw [regionOf, if_pos h]

/-- A whole-word read at an aligned register offset is the register's read (20_memory.md R83). -/
theorem transact_readReg (P : Params) {a : Addr} (hr : regionOf a = .regs) (ha : a.toNat % 4 = 0) (s : State) :
    transact P (.read a 4) s = (s, okay (readReg P (regAt a.toNat) s)) := by
  have href : refusal (.read a 4) s = none := by
    simp [refusal, Transaction.badWidth, Transaction.addr, ha, hr]
  simp only [transact, href, readData, hr, okay]

theorem transact_statusWrite (P : Params) (v : Word) (s : State) :
    transact P (statusWrite v) s = (writeStatus v s, okay 0) :=
  transact_writeReg P (a := addrStatus) (by decide) (by decide) v s

theorem transact_ctrlWrite (P : Params) (v : Word) (s : State) :
    transact P (.write addrCtrl 4 0xF v) s = ({ s with ctrl := v &&& ctrlMask }, okay 0) :=
  transact_writeReg P (a := addrCtrl) (by decide) (by decide) v s

theorem transact_mapInLoWrite (P : Params) (v : Word) (s : State) :
    transact P (.write addrMapInLo 4 0xF v) s = ({ s with mapIn := withLo s.mapIn v }, okay 0) :=
  transact_writeReg P (a := addrMapInLo) (by decide) (by decide) v s

theorem transact_mapInHiWrite (P : Params) (v : Word) (s : State) :
    transact P (.write addrMapInHi 4 0xF v) s = ({ s with mapIn := withHi s.mapIn v }, okay 0) :=
  transact_writeReg P (a := addrMapInHi) (by decide) (by decide) v s

/-! ### Registers that ignore writes -/

/-- Five registers take a write, every other one ignores it (10_state.md R35). -/
theorem writeReg_readOnly {r : Reg} (hstatus : r ≠ .status) (hctrl : r ≠ .ctrl) (hcmd : r ≠ .cmd)
    (hlo : r ≠ .mapInLo) (hhi : r ≠ .mapInHi) (v : Word) (s : State) : writeReg r v s = s := by
  cases r with
  | status => exact absurd rfl hstatus
  | ctrl => exact absurd rfl hctrl
  | cmd => exact absurd rfl hcmd
  | mapInLo => exact absurd rfl hlo
  | mapInHi => exact absurd rfl hhi
  | _ => rfl

/-- Settles O15: no offset but the five selects a register that a write changes. -/
theorem readOnlyRegistersIgnoreWrites : Obligations.ReadOnlyRegistersIgnoreWrites := by
  unfold Obligations.ReadOnlyRegistersIgnoreWrites
  intro P s a v ha hlt hstatus hctrl hcmd hlo hhi
  obtain ⟨sel4, sel8, selC, sel18, sel1C⟩ := regAt_writable (off := a.toNat)
  rw [transact_writeReg P (regionOf_of_lt hlt) ha,
    writeReg_readOnly (mt sel4 hstatus) (mt sel8 hctrl) (mt selC hcmd) (mt sel18 hlo) (mt sel1C hhi)]

/-! ### CTRL -/

/-- The bits of CTRL that are not reserved are bits 0 and 1. -/
theorem getLsbD_ctrlMask (k : Nat) : ctrlMask.getLsbD k = decide (k < 2) := by
  match k with
  | 0 | 1 => rfl
  | k + 2 =>
    have hpow : (3 : Nat) < 2 ^ (k + 2) := calc
      3 < 2 ^ 2 := by decide
      _ ≤ 2 ^ (k + 2) := Nat.pow_le_pow_right two_pos (Nat.le_add_left 2 k)
    rw [decide_eq_false (by omega)]
    exact Nat.testBit_lt_two_pow hpow

/-- Settles O16: a write masks the reserved bits, and masking again on the read changes nothing. -/
theorem ctrlWriteAndReadBack : Obligations.CtrlWriteAndReadBack := by
  unfold Obligations.CtrlWriteAndReadBack
  intro P s v
  have hbit (k : Nat) : (v &&& ctrlMask).getLsbD k = (v.getLsbD k && decide (k < 2)) := by
    rw [BitVec.getLsbD_and, getLsbD_ctrlMask]
  have hlow {k : Nat} (hk : k < 2) : (v &&& ctrlMask).getLsbD k = v.getLsbD k := by
    rw [hbit, decide_eq_true hk, Bool.and_true]
  refine ⟨v &&& ctrlMask, transact_ctrlWrite P v s, hlow (by decide), hlow (by decide), fun k hk => ?_, ?_, ?_⟩
  · rw [hbit, decide_eq_false hk.not_gt, Bool.and_false]
  · have hmask : v &&& ctrlMask &&& ctrlMask = v &&& ctrlMask := by rw [BitVec.and_assoc, BitVec.and_self]
    rw [transact_readReg P (a := addrCtrl) (by decide) (by decide)]
    exact congrArg (Prod.mk _ ∘ okay) hmask
  · rw [irq, doneIe, errIe, hlow (by decide), hlow (by decide)]

/-! ### MAP_IN -/

theorem loHalf_withLo (x : F64) (v : Word) : loHalf (withLo x v) = v := BitVec.extractLsb'_append_eq_right

theorem hiHalf_withLo (x : F64) (v : Word) : hiHalf (withLo x v) = hiHalf x := BitVec.extractLsb'_append_eq_left

theorem loHalf_withHi (x : F64) (v : Word) : loHalf (withHi x v) = loHalf x := BitVec.extractLsb'_append_eq_right

theorem hiHalf_withHi (x : F64) (v : Word) : hiHalf (withHi x v) = v := BitVec.extractLsb'_append_eq_left

/-- Settles O17: each write replaces one half and leaves the other, so the two together leave nothing of the old
pattern. -/
theorem mapInHalvesAreSeparate : Obligations.MapInHalvesAreSeparate := by
  unfold Obligations.MapInHalvesAreSeparate
  intro P s v w
  refine ⟨⟨_, transact_mapInLoWrite P v s, loHalf_withLo _ _, hiHalf_withLo _ _⟩,
    ⟨_, transact_mapInHiWrite P w s, hiHalf_withHi _ _, loHalf_withHi _ _⟩,
    transact_readReg P (a := addrMapInLo) (by decide) (by decide) s,
    transact_readReg P (a := addrMapInHi) (by decide) (by decide) s, ?_⟩
  simp only [transactAll, transact_mapInLoWrite, transact_mapInHiWrite]
  rw [withHi, loHalf_withLo]

/-! ### STATUS -/

theorem getLsbD_statusWord (s : State) :
    (statusWord s).getLsbD 0 = s.ready ∧ (statusWord s).getLsbD 1 = s.busy ∧ (statusWord s).getLsbD 2 = s.done ∧
      (statusWord s).getLsbD 3 = s.err ∧ (statusWord s).getLsbD 4 = s.peak ∧ (statusWord s).getLsbD 5 = s.nibv ∧
      (statusWord s).getLsbD 6 = s.berr := by
  simp only [statusWord, BitVec.zeroExtend, BitVec.getLsbD_setWidth, BitVec.getLsbD_append,
    BitVec.getLsbD_ofBool]
  simp

/-- STATUS is a word of seven bits with zeros above (10_state.md R37). -/
theorem getLsbD_statusWord_reserved (s : State) {k : Nat} (hk : 7 ≤ k) : (statusWord s).getLsbD k = false := by
  rw [statusWord, BitVec.getLsbD_setWidth, BitVec.getLsbD_of_ge _ k hk, Bool.and_false]

theorem State.ready_eq (s : State) : s.ready = decide (s.eng ≠ .init) := by
  unfold State.ready
  cases s.eng <;> rfl

theorem State.busy_eq (s : State) : s.busy = decide (s.eng ≠ .idle) := by
  unfold State.busy
  cases s.eng <;> rfl

/-- Settles O19: a read of STATUS returns the status word, and its bits are the flags. -/
theorem statusReadsItsFlags : Obligations.StatusReadsItsFlags := by
  unfold Obligations.StatusReadsItsFlags
  intro P s
  obtain ⟨hready, hbusy, hflags⟩ := getLsbD_statusWord s
  obtain ⟨hdone, herr, hpeak, hnibv, hberr⟩ := hflags
  exact ⟨statusWord s, transact_readReg P (a := addrStatus) (by decide) (by decide) s, hready.trans s.ready_eq,
    hbusy.trans s.busy_eq, hdone, herr, hpeak, hnibv, hberr, fun k hk => getLsbD_statusWord_reserved s hk⟩

/-- A flag that a 1 clears. -/
theorem and_not_eq_ite (flag clear : Bool) : (flag && !clear) = if clear then false else flag := by
  cases clear <;> simp

/-- Settles O18: the port hands the write to `writeStatus`, which clears flag by flag. -/
theorem statusWriteClearsFlags : Obligations.StatusWriteClearsFlags := by
  unfold Obligations.StatusWriteClearsFlags
  intro P s v
  rw [transact_statusWrite, writeStatus]
  simp only [and_not_eq_ite]

/-! ### The interrupt output -/

/-- Settles O21: IRQ reads nothing but the current state. -/
theorem interruptOutput : Obligations.InterruptOutput := by
  unfold Obligations.InterruptOutput
  refine ⟨fun s => ?_, rfl⟩
  rw [irq, doneIe, errIe, Bool.or_eq_true, Bool.and_eq_true, Bool.and_eq_true]

/-! ### Constants and result registers -/

/-- A register that reads a constant and ignores writes. -/
theorem transact_constantReg {P : Params} {s : State} {a : Addr} {r : Reg} {n : Nat} (hregion : regionOf a = .regs)
    (ha : a.toNat % 4 = 0) (hr : regAt a.toNat = r) (hread : readReg P r s = BitVec.ofNat 32 n)
    (hwrite : ∀ v, writeReg r v s = s) (hn : n < 2 ^ 32) :
    ∃ w : Word, w.toNat = n ∧ transact P (.read a 4) s = (s, okay w) ∧
      ∀ v, transact P (.write a 4 0xF v) s = (s, okay 0) := by
  refine ⟨BitVec.ofNat 32 n, Nat.mod_eq_of_lt hn, ?_, fun v => ?_⟩
  · rw [transact_readReg P hregion ha, hr, hread]
  · rw [transact_writeReg P hregion ha, hr, hwrite]

/-- An offset without a name (10_state.md R59). -/
theorem regAt_reserved {off : Nat} (ha : off % 4 = 0) (h : off = 0x038 ∨ off = 0x03C ∨ (0x064 ≤ off ∧ off ≤ 0x0FC)) :
    regAt off = .reserved := by
  unfold regAt
  split
  case h_24 => rfl
  all_goals omega

/-- Settles O20: every clause is the register's own read at its offset. -/
theorem readOnlyRegistersReadTheirValues : Obligations.ReadOnlyRegistersReadTheirValues := by
  unfold Obligations.ReadOnlyRegistersReadTheirValues
  refine ⟨fun P s hP => ?_, rfl, fun P s => ?_, fun P s a ha hoff => ?_⟩
  · obtain ⟨hSR, hN, hF, hBASE, hSTEP, hNT, hAMP8, hBIAS8, hAMP16⟩ := Params.register_bounds hP
    have constantReg (r : Reg) (off n : Nat) := transact_constantReg (P := P) (s := s) (a := BitVec.ofNat 18 off)
      (r := r) (n := n)
    simp only [List.mem_cons, List.not_mem_nil, or_false, forall_eq_or_imp, forall_eq]
    exact ⟨constantReg .id _ _ rfl rfl rfl rfl (fun _ => rfl) (by decide),
      constantReg .pSampleRate _ _ rfl rfl rfl rfl (fun _ => rfl) hSR,
      constantReg .pToneLen _ _ rfl rfl rfl rfl (fun _ => rfl) hN,
      constantReg .pFftSize _ _ rfl rfl rfl rfl (fun _ => rfl) hF,
      constantReg .pBaseFreq _ _ rfl rfl rfl rfl (fun _ => rfl) hBASE,
      constantReg .pFreqStep _ _ rfl rfl rfl rfl (fun _ => rfl) hSTEP,
      constantReg .pNumTones _ _ rfl rfl rfl (by rw [readReg, hNT]) (fun _ => rfl) (by decide),
      constantReg .pAmp8 _ _ rfl rfl rfl rfl (fun _ => rfl) hAMP8,
      constantReg .pBias8 _ _ rfl rfl rfl rfl (fun _ => rfl) hBIAS8,
      constantReg .pAmp16 _ _ rfl rfl rfl rfl (fun _ => rfl) hAMP16⟩
  · have hnibble : readReg P .resNibble s = 0#28 ++ s.resNibble :=
      (BitVec.setWidth_eq_append (by decide)).trans (BitVec.cast_eq _ _)
    have read (a : Addr) (hr : regionOf a = .regs) (ha : a.toNat % 4 = 0) := transact_readReg P hr ha s
    exact ⟨read 0x00C rfl rfl, read 0x010 rfl rfl, read 0x014 rfl rfl, read 0x020 rfl rfl,
      hnibble ▸ read 0x024 rfl rfl, read 0x028 rfl rfl, read 0x02C rfl rfl, read 0x030 rfl rfl, read 0x034 rfl rfl⟩
  · have hregion : regionOf a = .regs := regionOf_of_lt (by omega)
    have hreg := regAt_reserved ha hoff
    refine ⟨?_, fun v => ?_⟩
    · rw [transact_readReg P hregion ha, hreg, readReg]
    · rw [transact_writeReg P hregion ha, hreg, writeReg]

/-! ### After reset -/

/-- InitDone shows in STATUS alone (43_control.md R228). -/
theorem readReg_initDone (P : Params) {r : Reg} (h : r ≠ .status) (s : State) :
    readReg P r (initDone s) = readReg P r s := by
  cases r with
  | status => exact absurd rfl h
  | _ => rfl

/-- Behind a reset every register reads as in the reset state (70_reset_and_hazards.md R291). -/
theorem readReg_resetBlock (P : Params) (r : Reg) (s : State) :
    readReg P r (resetBlock s) = readReg P r State.reset := by
  cases r <;> rfl

/-- What a register but STATUS reads after a reset, before and after InitDone (70_reset_and_hazards.md R291). -/
theorem transact_read_afterReset (P : Params) {a : Addr} (hr : regionOf a = .regs) (ha : a.toNat % 4 = 0)
    (hs : regAt a.toNat ≠ .status) {s u : State} (hu : u = resetBlock s ∨ u = initDone (resetBlock s)) :
    transact P (.read a 4) u = (u, okay (readReg P (regAt a.toNat) State.reset)) := by
  rw [transact_readReg P hr ha]
  rcases hu with rfl | rfl
  · rw [readReg_resetBlock]
  · rw [readReg_initDone P hs, readReg_resetBlock]

/-- STATUS after a reset: BUSY until InitDone, READY from then on (70_reset_and_hazards.md R291). -/
theorem statusWord_afterReset {s u : State} (hu : u = resetBlock s ∨ u = initDone (resetBlock s)) :
    statusWord u = if u.eng = .init then 0x00000002 else 0x00000001 := by
  rcases hu with rfl | rfl
  · exact (by decide : statusWord State.reset = 0x00000002)
  · exact (by decide : statusWord (initDone State.reset) = 0x00000001)

/-- Settles O52: a reset puts the reset state behind the host and the schedule, and the registers read that state. -/
theorem resetReplacesTheWholeState : Obligations.ResetReplacesTheWholeState := by
  unfold Obligations.ResetReplacesTheWholeState
  intro s
  refine ⟨resetBlock s, rfl, fun I => rfl, ⟨rfl, rfl, rfl, rfl, rfl, rfl, rfl, rfl, rfl, rfl, rfl, rfl, rfl, rfl, rfl,
    rfl, rfl⟩, fun u hmem => ?_⟩
  have hu : u = resetBlock s ∨ u = initDone (resetBlock s) := by simpa using hmem
  have read {a : Addr} {v : Word} (h : regionOf a = .regs ∧ a.toNat % 4 = 0 ∧ regAt a.toNat ≠ .status ∧
      readReg Config.params (regAt a.toNat) State.reset = v) :
      transact Config.params (.read a 4) u = (u, okay v) := by
    obtain ⟨hr, ha, hs, rfl⟩ := h
    exact transact_read_afterReset Config.params hr ha hs hu
  refine ⟨fun a ha => read ?_, ?_, read ?_, fun r hr => read ?_, fun a ha hlow hhigh => read ?_⟩
  · revert a; exact List.forall_iff_forall_mem.1 (by decide +kernel)
  · rw [← statusWord_afterReset hu]
    exact transact_readReg Config.params (a := addrStatus) (by decide) (by decide) u
  · decide +kernel
  · revert r; exact List.forall_iff_forall_mem.1 (by decide +kernel)
  · have hreg := regAt_reserved ha (.inr (.inr ⟨hlow, hhigh⟩))
    exact ⟨regionOf_of_lt (by omega), ha, by rw [hreg]; decide, by rw [hreg]; rfl⟩

/-- Settles O54: the invariant does not look at the host or the schedule. -/
theorem resetMeetsTheInvariant : Obligations.ResetMeetsTheInvariant := by
  unfold Obligations.ResetMeetsTheInvariant
  exact fun h g => ((State.InvAt.reset Config.params).withHost h).withSched g

end Sys2Proof.Machine
end

section
/-! PROOFS. What one step does, said once with its cause (`StepEffect`); from it, who moves ENG
(O47), who writes the results (O49), and who writes the error state and the settings (O60). -/

namespace Sys2Proof.Machine

/-! ### What a command leaves unchanged -/

/-- What each command can write, the values of the results left unspecified. -/
theorem exec_next_cases {i : Instr} {s u : State} (h : exec i s = .next u) :
    (i = .nop ∧ u = { s with done := true }) ∨
    (∃ d sl n, i = .synth d sl n ∧ u = commitSynth Config.params d sl n s) ∨
    (∃ d sl r, i = .detect d sl ∧ u = commitDetect r s) ∨
    (∃ r, i = .map ∧ u = commitMap r s) ∨
    (i = .sreset ∧ execSreset s = .next u) := by
  rcases exec_cases i s with ⟨hi, e⟩ | ⟨d, sl, n, hi, e⟩ | ⟨d, sl, hi, e⟩ | ⟨hi, e⟩ | ⟨hi, e⟩ <;> rw [e] at h
  · exact .inl ⟨hi, (Host.Outcome.next.inj h).symm⟩
  · exact .inr (.inl ⟨d, sl, n, hi, (Host.Outcome.next.inj h).symm⟩)
  · exact .inr (.inr (.inl ⟨d, sl, _, hi, (Host.Outcome.next.inj h).symm⟩))
  · exact .inr (.inr (.inr (.inl ⟨_, hi, (Host.Outcome.next.inj h).symm⟩)))
  · exact .inr (.inr (.inr (.inr ⟨hi, h⟩)))

section
variable {i : Instr} {s u : State}

/-- No command writes the host's settings or LATCH (43_control.md R227). -/
theorem exec_keeps_settings (h : exec i s = .next u) :
    u.ctrl = s.ctrl ∧ u.mapIn = s.mapIn ∧ u.latch = s.latch := by
  rcases exec_next_cases h with ⟨-, rfl⟩ | ⟨d, sl, n, -, rfl⟩ | ⟨d, sl, r, -, rfl⟩ | ⟨r, -, rfl⟩ | ⟨-, ⟨⟩⟩ <;>
    exact ⟨rfl, rfl, rfl⟩

/-- SRESET clears both error flags, and no other command touches the error state (43_control.md R230). -/
theorem exec_errors (h : exec i s = .next u) :
    (i = .sreset ∧ u.err = false ∧ u.berr = false) ∨
      (u.err = s.err ∧ u.errinfo = s.errinfo ∧ u.errCmd = s.errCmd ∧ u.berr = s.berr) := by
  rcases exec_next_cases h with ⟨-, rfl⟩ | ⟨d, sl, n, -, rfl⟩ | ⟨d, sl, r, -, rfl⟩ | ⟨r, -, rfl⟩ | ⟨hi, ⟨⟩⟩
  case inr.inr.inr.inr => exact .inl ⟨hi, rfl, rfl⟩
  all_goals exact .inr ⟨rfl, rfl, rfl, rfl⟩

/-- DETECT and SRESET write every result register, MAP the nibble alone, the others none (10_state.md R51 to R54). -/
theorem exec_results (h : exec i s = .next u) :
    ((∃ d sl, i = .detect d sl) ∨ i = .sreset) ∨
      (u.resPeak = s.resPeak ∧ u.resCorr = s.resCorr ∧ u.resFreq = s.resFreq ∧ u.peak = s.peak) ∧
        (i = .map ∨ (u.resNibble = s.resNibble ∧ u.nibv = s.nibv)) := by
  rcases exec_next_cases h with ⟨-, rfl⟩ | ⟨d, sl, n, -, rfl⟩ | ⟨d, sl, r, hi, -⟩ | ⟨r, hi, rfl⟩ | ⟨hi, -⟩
  · exact .inr ⟨⟨rfl, rfl, rfl, rfl⟩, .inr ⟨rfl, rfl⟩⟩
  · exact .inr ⟨⟨rfl, rfl, rfl, rfl⟩, .inr ⟨rfl, rfl⟩⟩
  · exact .inl (.inl ⟨d, sl, hi⟩)
  · exact .inr ⟨⟨rfl, rfl, rfl, rfl⟩, .inl hi⟩
  · exact .inl (.inr hi)

end

/-! ### The effect of a step, with its cause -/

/-- The state in which a scheduled turn is taken: `s` with that turn off the schedule. -/
abbrev State.inTurn (s : State) : State := { s with sched := s.sched.tail }

/-- What a step from `s` can lead to, one constructor a cause (00_scope.md R8, 20_memory.md R98). A turn of the host
leaves some host agent `h` behind. -/
inductive StepEffect (s : State) : State → Prop where
  /-- The reset input. -/
  | reset : (nextTurn s).1 = .reset → StepEffect s (resetBlock s.inTurn)
  /-- InitDone. -/
  | initDone : (nextTurn s).1 = .engine → s.eng = .init → StepEffect s (initDone s.inTurn)
  /-- The engine has no enabled step. -/
  | engineIdle : (nextTurn s).1 = .engine → s.eng = .idle → StepEffect s s.inTurn
  /-- Complete. -/
  | complete {i : Instr} {u : State} : (nextTurn s).1 = .engine → s.eng = .busy → latchedInstr s.latch = some i →
      exec i s.inTurn = .next u → StepEffect s (finishCommand u)
  /-- The host does nothing, reads, or makes a write that is ignored. -/
  | hostQuiet (h : HostAgent) : (nextTurn s).1 = .host → StepEffect s { s.inTurn with host := h }
  /-- A refused transaction. -/
  | busError (h : HostAgent) {t : Transaction} : (nextTurn s).1 = .host → nextTransaction s = some t →
      (transact Config.params t s).2.resp = .slverr → StepEffect s { raiseBusError s.inTurn with host := h }
  /-- A write of STATUS. -/
  | statusWrite (h : HostAgent) {v : Word} : (nextTurn s).1 = .host → nextTransaction s = some (statusWrite v) →
      StepEffect s { writeStatus v s.inTurn with host := h }
  /-- A write of CTRL. -/
  | ctrlWrite (h : HostAgent) {v : Word} : (nextTurn s).1 = .host →
      nextTransaction s = some (.write addrCtrl 4 0xF v) →
      StepEffect s { s.inTurn with ctrl := v &&& ctrlMask, host := h }
  /-- A rejected write of CMD. -/
  | rejected (h : HostAgent) (e : CmdErr) {c : Word} : RejectsCommand s → nextTransaction s = some (cmdWrite c) →
      StepEffect s { raiseCmdError e c s.inTurn with host := h }
  /-- An accepted write of CMD. -/
  | accepted (h : HostAgent) {c : Word} {i : Instr} : (nextTurn s).1 = .host → s.eng = .idle →
      nextTransaction s = some (cmdWrite c) → decode c = .cmd i →
      StepEffect s { startCommand c s.inTurn with host := h }
  /-- A write of a half of MAP_IN. -/
  | mapInWrite (h : HostAgent) (x : F64) {v : Word} : (nextTurn s).1 = .host →
      (nextTransaction s = some (.write addrMapInLo 4 0xF v) ∨
        nextTransaction s = some (.write addrMapInHi 4 0xF v)) →
      StepEffect s { s.inTurn with mapIn := x, host := h }
  /-- A write of WINBUF. -/
  | winbufWrite (h : HostAgent) (m : Memory) : (nextTurn s).1 = .host → s.eng = .idle →
      StepEffect s { s.inTurn with winbuf := m, host := h }

/-- A CMD write is rejected, or it finds an idle engine and a command (43_control.md R221). -/
theorem acceptCommand_rejects_or_starts (c : Word) (s : State) :
    (¬(s.eng = .idle ∧ ∃ i, decode c = .cmd i) ∧ ∃ e, acceptCommand c s = raiseCmdError e c s) ∨
      (s.eng = .idle ∧ (∃ i, decode c = .cmd i) ∧ acceptCommand c s = startCommand c s) := by
  rcases acceptCommand_cases c s with ⟨he, e⟩ | ⟨he, e⟩ | ⟨-, hd, e⟩ | ⟨-, hd, e⟩ | hstart
  · exact .inl ⟨fun ⟨hidle, _⟩ => (nomatch he.symm.trans hidle), _, e⟩
  · exact .inl ⟨fun ⟨hidle, _⟩ => (nomatch he.symm.trans hidle), _, e⟩
  · exact .inl ⟨fun ⟨_, i, hi⟩ => (nomatch hd.symm.trans hi), _, e⟩
  · exact .inl ⟨fun ⟨_, i, hi⟩ => (nomatch hd.symm.trans hi), _, e⟩
  · exact .inr hstart

/-- The port answers SLVERR exactly when it refuses (60_exceptions.md R262). -/
theorem transact_slverr_iff (P : Params) (t : Transaction) (s : State) :
    (transact P t s).2.resp = .slverr ↔ (refusal t s).isSome := by
  rcases transact_cases P t s with ⟨hr, e⟩ | ⟨a, size, -, hr, e⟩ | ⟨a, size, strobe, v, -, hr, e⟩ <;> simp [e, hr]

/-- A turn of the host, taken from the schedule. -/
theorem hostTurn_effect {s : State} (hg : (nextTurn s).1 = .host) :
    StepEffect s (hostTurn Config.params s.inTurn) := by
  rcases hostTurn_transaction Config.params s.inTurn with ⟨-, h, e⟩ | ⟨tr, h, htr, e⟩ <;> rw [e]
  · exact .hostQuiet h hg
  · have hnext : nextTransaction s = some tr := htr
    rcases transact_source Config.params tr s.inTurn with ⟨hresp, e⟩ | e | ⟨v, rfl, e⟩ | ⟨v, rfl, e⟩ | ⟨c, rfl, e⟩ |
      ⟨v, rfl, e⟩ | ⟨v, rfl, e⟩ | ⟨o, v, hidle, -, e⟩ <;> rw [e]
    · have hrefused : (refusal tr s).isSome := (transact_slverr_iff Config.params tr s.inTurn).1 hresp
      exact .busError h hg hnext ((transact_slverr_iff Config.params tr s).2 hrefused)
    · exact .hostQuiet h hg
    · exact .statusWrite h hg hnext
    · exact .ctrlWrite h hg hnext
    · rcases acceptCommand_rejects_or_starts c s.inTurn with ⟨hno, code, e⟩ | ⟨hidle, ⟨i, hd⟩, e⟩ <;> rw [e]
      · exact .rejected h code ⟨hg, c, hnext, hno⟩ hnext
      · exact .accepted h hg hidle hnext hd
    · exact .mapInWrite h _ hg (.inl hnext)
    · exact .mapInWrite h _ hg (.inr hnext)
    · exact .winbufWrite h _ hg hidle

/-- Bit 3 of a STATUS write clears ERR (10_state.md R45). -/
theorem writeStatus_clears_err {v : Word} (hv : v.getLsbD 3 = true) (s : State) : (writeStatus v s).err = false := by
  rw [writeStatus_err, hv, Bool.not_true, Bool.and_false]

/-- A STATUS write without bit 3 keeps ERR and what it captured (10_state.md R45). -/
theorem writeStatus_keeps_err {v : Word} (hv : v.getLsbD 3 = false) (s : State) :
    (writeStatus v s).err = s.err ∧ (writeStatus v s).errinfo = s.errinfo ∧ (writeStatus v s).errCmd = s.errCmd := by
  rw [writeStatus_err, writeStatus_errinfo, writeStatus_errCmd, hv, if_neg Bool.false_ne_true,
    if_neg Bool.false_ne_true, Bool.not_false, Bool.and_true]
  exact ⟨rfl, rfl, rfl⟩

theorem turn_of_step {s t : State} (h : step s = .next t) : turn (nextTurn s).1 s.inTurn = .next t := by
  rw [step_eq, nextTurn_state] at h
  exact h

theorem step_effect {s t : State} (h : step s = .next t) : StepEffect s t := by
  rcases turn_next (turn_of_step h) with ⟨hg, rfl⟩ | ⟨hg, he, rfl⟩ | ⟨hg, he, rfl⟩ | ⟨hg, he, hc⟩ | ⟨hg, rfl⟩
  · exact hostTurn_effect hg
  · exact .initDone hg he
  · exact .engineIdle hg he
  · obtain ⟨i, u, hl, hu, rfl⟩ := complete_next hc
    exact .complete hg he hl hu
  · exact .reset hg

namespace StepEffect

variable {s t : State}

/-! ### ENG (O47) -/

/-- The transitions of ENG and their causes (10_state.md R31). -/
theorem eng_change (h : StepEffect s t) (hne : t.eng ≠ s.eng) :
    ((nextTurn s).1 = .reset ∧ t.eng = .init) ∨
    ((nextTurn s).1 = .engine ∧ s.eng = .init ∧ t.eng = .idle) ∨
    ((nextTurn s).1 = .engine ∧ s.eng = .busy ∧ t.eng = .idle) ∨
    ((nextTurn s).1 = .host ∧ s.eng = .idle ∧ t.eng = .busy ∧
      ∃ c i, nextTransaction s = some (cmdWrite c) ∧ decode c = .cmd i ∧ latchedInstr t.latch = some i) := by
  cases h with
  | reset hg => exact .inl ⟨hg, rfl⟩
  | initDone hg he => exact .inr (.inl ⟨hg, he, rfl⟩)
  | complete hg he _ _ => exact .inr (.inr (.inl ⟨hg, he, rfl⟩))
  | accepted h hg he hnext hd =>
    exact .inr (.inr (.inr ⟨hg, he, rfl, _, _, hnext, hd, latchedInstr_latchOf hd s.inTurn⟩))
  | rejected h e _ _ => exact absurd (raiseCmdError_eng e _ s.inTurn) hne
  | _ => exact absurd rfl hne

/-! ### The result registers (O49) -/

/-- The results change in the completion of a command alone. -/
theorem results_kept_or_completes (h : StepEffect s t) (hr : (nextTurn s).1 ≠ .reset) :
    ((nextTurn s).1 = .engine ∧ s.eng = .busy ∧ ∃ i u, latchedInstr s.latch = some i ∧ exec i s.inTurn = .next u ∧
      t = finishCommand u) ∨
    (t.resPeak = s.resPeak ∧ t.resCorr = s.resCorr ∧ t.resFreq = s.resFreq ∧ t.peak = s.peak ∧
      t.resNibble = s.resNibble ∧ t.nibv = s.nibv) := by
  cases h with
  | reset hg => exact absurd hg hr
  | complete hg he hl hu => exact .inl ⟨hg, he, _, _, hl, hu, rfl⟩
  | rejected h e _ _ => right; simp
  | _ => exact .inr ⟨rfl, rfl, rfl, rfl, rfl, rfl⟩

/-! ### The error state and the settings (O60) -/

/-- ERR and its registers stay, or a rejection sets ERR and keeps what an earlier one captured, or ERR is cleared
(10_state.md R41, 60_exceptions.md R254). -/
theorem errors_cases (h : StepEffect s t) (hr : (nextTurn s).1 ≠ .reset) :
    (t.err = s.err ∧ t.errinfo = s.errinfo ∧ t.errCmd = s.errCmd) ∨
    (RejectsCommand s ∧ t.err = true ∧
      (s.err = true → t.errCmd = s.errCmd ∧ errCode t.errinfo = errCode s.errinfo)) ∨
    (ClearsFlag 3 s ∧ t.err = false) := by
  cases h with
  | reset hg => exact absurd hg hr
  | complete hg he hl hu =>
    rcases exec_errors hu with ⟨rfl, herr, -⟩ | ⟨herr, hinfo, hcmd, -⟩
    · exact .inr (.inr ⟨.inr ⟨hg, he, hl⟩, herr⟩)
    · exact .inl ⟨herr, hinfo, hcmd⟩
  | @statusWrite h v hg hnext =>
    cases hv : v.getLsbD 3 with
    | true => exact .inr (.inr ⟨.inl ⟨hg, v, hnext, hv⟩, writeStatus_clears_err hv s.inTurn⟩)
    | false => exact .inl (writeStatus_keeps_err hv s.inTurn)
  | rejected h e hrej _ =>
    exact .inr (.inl ⟨hrej, by simp, fun herr => by simp [herr, errCode_errinfoOverflow]⟩)
  | _ => exact .inl ⟨rfl, rfl, rfl⟩

/-- BERR stays, or a refused transaction sets it, or it is cleared (10_state.md R44). -/
theorem berr_cases (h : StepEffect s t) (hr : (nextTurn s).1 ≠ .reset) :
    t.berr = s.berr ∨
    (t.berr = true ∧ (nextTurn s).1 = .host ∧
      ∃ tr, nextTransaction s = some tr ∧ (transact Config.params tr s).2.resp = .slverr) ∨
    (ClearsFlag 6 s ∧ t.berr = false) := by
  cases h with
  | reset hg => exact absurd hg hr
  | complete hg he hl hu =>
    rcases exec_errors hu with ⟨rfl, -, hberr⟩ | ⟨-, -, -, hberr⟩
    · exact .inr (.inr ⟨.inr ⟨hg, he, hl⟩, hberr⟩)
    · exact .inl hberr
  | busError h hg hnext hresp => exact .inr (.inl ⟨rfl, hg, _, hnext, hresp⟩)
  | @statusWrite h v hg hnext =>
    have hberr : (writeStatus v s.inTurn).berr = (s.berr && !v.getLsbD 6) := rfl
    cases hv : v.getLsbD 6 with
    | true => exact .inr (.inr ⟨.inl ⟨hg, v, hnext, hv⟩, by rw [hberr, hv, Bool.not_true, Bool.and_false]⟩)
    | false => exact .inl (by rw [hberr, hv, Bool.not_false, Bool.and_true])
  | rejected h e _ _ => exact .inl (raiseCmdError_berr e _ s.inTurn)
  | _ => exact .inl rfl

/-- CTRL, MAP_IN and LATCH change by the host's writes of CTRL, MAP_IN and CMD alone. -/
theorem settings_change (h : StepEffect s t) (hr : (nextTurn s).1 ≠ .reset) :
    (t.ctrl ≠ s.ctrl → (nextTurn s).1 = .host ∧ ∃ v, nextTransaction s = some (.write addrCtrl 4 0xF v)) ∧
    (t.mapIn ≠ s.mapIn → (nextTurn s).1 = .host ∧ ∃ v,
      nextTransaction s = some (.write addrMapInLo 4 0xF v) ∨
        nextTransaction s = some (.write addrMapInHi 4 0xF v)) ∧
    (t.latch ≠ s.latch → (nextTurn s).1 = .host ∧ s.eng = .idle ∧
      ∃ c i, nextTransaction s = some (cmdWrite c) ∧ decode c = .cmd i) := by
  cases h with
  | reset hg => exact absurd hg hr
  | complete hg he hl hu =>
    obtain ⟨hctrl, hmap, hlatch⟩ := exec_keeps_settings hu
    exact ⟨absurd hctrl, absurd hmap, absurd hlatch⟩
  | ctrlWrite h hg hnext => exact ⟨fun _ => ⟨hg, _, hnext⟩, absurd rfl, absurd rfl⟩
  | mapInWrite h x hg hnext => exact ⟨absurd rfl, fun _ => ⟨hg, _, hnext⟩, absurd rfl⟩
  | accepted h hg he hnext hd => exact ⟨absurd rfl, absurd rfl, fun _ => ⟨hg, he, _, _, hnext, hd⟩⟩
  | rejected h e _ _ =>
    exact ⟨absurd (raiseCmdError_ctrl e _ s.inTurn), absurd (raiseCmdError_mapIn e _ s.inTurn),
      absurd (raiseCmdError_latch e _ s.inTurn)⟩
  | _ => exact ⟨absurd rfl, absurd rfl, absurd rfl⟩

end StepEffect

/-- The host's write of a command word to an idle block has it accepted (43_control.md R221). -/
theorem hostTurn_accepts {P : Params} {s : State} {c : Word} {i : Instr}
    (hnext : nextTransactionAt P s = some (cmdWrite c)) (he : s.eng = .idle) (hd : decode c = .cmd i) :
    (hostTurn P s).eng = .busy := by
  rcases hostTurn_transaction P s with ⟨hnone, -⟩ | ⟨tr, h, htr, e⟩
  · exact nomatch hnone.symm.trans hnext
  · obtain rfl : tr = cmdWrite c := Option.some.inj (htr.symm.trans hnext)
    rw [e, transact_cmdWrite, acceptCommand_idle he hd]
    rfl

/-- The engine's turn ends in IDLE, whatever it did (43_control.md R227, R228). -/
theorem eng_idle_of_engineTurn {s t : State} (h : step s = .next t) (hg : (nextTurn s).1 = .engine) :
    t.eng = .idle := by
  have hturn := turn_of_step h
  rw [hg] at hturn
  rcases turn_next hturn with ⟨hhost, -⟩ | ⟨-, -, rfl⟩ | ⟨-, he, rfl⟩ | ⟨-, -, hc⟩ | ⟨hreset, -⟩
  · cases hhost
  · rfl
  · exact he
  · obtain ⟨i, u, -, -, rfl⟩ := complete_next hc
    rfl
  · cases hreset

/-- Settles O47: `StepEffect.eng_change` for the causes, and the turn itself for each transition. -/
theorem engineTransitions : Obligations.EngineTransitions := by
  unfold Obligations.EngineTransitions
  intro s t h
  have hturn := turn_of_step h
  refine ⟨fun hg => ?_, fun hg _ => eng_idle_of_engineTurn h hg, fun hg _ => eng_idle_of_engineTurn h hg,
    fun hg he ⟨c, i, hnext, hd⟩ => ?_, (step_effect h).eng_change⟩
  · rw [hg] at hturn
    cases hturn
    rfl
  · rw [hg] at hturn
    obtain rfl : hostTurn Config.params s.inTurn = t := Host.Outcome.next.inj hturn
    exact hostTurn_accepts (s := s.inTurn) hnext he hd

/-- Settles O49: the results change in a completion alone, and there as `exec_results` says. -/
theorem resultsChangeOnlyAtTheirCommands : Obligations.ResultsChangeOnlyAtTheirCommands := by
  unfold Obligations.ResultsChangeOnlyAtTheirCommands
  intro s t h hr
  rcases (step_effect h).results_kept_or_completes hr with ⟨hg, he, i, u, hl, hu, rfl⟩ | ⟨hp, hc, hf, hpk, hn, hv⟩
  · rcases exec_results hu with hwriter | ⟨⟨hp, hc, hf, hpk⟩, hnib⟩
    · have hlatched : (∃ d sl, latchedInstr s.latch = some (.detect d sl)) ∨ latchedInstr s.latch = some .sreset :=
        hwriter.imp (fun ⟨d, sl, hi⟩ => ⟨d, sl, hl.trans (congrArg some hi)⟩) (fun hi => hl.trans (congrArg some hi))
      exact ⟨fun _ => ⟨hg, he, rfl, hlatched⟩, fun _ => ⟨hg, he, rfl, hlatched.imp_right .inr⟩⟩
    · refine ⟨fun hne => ?_, fun hne => ?_⟩
      · rcases hne with hne | hne | hne | hne
        exacts [absurd hp hne, absurd hc hne, absurd hf hne, absurd hpk hne]
      · rcases hnib with rfl | ⟨hn, hv⟩
        · exact ⟨hg, he, rfl, .inr (.inl hl)⟩
        · exact hne.elim (absurd hn) (absurd hv)
  · simp [hp, hc, hf, hpk, hn, hv]

/-- Settles O60, part by part from `StepEffect.errors_cases`, `StepEffect.berr_cases` and
`StepEffect.settings_change`. -/
theorem errorsAndSettingsChangeOnlyAsGiven : Obligations.ErrorsAndSettingsChangeOnlyAsGiven := by
  unfold Obligations.ErrorsAndSettingsChangeOnlyAsGiven
  intro s t h hr
  have heff := step_effect h
  refine ⟨fun h0 h1 => ?_, fun h1 h0 => ?_, fun hne => ?_, fun h1 h1' => ?_, fun h0 h1 => ?_, fun h1 h0 => ?_,
    heff.settings_change hr⟩
  · rcases heff.errors_cases hr with ⟨herr, -, -⟩ | ⟨hrej, -, -⟩ | ⟨-, herr⟩
    exacts [(nomatch (h1.symm.trans herr).trans h0), hrej, (nomatch h1.symm.trans herr)]
  · rcases heff.errors_cases hr with ⟨herr, -, -⟩ | ⟨-, herr, -⟩ | ⟨hclear, -⟩
    exacts [(nomatch (h0.symm.trans herr).trans h1), (nomatch h0.symm.trans herr), hclear]
  · rcases heff.errors_cases hr with ⟨-, hinfo, hcmd⟩ | ⟨hrej, -, -⟩ | ⟨hclear, -⟩
    exacts [hne.elim (absurd hinfo) (absurd hcmd), .inl hrej, .inr hclear]
  · rcases heff.errors_cases hr with ⟨-, hinfo, hcmd⟩ | ⟨-, -, hkeep⟩ | ⟨-, herr⟩
    exacts [⟨hcmd, congrArg errCode hinfo⟩, hkeep h1, (nomatch h1'.symm.trans herr)]
  · rcases heff.berr_cases hr with hberr | ⟨-, hrefused⟩ | ⟨-, hberr⟩
    exacts [(nomatch (h1.symm.trans hberr).trans h0), hrefused, (nomatch h1.symm.trans hberr)]
  · rcases heff.berr_cases hr with hberr | ⟨hberr, -, -⟩ | ⟨hclear, -⟩
    exacts [(nomatch (h0.symm.trans hberr).trans h1), (nomatch h0.symm.trans hberr), hclear]

end Sys2Proof.Machine
end

section
/-! PROOFS. The buffers: reads through the port and what they leave (O13), packed words (O14), and who writes the
buffers (O50). -/

namespace Sys2Proof.Machine

/-! ### Reads -/

theorem transact_of_refused (P : Params) {t : Transaction} {s : State} (h : (refusal t s).isSome) :
    transact P t s = (raiseBusError s, slverr) := by
  obtain ⟨e, he⟩ := Option.isSome_iff_exists.1 h
  simp only [transact, he, slverr]

/-- Whether a transaction is refused does not depend on BERR (60_exceptions.md R262). -/
theorem refusal_raiseBusError (t : Transaction) (s : State) : refusal t (raiseBusError s) = refusal t s := rfl

/-- Settles O13: BERR, which a refused read sets, decides no refusal, and a read that is not refused returns the state
it found. -/
theorem readsHaveNoSideEffect : Obligations.ReadsHaveNoSideEffect := by
  unfold Obligations.ReadsHaveNoSideEffect
  intro P a size s
  rcases transact_cases P (.read a size) s with ⟨hr, e⟩ | ⟨_, _, -, -, e⟩ | ⟨_, _, _, _, hwrite, -⟩
  · have hagain : (refusal (.read a size) (raiseBusError s)).isSome := by rwa [refusal_raiseBusError]
    rw [e]
    exact ⟨fun hokay => (nomatch hokay), fun _ => rfl, congrArg Prod.snd (transact_of_refused P hagain)⟩
  · rw [e]
    exact ⟨fun _ => rfl, fun hslverr => (nomatch hslverr), congrArg Prod.snd e⟩
  · exact nomatch hwrite

/-! ### Packed words -/

/-- Byte `k` of a word stored at `o` (20_memory.md R87). -/
theorem Memory.read_writeWord (m : Memory) (o : Nat) (v : Word) {k : Nat} (hk : k < 4) :
    (m.writeWord o v).read (o + k) = v.extractLsb' (24 - 8 * k) 8 := by
  rw [writeWord, read_writeBlock, length_wordBytes, if_pos (by omega), Nat.add_sub_cancel_left]
  match k, hk with
  | 0, _ | 1, _ | 2, _ | 3, _ => rfl

section
variable {a : Addr} {s : State}

/-- An aligned whole-word access to a buffer of an idle block is refused for a write of TONEBUF alone
(60_exceptions.md R261). -/
theorem refusal_of_idle {t : Transaction} (hw : t.badWidth = false) (ha : t.addr.toNat % 4 = 0) (he : s.eng = .idle)
    (hr : regionOf t.addr = .winbuf ∨ (regionOf t.addr = .tonebuf ∧ t.isWrite = false)) : refusal t s = none := by
  have hb : s.busy = false := by rw [State.busy_eq, decide_eq_false (not_not_intro he)]
  rcases hr with hr | ⟨hr, hread⟩
  · simp [refusal, hw, ha, hr, hb]
  · simp [refusal, hw, ha, hr, hb, hread]

theorem transact_winbufRead (P : Params) (hr : regionOf a = .winbuf) (ha : a.toNat % 4 = 0) (he : s.eng = .idle) :
    transact P (.read a 4) s = (s, okay (s.winbuf.readWord (bufferOffset a))) := by
  have href : refusal (.read a 4) s = none := refusal_of_idle rfl ha he (.inl hr)
  simp only [transact, href, readData, hr, okay]

theorem transact_tonebufRead (P : Params) (hr : regionOf a = .tonebuf) (ha : a.toNat % 4 = 0) (he : s.eng = .idle) :
    transact P (.read a 4) s = (s, okay (s.tonebuf.readWord (bufferOffset a))) := by
  have href : refusal (.read a 4) s = none := refusal_of_idle rfl ha he (.inr ⟨hr, rfl⟩)
  simp only [transact, href, readData, hr, okay]

theorem transact_winbufWrite (P : Params) (hr : regionOf a = .winbuf) (ha : a.toNat % 4 = 0) (he : s.eng = .idle)
    (v : Word) : transact P (.write a 4 0xF v) s =
      ({ s with winbuf := s.winbuf.writeWord (bufferOffset a) v }, okay 0) := by
  have href : refusal (.write a 4 0xF v) s = none := refusal_of_idle rfl ha he (.inl hr)
  simp only [transact, href, writeData, hr, okay]

end

/-- The address of WINBUF offset `o` (20_memory.md R82, R84). -/
theorem winbuf_addr {o : Nat} (ho : o < 65536) :
    regionOf (BitVec.ofNat 18 (0x10000 + o)) = .winbuf ∧ bufferOffset (BitVec.ofNat 18 (0x10000 + o)) = o ∧
      (BitVec.ofNat 18 (0x10000 + o)).toNat % 4 = o % 4 := by
  have haddr : (BitVec.ofNat 18 (0x10000 + o)).toNat = 0x10000 + o := Nat.mod_eq_of_lt (by omega)
  rw [regionOf, bufferOffset, bufferBytes, haddr, if_neg (by omega), if_neg (by omega), if_pos (by omega)]
  exact ⟨rfl, by omega, by omega⟩

/-- The address of TONEBUF offset `o` (20_memory.md R82, R85). -/
theorem tonebuf_addr {o : Nat} (ho : o < 65536) :
    regionOf (BitVec.ofNat 18 (0x20000 + o)) = .tonebuf ∧ bufferOffset (BitVec.ofNat 18 (0x20000 + o)) = o ∧
      (BitVec.ofNat 18 (0x20000 + o)).toNat % 4 = o % 4 := by
  have haddr : (BitVec.ofNat 18 (0x20000 + o)).toNat = 0x20000 + o := Nat.mod_eq_of_lt (by omega)
  rw [regionOf, bufferOffset, bufferBytes, haddr, if_neg (by omega), if_neg (by omega), if_neg (by omega),
    if_pos (by omega)]
  exact ⟨rfl, by omega, by omega⟩

/-- Settles O14: the port hands each access to the packed word of the buffer at its offset. -/
theorem bufferWordsAreBigEndian : Obligations.BufferWordsAreBigEndian := by
  unfold Obligations.BufferWordsAreBigEndian
  intro P s o v ha ho he
  obtain ⟨hwin, hwinOff, hwinAligned⟩ := winbuf_addr ho
  obtain ⟨htone, htoneOff, htoneAligned⟩ := tonebuf_addr ho
  have stored {k : Nat} (hk : k < 4) := s.winbuf.read_writeWord o v hk
  rw [transact_winbufRead P hwin (hwinAligned.trans ha) he, hwinOff,
    transact_tonebufRead P htone (htoneAligned.trans ha) he, htoneOff,
    transact_winbufWrite P hwin (hwinAligned.trans ha) he, hwinOff]
  exact ⟨rfl, rfl, _, rfl, stored (k := 0) (by decide), stored (k := 1) (by decide), stored (k := 2) (by decide),
    stored (k := 3) (by decide), fun a hout => Memory.read_writeBlock_frame hout⟩

/-! ### Who writes the buffers -/

/-- No command writes WINBUF, and SYNTH alone writes TONEBUF (43_control.md R227). -/
theorem exec_buffers {i : Instr} {s u : State} (h : exec i s = .next u) :
    u.winbuf = s.winbuf ∧ ((∃ d sl n, i = .synth d sl n) ∨ u.tonebuf = s.tonebuf) := by
  rcases exec_next_cases h with ⟨-, rfl⟩ | ⟨d, sl, n, hi, rfl⟩ | ⟨d, sl, r, -, rfl⟩ | ⟨r, -, rfl⟩ | ⟨-, ⟨⟩⟩
  case inr.inl => exact ⟨rfl, .inl ⟨d, sl, n, hi⟩⟩
  all_goals exact ⟨rfl, .inr rfl⟩

/-- Settles O50: of the causes of a step, InitDone and a host's WINBUF write change a buffer, and of the commands SYNTH,
as `exec_buffers` says. -/
theorem buffersChangeOnlyAsGiven : Obligations.BuffersChangeOnlyAsGiven := by
  unfold Obligations.BuffersChangeOnlyAsGiven
  intro s t h hr
  cases step_effect h with
  | reset hg => exact absurd hg hr
  | initDone hg he => exact ⟨fun _ => .inr ⟨hg, he⟩, fun _ => .inr ⟨hg, he⟩⟩
  | winbufWrite h m hg he => exact ⟨fun _ => .inl ⟨hg, he⟩, absurd rfl⟩
  | complete hg he hl hu =>
    obtain ⟨hwin, ⟨d, sl, n, rfl⟩ | htone⟩ := exec_buffers hu
    · exact ⟨absurd hwin, fun _ => .inl ⟨hg, he, d, sl, n, hl⟩⟩
    · exact ⟨absurd hwin, absurd htone⟩
  | rejected h e _ _ =>
    exact ⟨absurd (raiseCmdError_winbuf e _ s.inTurn), absurd (raiseCmdError_tonebuf e _ s.inTurn)⟩
  | _ => exact ⟨absurd rfl, absurd rfl⟩

end Sys2Proof.Machine
end

section
/-! PROOFS. The command words: a word spells a command exactly when it matches the command's row (O1), so decoding and
encoding agree (O2), and what is left of each opcode's words is reserved (O4) or illegal (O3). -/

namespace Sys2Proof

/-! ### A field of a word is the word under a mask -/

theorem zeroExtend_extractLsb'_shiftLeft (c : Word) (k w : Nat) :
    (c.extractLsb' k w).zeroExtend 32 <<< k = c &&& ((BitVec.allOnes w).zeroExtend 32 <<< k) := by
  ext b hb
  by_cases hk : b < k
  · simp [hk]
  · simp [hk, Nat.add_sub_of_le (Nat.le_of_not_lt hk), Bool.and_comm, BitVec.getLsbD_eq_getElem hb]

theorem or_and_right (m r : Word) : (m ||| r) &&& r = r := by
  ext b hb
  rw [BitVec.getElem_and, BitVec.getElem_or]
  cases r[b] <;> simp

/-- A word is its bits under a mask and its bits outside it. -/
theorem and_or_and_not (c m : Word) : c &&& m ||| c &&& ~~~m = c := by
  rw [← BitVec.and_or_distrib_left, BitVec.or_not_self, BitVec.and_allOnes]

/-- DEPTH and SLOT in their places (30_encoding.md R113, R114). -/
theorem depthOf_slotOf_shifted (c : Word) :
    (depthOf c).zeroExtend 32 <<< 16 ||| (slotOf c).zeroExtend 32 <<< 8 = c &&& 0x00010100 := by
  rw [depthOf, slotOf, zeroExtend_extractLsb'_shiftLeft, zeroExtend_extractLsb'_shiftLeft,
    ← BitVec.and_or_distrib_left]
  rfl

/-- NIBBLE in its place (30_encoding.md R115). -/
theorem nibbleOf_zeroExtend (c : Word) : (nibbleOf c).zeroExtend 32 = c &&& 0x0000000F :=
  (BitVec.shiftLeft_zero _).symm.trans (zeroExtend_extractLsb'_shiftLeft c 0 4)

/-- OPCODE in its place (30_encoding.md R112). -/
theorem opcodeOf_shifted (c : Word) : (opcodeOf c).zeroExtend 32 <<< 24 = c &&& 0xFF000000 :=
  zeroExtend_extractLsb'_shiftLeft c 24 8

theorem opcodeOf_and_opcodeBits (c : Word) : opcodeOf (c &&& 0xFF000000) = opcodeOf c := by
  rw [opcodeOf, BitVec.extractLsb'_and]
  exact BitVec.and_allOnes

/-- Two words have one OPCODE exactly when they agree in bits 31:24. -/
theorem opcodeOf_eq_iff (c m : Word) : opcodeOf c = opcodeOf m ↔ c &&& 0xFF000000 = m &&& 0xFF000000 := by
  constructor
  · intro h
    rw [← opcodeOf_shifted, h, opcodeOf_shifted]
  · intro h
    rw [← opcodeOf_and_opcodeBits, h, opcodeOf_and_opcodeBits]

/-! ### The rows of 30_encoding.md R117 -/

/-- A row's match value has no bit outside OPCODE. -/
theorem Instr.matchWord_and_opcodeBits (i : Instr) : i.matchWord &&& 0xFF000000 = i.matchWord := by
  cases i <;> simp only [matchWord] <;> decide

theorem Instr.matchWord_and_reserved (i : Instr) : i.matchWord &&& reservedMask (opcodeOf i.matchWord) = 0 := by
  cases i <;> simp only [matchWord] <;> decide

/-- A row's mask is OPCODE and the opcode's reserved bits (30_encoding.md R116). -/
theorem Instr.maskWord_eq (i : Instr) : i.maskWord = 0xFF000000 ||| reservedMask (opcodeOf i.matchWord) := by
  cases i <;> simp only [maskWord, matchWord] <;> decide

/-- A word matches the row of a command: it has the row's opcode, and every reserved bit is 0. -/
theorem matches_row_iff (c : Word) (i : Instr) :
    c &&& i.maskWord = i.matchWord ↔
      opcodeOf c = opcodeOf i.matchWord ∧ c &&& reservedMask (opcodeOf i.matchWord) = 0 := by
  have hop := i.matchWord_and_opcodeBits
  have hres := i.matchWord_and_reserved
  rw [opcodeOf_eq_iff, hop, i.maskWord_eq]
  generalize reservedMask (opcodeOf i.matchWord) = r at hres ⊢
  constructor
  · intro h
    constructor
    · rw [← hop, ← h, BitVec.and_assoc, BitVec.or_comm, or_and_right]
    · rw [← hres, ← h, BitVec.and_assoc, or_and_right]
  · rintro ⟨h, h0⟩
    rw [BitVec.and_or_distrib_left, h, h0]
    exact BitVec.or_zero

/-- No word matches two rows (30_encoding.md R117). -/
theorem matchWord_unique {c : Word} {i j : Instr} (hi : c &&& i.maskWord = i.matchWord)
    (hj : c &&& j.maskWord = j.matchWord) : i.matchWord = j.matchWord := by
  obtain ⟨hopi, -⟩ := (matches_row_iff c i).1 hi
  obtain ⟨hopj, -⟩ := (matches_row_iff c j).1 hj
  have hop : opcodeOf i.matchWord = opcodeOf j.matchWord := hopi.symm.trans hopj
  rwa [opcodeOf_eq_iff, i.matchWord_and_opcodeBits, j.matchWord_and_opcodeBits] at hop

/-! ### The decoder -/

/-- The opcode of a command is that of its row. -/
theorem opcode_of_commandOf {op : BitVec 8} {d : Depth} {s : Slot} {n : Nibble} {i : Instr}
    (h : commandOf op d s n = some i) : op = opcodeOf i.matchWord := by
  unfold commandOf at h
  split_ifs at h <;> cases h <;> simpa [Instr.matchWord, opcodeOf]

theorem commandOf_eq_none_iff (op : BitVec 8) (d : Depth) (s : Slot) (n : Nibble) :
    commandOf op d s n = none ↔ 5 ≤ op.toNat := by
  unfold commandOf
  split_ifs <;> simp only [false_iff, true_iff] <;> bv_omega

theorem decode_of_noCommand {c : Word} (h : commandOf (opcodeOf c) (depthOf c) (slotOf c) (nibbleOf c) = none) :
    decode c = .illegal := by
  rw [decode, h]

theorem decode_of_command {c : Word} {i : Instr}
    (h : commandOf (opcodeOf c) (depthOf c) (slotOf c) (nibbleOf c) = some i) :
    decode c = if c &&& reservedMask (opcodeOf c) = 0 then .cmd i else .reserved := by
  simp only [decode, h, ne_eq, ite_not]

theorem decode_eq_illegal_iff (c : Word) : decode c = .illegal ↔ 5 ≤ (opcodeOf c).toNat := by
  rw [← commandOf_eq_none_iff _ (depthOf c) (slotOf c) (nibbleOf c)]
  cases h : commandOf (opcodeOf c) (depthOf c) (slotOf c) (nibbleOf c) with
  | none => simp only [decode_of_noCommand h]
  | some i =>
    rw [decode_of_command h]
    split_ifs <;> exact iff_of_false nofun nofun

theorem decode_eq_reserved_iff (c : Word) :
    decode c = .reserved ↔ (opcodeOf c).toNat < 5 ∧ c &&& reservedMask (opcodeOf c) ≠ 0 := by
  rw [← Nat.not_le, ← commandOf_eq_none_iff _ (depthOf c) (slotOf c) (nibbleOf c)]
  cases h : commandOf (opcodeOf c) (depthOf c) (slotOf c) (nibbleOf c) with
  | none =>
    rw [decode_of_noCommand h]
    exact iff_of_false nofun fun ⟨hdefined, _⟩ => hdefined rfl
  | some i =>
    rw [decode_of_command h]
    split_ifs with hres
    · exact iff_of_false nofun fun ⟨_, hne⟩ => hne hres
    · exact iff_of_true rfl ⟨nofun, hres⟩

/-- A word decodes to a command: it matches the command's row, and the operands are its fields
(30_encoding.md R117, R122). -/
theorem decode_eq_cmd_iff (c : Word) (i : Instr) :
    decode c = .cmd i ↔
      c &&& i.maskWord = i.matchWord ∧
        commandOf (opcodeOf i.matchWord) (depthOf c) (slotOf c) (nibbleOf c) = some i := by
  rw [matches_row_iff]
  constructor
  · intro h
    cases hc : commandOf (opcodeOf c) (depthOf c) (slotOf c) (nibbleOf c) with
    | none => cases (decode_of_noCommand hc).symm.trans h
    | some j =>
      rw [decode_of_command hc] at h
      split_ifs at h with hres
      cases h
      rw [← opcode_of_commandOf hc]
      exact ⟨⟨rfl, hres⟩, hc⟩
  · rintro ⟨⟨hop, hres⟩, hc⟩
    rw [← hop] at hres hc
    rw [decode_of_command hc, if_pos hres]

/-- Settles O1: `decode_eq_cmd_iff` for each row. -/
theorem decodeSpellsExactlyItsRow : Obligations.DecodeSpellsExactlyItsRow := by
  unfold Obligations.DecodeSpellsExactlyItsRow
  intro c
  refine ⟨?_, fun d s i => ?_, fun d s => ?_, ?_, ?_, fun i j => matchWord_unique⟩ <;> rw [decode_eq_cmd_iff]
  · exact and_iff_left rfl
  · exact and_congr_right fun _ => by simp [Instr.matchWord, opcodeOf, depthOf, slotOf, nibbleOf, commandOf, eq_comm]
  · exact and_congr_right fun _ => by simp [Instr.matchWord, opcodeOf, depthOf, slotOf, commandOf, eq_comm]
  · exact and_iff_left rfl
  · exact and_iff_left rfl

/-! ### The encoder -/

theorem encode_synth (d : Depth) (s : Slot) (n : Nibble) :
    encode (.synth d s n) =
      0x01000000 ||| (d.zeroExtend 32 <<< 16 ||| s.zeroExtend 32 <<< 8 ||| n.zeroExtend 32) := by
  simp only [encode, BitVec.or_assoc]

theorem encode_detect (d : Depth) (s : Slot) :
    encode (.detect d s) = 0x02000000 ||| (d.zeroExtend 32 <<< 16 ||| s.zeroExtend 32 <<< 8) := by
  simp only [encode, BitVec.or_assoc]

/-- The encoding of a command with a word's operand fields takes the bits outside the row's mask from the word. -/
theorem encode_of_operands {c : Word} {i : Instr}
    (h : commandOf (opcodeOf i.matchWord) (depthOf c) (slotOf c) (nibbleOf c) = some i) :
    encode i = i.matchWord ||| c &&& ~~~i.maskWord := by
  cases i with
  | synth d s n =>
    obtain ⟨rfl, rfl, rfl⟩ : depthOf c = d ∧ slotOf c = s ∧ nibbleOf c = n := by
      simpa [Instr.matchWord, opcodeOf, commandOf] using h
    rw [encode_synth, depthOf_slotOf_shifted, nibbleOf_zeroExtend, ← BitVec.and_or_distrib_left]
    exact congrArg (0x01000000 ||| c &&& ·) (show (0x00010100 ||| 0x0000000F : Word) = ~~~0xFFFEFEF0 by decide)
  | detect d s =>
    obtain ⟨rfl, rfl⟩ : depthOf c = d ∧ slotOf c = s := by
      simpa [Instr.matchWord, opcodeOf, commandOf] using h
    rw [encode_detect, depthOf_slotOf_shifted]
    exact congrArg (0x02000000 ||| c &&& ·) (show (0x00010100 : Word) = ~~~0xFFFEFEFF by decide)
  | nop => exact congrArg (0x00000000 ||| ·) BitVec.and_zero.symm
  | map => exact congrArg (0x03000000 ||| ·) BitVec.and_zero.symm
  | sreset => exact congrArg (0x04000000 ||| ·) BitVec.and_zero.symm

theorem encode_matches_row (i : Instr) : encode i &&& i.maskWord = i.matchWord := by
  cases i with
  | nop => exact Laws.EncodesItsRow.nop.1
  | synth d s n => exact (Laws.EncodesItsRow.synth d s n).1
  | detect d s => exact (Laws.EncodesItsRow.detect d s).1
  | map => exact Laws.EncodesItsRow.map.1
  | sreset => exact Laws.EncodesItsRow.sreset.1

theorem commandOf_fields_encode (i : Instr) :
    commandOf (opcodeOf i.matchWord) (depthOf (encode i)) (slotOf (encode i)) (nibbleOf (encode i)) = some i := by
  cases i with
  | synth d s n => revert d s n; decide +kernel
  | detect d s => revert d s; decide +kernel
  | nop => rfl
  | map => rfl
  | sreset => rfl

theorem decode_encode (i : Instr) : decode (encode i) = .cmd i :=
  (decode_eq_cmd_iff _ i).2 ⟨encode_matches_row i, commandOf_fields_encode i⟩

/-- A word of a row whose operand fields are the command's is the command's encoding. -/
theorem eq_encode_of_decode {c : Word} {i : Instr} (h : decode c = .cmd i) : c = encode i := by
  obtain ⟨hrow, hfields⟩ := (decode_eq_cmd_iff c i).1 h
  calc c = c &&& i.maskWord ||| c &&& ~~~i.maskWord := (and_or_and_not c i.maskWord).symm
    _ = encode i := by rw [encode_of_operands hfields, hrow]

theorem decode_eq_cmd_iff_eq_encode (c : Word) (i : Instr) : decode c = .cmd i ↔ c = encode i :=
  ⟨eq_encode_of_decode, fun h => h ▸ decode_encode i⟩

/-- Settles O2, by the row and the operands of `decode_eq_cmd_iff`. -/
theorem decodeAndEncodeAgree : Obligations.DecodeAndEncodeAgree := by
  unfold Obligations.DecodeAndEncodeAgree
  exact fun i c => decode_eq_cmd_iff_eq_encode c i

theorem encode_injective : Function.Injective encode := fun i j h =>
  Decoded.cmd.inj ((decode_encode i).symm.trans (h ▸ decode_encode j))

end Sys2Proof
end

section
/-! PROOFS. The words that spell no command, what writing one does, and how many there are: the illegal words (O3), the
reserved words of each opcode (O4), and the examples of 30_encoding.md R127 (O5). -/

namespace Sys2Proof.Machine

theorem acceptCommand_illegal {c : Word} {s : State} (he : s.eng = .idle) (hd : decode c = .illegal) :
    acceptCommand c s = raiseCmdError .illegalOpcode c s := by
  simp only [acceptCommand, he, hd]

theorem acceptCommand_reserved {c : Word} {s : State} (he : s.eng = .idle) (hd : decode c = .reserved) :
    acceptCommand c s = raiseCmdError .reservedField c s := by
  simp only [acceptCommand, he, hd]

end Sys2Proof.Machine

namespace Sys2Proof

/-! ### OPCODE as a number -/

theorem toNat_opcodeOf (c : Word) : (opcodeOf c).toNat = c.toNat / 2 ^ 24 := by
  rw [opcodeOf, BitVec.extractLsb'_toNat, Nat.shiftRight_eq_div_pow]
  omega

theorem toNat_opcodeOf_ofNat {n : Nat} (h : n < 2 ^ 32) : (opcodeOf (BitVec.ofNat 32 n)).toNat = n / 2 ^ 24 := by
  rw [toNat_opcodeOf, BitVec.toNat_ofNat, Nat.mod_eq_of_lt h]

/-! ### The illegal words -/

/-- The illegal words are those from 0x05000000 on. -/
theorem illegal_words :
    ((Finset.range (2 ^ 32)).filter fun n => decode (BitVec.ofNat 32 n) = .illegal) =
      Finset.Ico (5 * 2 ^ 24) (2 ^ 32) := by
  ext n
  rw [Finset.mem_filter, Finset.mem_range, Finset.mem_Ico, decode_eq_illegal_iff, and_comm]
  refine and_congr_left fun hn => ?_
  rw [toNat_opcodeOf_ofNat hn, Nat.le_div_iff_mul_le (by decide)]

/-- Settles O3: the illegal words are an interval of numbers, and an idle block rejects each with its code. -/
theorem illegalWordsExactly : Obligations.IllegalWordsExactly := by
  unfold Obligations.IllegalWordsExactly
  refine ⟨?_, fun c => ⟨decode_eq_illegal_iff c, fun hop P s he => ?_⟩⟩
  · rw [illegal_words, Nat.card_Ico]
    norm_num
  · rw [Machine.transact_cmdWrite, Machine.acceptCommand_illegal he ((decode_eq_illegal_iff c).2 hop)]

/-! ### The reserved words -/

theorem opcodeOf_encode (i : Instr) : opcodeOf (encode i) = opcodeOf i.matchWord :=
  ((matches_row_iff _ i).1 (encode_matches_row i)).1

/-- The commands of an opcode, one for each value of its operand fields (30_encoding.md R117). -/
def commandsOf (op : Nat) : Finset Instr :=
  Finset.eraseNone (Finset.univ.image fun f : Depth × Slot × Nibble => commandOf (BitVec.ofNat 8 op) f.1 f.2.1 f.2.2)

theorem mem_commandsOf {op : Nat} (hop : op < 2 ^ 8) (i : Instr) :
    i ∈ commandsOf op ↔ (encode i).toNat / 2 ^ 24 = op := by
  rw [← toNat_opcodeOf, opcodeOf_encode, commandsOf, Finset.mem_eraseNone, Finset.mem_image]
  constructor
  · rintro ⟨f, -, hf⟩
    rw [← opcode_of_commandOf hf, BitVec.toNat_ofNat, Nat.mod_eq_of_lt hop]
  · intro h
    refine ⟨(depthOf (encode i), slotOf (encode i), nibbleOf (encode i)), Finset.mem_univ _, ?_⟩
    rw [← h, BitVec.ofNat_toNat, BitVec.setWidth_eq]
    exact commandOf_fields_encode i

theorem card_commandsOf {op : Nat} (hop : op < 5) :
    (commandsOf op).card = if op = 1 then 2 ^ 6 else if op = 2 then 2 ^ 2 else 1 := by
  interval_cases op <;> decide +kernel

/-- The command words of an opcode. -/
def commandWords (op : Nat) : Finset Nat := (commandsOf op).image fun i => (encode i).toNat

theorem card_commandWords (op : Nat) : (commandWords op).card = (commandsOf op).card :=
  Finset.card_image_of_injective _ fun _ _ h => encode_injective (BitVec.eq_of_toNat_eq h)

/-- The words of an opcode. -/
def opcodeWords (op : Nat) : Finset Nat := Finset.Ico (op * 2 ^ 24) ((op + 1) * 2 ^ 24)

theorem mem_opcodeWords (op n : Nat) : n ∈ opcodeWords op ↔ n / 2 ^ 24 = op := by
  rw [opcodeWords, Finset.mem_Ico]
  omega

theorem card_opcodeWords (op : Nat) : (opcodeWords op).card = 2 ^ 24 := by
  rw [opcodeWords, Nat.card_Ico]
  omega

theorem mem_commandWords {op : Nat} (hop : op < 2 ^ 8) (n : Nat) :
    n ∈ commandWords op ↔ n / 2 ^ 24 = op ∧ ∃ i, (encode i).toNat = n := by
  simp only [commandWords, Finset.mem_image, mem_commandsOf hop]
  constructor
  · rintro ⟨i, hi, rfl⟩
    exact ⟨hi, i, rfl⟩
  · rintro ⟨hn, i, rfl⟩
    exact ⟨i, hn, rfl⟩

/-- The reserved words of an opcode. -/
def reservedWords (op : Nat) : Finset Nat :=
  (Finset.range (2 ^ 32)).filter fun n => n / 2 ^ 24 = op ∧ decode (BitVec.ofNat 32 n) = .reserved

/-- A word of a defined opcode is reserved unless it is the encoding of a command. -/
theorem decode_eq_reserved_iff_not_encode {c : Word} (hop : (opcodeOf c).toNat < 5) :
    decode c = .reserved ↔ ¬∃ i, encode i = c := by
  have hlegal : decode c ≠ .illegal := fun h => absurd ((decode_eq_illegal_iff c).1 h) (Nat.not_le.2 hop)
  simp only [eq_comm (b := c), ← decode_eq_cmd_iff_eq_encode]
  cases h : decode c with
  | illegal => exact absurd h hlegal
  | reserved => simp
  | cmd i => simp

/-- The reserved words of a defined opcode are its words but the command words. -/
theorem reservedWords_eq_sdiff {op : Nat} (hop : op < 5) :
    reservedWords op = opcodeWords op \ commandWords op := by
  ext n
  rw [reservedWords, Finset.mem_filter, Finset.mem_range, Finset.mem_sdiff, mem_opcodeWords, mem_commandWords (by omega)]
  have hword (h : n / 2 ^ 24 = op) : n < 2 ^ 32 := by omega
  have hspells (h : n / 2 ^ 24 = op) :
      decode (BitVec.ofNat 32 n) = .reserved ↔ ¬∃ i, (encode i).toNat = n := by
    have hn := hword h
    rw [decode_eq_reserved_iff_not_encode (by rw [toNat_opcodeOf_ofNat hn]; omega)]
    simp only [← BitVec.toNat_inj, BitVec.toNat_ofNat, Nat.mod_eq_of_lt hn]
  constructor
  · rintro ⟨-, h, hd⟩
    exact ⟨h, fun hc => (hspells h).1 hd hc.2⟩
  · rintro ⟨h, hc⟩
    exact ⟨hword h, h, (hspells h).2 fun hi => hc ⟨h, hi⟩⟩

theorem card_reservedWords {op : Nat} (hop : op < 5) :
    (reservedWords op).card = 2 ^ 24 - (commandsOf op).card := by
  have hsub : commandWords op ⊆ opcodeWords op := fun n hn =>
    (mem_opcodeWords op n).2 ((mem_commandWords (by omega) n).1 hn).1
  rw [reservedWords_eq_sdiff hop, Finset.card_sdiff_of_subset hsub, card_opcodeWords, card_commandWords]

/-- No word of an undefined opcode is reserved (30_encoding.md R119). -/
theorem reservedWords_eq_empty {op : Nat} (hop : 5 ≤ op) : reservedWords op = ∅ := by
  refine Finset.filter_eq_empty_iff.2 fun n hn => ?_
  rintro ⟨h, hd⟩
  have hdefined := ((decode_eq_reserved_iff _).1 hd).1
  rw [toNat_opcodeOf_ofNat (Finset.mem_range.1 hn)] at hdefined
  omega

/-- The reserved bits of each opcode (30_encoding.md R116). -/
theorem decode_eq_reserved_iff_cases (c : Word) :
    decode c = .reserved ↔
      (opcodeOf c = 0x00 ∧ c &&& 0x00FFFFFF ≠ 0) ∨ (opcodeOf c = 0x01 ∧ c &&& 0x00FEFEF0 ≠ 0) ∨
      (opcodeOf c = 0x02 ∧ c &&& 0x00FEFEFF ≠ 0) ∨ (opcodeOf c = 0x03 ∧ c &&& 0x00FFFFFF ≠ 0) ∨
      (opcodeOf c = 0x04 ∧ c &&& 0x00FFFFFF ≠ 0) := by
  rw [decode_eq_reserved_iff]
  generalize opcodeOf c = op
  constructor
  · rintro ⟨hop, hres⟩
    obtain rfl | rfl | rfl | rfl | rfl : op = 0 ∨ op = 1 ∨ op = 2 ∨ op = 3 ∨ op = 4 := by bv_omega
    · exact .inl ⟨rfl, hres⟩
    · exact .inr (.inl ⟨rfl, hres⟩)
    · exact .inr (.inr (.inl ⟨rfl, hres⟩))
    · exact .inr (.inr (.inr (.inl ⟨rfl, hres⟩)))
    · exact .inr (.inr (.inr (.inr ⟨rfl, hres⟩)))
  · rintro (⟨rfl, hres⟩ | ⟨rfl, hres⟩ | ⟨rfl, hres⟩ | ⟨rfl, hres⟩ | ⟨rfl, hres⟩) <;> exact ⟨by decide, hres⟩

/-- Settles O4: an opcode's words are its command words, counted by their operands, and its reserved words; an idle
block rejects a reserved word with its code. -/
theorem reservedWordsExactly : Obligations.ReservedWordsExactly := by
  unfold Obligations.ReservedWordsExactly
  refine ⟨fun op => ?_, fun c => ⟨decode_eq_reserved_iff_cases c, fun hd P s he => ?_⟩⟩
  · rw [← reservedWords]
    by_cases hop : op < 5
    · rw [card_reservedWords hop, card_commandsOf hop]
      split_ifs <;> omega
    · rw [reservedWords_eq_empty (Nat.le_of_not_lt hop), Finset.card_empty]
      split_ifs <;> omega
  · rw [Machine.transact_cmdWrite, Machine.acceptCommand_reserved he hd]

/-- Settles O5: each word evaluated. -/
theorem exampleWordsDecode : Obligations.ExampleWordsDecode := by
  unfold Obligations.ExampleWordsDecode
  decide

end Sys2Proof
end

section
/-! PROOFS. The host's `run` of a command word on an idle block (30_encoding.md R126), one turn after the other with no
schedule (O57). -/

namespace Sys2Proof.Machine

/-! ### The host is no part of the block -/

/-- The block with another host around it. -/
def State.withHost (s : State) (h : HostAgent) : State := { s with host := h }

@[simp] theorem State.withHost_eng (s : State) (h : HostAgent) : (s.withHost h).eng = s.eng := rfl

@[simp] theorem State.withHost_withHost (s : State) (h k : HostAgent) : (s.withHost h).withHost k = s.withHost k := rfl

theorem raiseCmdError_withHost (e : CmdErr) (c : Word) (s : State) (h : HostAgent) :
    raiseCmdError e c (s.withHost h) = (raiseCmdError e c s).withHost h := by
  by_cases herr : s.err = true
  · rw [raiseCmdError_of_err herr, raiseCmdError_of_err (s := s.withHost h) herr]
    rfl
  · rw [raiseCmdError_of_noErr herr, raiseCmdError_of_noErr (s := s.withHost h) herr]
    rfl

theorem acceptCommand_withHost (c : Word) (s : State) (h : HostAgent) :
    acceptCommand c (s.withHost h) = (acceptCommand c s).withHost h := by
  unfold acceptCommand
  rw [State.withHost_eng]
  cases s.eng with
  | init => exact raiseCmdError_withHost .notReady c s h
  | busy => exact raiseCmdError_withHost .busy c s h
  | idle =>
    cases decode c with
    | illegal => exact raiseCmdError_withHost .illegalOpcode c s h
    | reserved => exact raiseCmdError_withHost .reservedField c s h
    | cmd i => rfl

/-- A command does the same whatever the host holds. -/
theorem exec_withHost {i : Instr} {s v : State} (hv : exec i s = .next v) (h : HostAgent) :
    exec i (s.withHost h) = .next (v.withHost h) := by
  cases i <;> cases hv <;> rfl

/-! ### Turns with no schedule -/

theorem stepN_succ {s t : State} (h : step s = .next t) (n : Nat) : stepN (n + 1) s = stepN n t := by
  rw [stepN, h]

theorem nextTurn_unscheduled {s : State} (hs : s.sched = []) : nextTurn s = (defaultAgent s, s) := by
  rw [nextTurn, hs]

section
variable {s t : State} {op : HostOp} {ops : List HostOp} {tr : Transaction} {r : BusReply}

/-- With no schedule the host goes on while the engine is idle (notes/assumptions/5.md). -/
theorem step_transacts (hs : s.sched = []) (he : s.eng = .idle) (hp : s.host.prog = op :: ops)
    (ht : op.transaction Config.params s.host = some tr) (hr : transact Config.params tr s = (t, r)) :
    step s = .next (t.withHost (hostAfter op ops r s.host)) := by
  have hg : defaultAgent s = .host := by simp only [defaultAgent, he]
  rw [step_eq, nextTurn_unscheduled hs, hg]
  show Host.Outcome.next (hostTurn Config.params s) = _
  rw [hostTurn_transacts hp ht, hr, State.withHost]

/-- `clrst` on an idle block (30_encoding.md R126). -/
theorem step_clrst (hs : s.sched = []) (he : s.eng = .idle) (hp : s.host.prog = hostClrst :: ops) :
    ∃ h, h.prog = ops ∧ step s = .next ((writeStatus 0x4C s).withHost h) :=
  ⟨hostAfter hostClrst ops (okay 0) s.host, rfl,
    step_transacts hs he hp (tr := statusWrite 0x4C) rfl (transact_statusWrite Config.params 0x4C s)⟩

/-- A command word on an idle block (30_encoding.md R125). -/
theorem step_cmd {w : Word} (hs : s.sched = []) (he : s.eng = .idle) (hp : s.host.prog = hostCmd w :: ops) :
    ∃ h, h.prog = ops ∧ step s = .next ((acceptCommand w s).withHost h) :=
  ⟨hostAfter (hostCmd w) ops (okay 0) s.host, rfl,
    step_transacts hs he hp (tr := cmdWrite w) rfl (transact_cmdWrite Config.params w s)⟩

/-- An idle block reads BUSY = 0 (10_state.md R39). -/
theorem statusWord_and_busy (he : s.eng = .idle) : statusWord s &&& 0x2 = 0x0 := by
  obtain ⟨-, hbusy, -⟩ := getLsbD_statusWord s
  rw [State.busy_eq, decide_eq_false (not_not_intro he)] at hbusy
  have hbit : (0x2 : Word) = BitVec.twoPow 32 1 := by decide
  rw [hbit, BitVec.and_twoPow, hbusy]
  rfl

/-- `waitidle` on an idle block ends at once (30_encoding.md R126). -/
theorem step_waitIdle (hs : s.sched = []) (he : s.eng = .idle) (hp : s.host.prog = hostWaitIdle :: ops) :
    ∃ h, h.prog = ops ∧ step s = .next (s.withHost h) :=
  ⟨hostAfter hostWaitIdle ops (okay (statusWord s)) s.host, if_pos (statusWord_and_busy he),
    step_transacts hs he hp (tr := .read addrStatus 4) rfl
      (transact_readReg Config.params (a := addrStatus) (by decide) (by decide) s)⟩

/-- With no schedule a running command completes (notes/assumptions/5.md). -/
theorem step_completes {i : Instr} (hs : s.sched = []) (he : s.eng = .busy) (hl : latchedInstr s.latch = some i)
    (ht : exec i s = .next t) : step s = .next (finishCommand t) := by
  have hg : defaultAgent s = .engine := by simp only [defaultAgent, he]
  rw [step_eq, nextTurn_unscheduled hs, hg]
  simp only [turn, turnAt, engineTurnAt, he, completeAt, hl, commandAt_inst, ht]

end

/-! ### What every command does -/

theorem exec_total (i : Instr) (s : State) : ∃ v, exec i s = .next v := by
  rcases exec_cases i s with ⟨-, e⟩ | ⟨_, _, _, -, e⟩ | ⟨_, _, -, e⟩ | ⟨-, e⟩ | ⟨-, e⟩ <;> exact ⟨_, e⟩

section
variable {i : Instr} {s u : State}

/-- Every command sets DONE (10_state.md R40). -/
theorem exec_done (h : exec i s = .next u) : u.done = true := by
  rcases exec_next_cases h with ⟨-, rfl⟩ | ⟨d, sl, n, -, rfl⟩ | ⟨d, sl, r, -, rfl⟩ | ⟨r, -, rfl⟩ | ⟨-, ⟨⟩⟩ <;> rfl

theorem exec_sched (h : exec i s = .next u) : u.sched = s.sched := by
  rcases exec_next_cases h with ⟨-, rfl⟩ | ⟨d, sl, n, -, rfl⟩ | ⟨d, sl, r, -, rfl⟩ | ⟨r, -, rfl⟩ | ⟨-, ⟨⟩⟩ <;> rfl

/-- No error is reported: ERR, what it captured, and BERR (10_state.md R41, R44, R48, R49). -/
def NoErrors (s : State) : Prop := s.err = false ∧ s.errinfo = 0 ∧ s.errCmd = 0 ∧ s.berr = false

/-- No command reports an error (43_control.md R227). -/
theorem exec_noErrors (h : exec i s = .next u) (hs : NoErrors s) : NoErrors u := by
  rcases exec_next_cases h with ⟨-, rfl⟩ | ⟨d, sl, n, -, rfl⟩ | ⟨d, sl, r, -, rfl⟩ | ⟨r, -, rfl⟩ | ⟨-, ⟨⟩⟩
  case inr.inr.inr.inr => exact ⟨rfl, rfl, rfl, rfl⟩
  all_goals exact hs

end

/-- `clrst` clears the errors (30_encoding.md R126). -/
theorem writeStatus_clrst_noErrors (s : State) : NoErrors (writeStatus 0x4C s) := by
  refine ⟨writeStatus_clears_err (by decide) s, rfl, rfl, ?_⟩
  rw [writeStatus_berr]
  exact Bool.and_false _

/-! ### `run` -/

section
variable {s : State} {w : Word}

/-- The first two turns of `run`, on an idle block: the flags are cleared, and the word is accepted or rejected. -/
theorem run_starts (he : s.eng = .idle) (hs : s.sched = []) (hp : s.host.prog = hostRun w) :
    ∃ h, h.prog = [hostWaitIdle] ∧
      ∀ n, stepN (n + 2) s = stepN n ((acceptCommand w (writeStatus 0x4C s)).withHost h) := by
  obtain ⟨h1, hp1, e1⟩ := step_clrst hs he hp
  obtain ⟨h2, hp2, e2⟩ := step_cmd (s := (writeStatus 0x4C s).withHost h1) hs he hp1
  rw [acceptCommand_withHost, State.withHost_withHost] at e2
  exact ⟨h2, hp2, fun n => by rw [stepN_succ e1, stepN_succ e2]⟩

/-- `run` of a command: the block completes it, and BUSY reads 0. -/
theorem run_command {i : Instr} {v : State} (he : s.eng = .idle) (hs : s.sched = [])
    (hp : s.host.prog = hostRun (encode i))
    (hv : exec i (startCommand (encode i) (writeStatus 0x4C s)) = .next v) :
    ∃ h, h.prog = [] ∧ stepN 4 s = some ((finishCommand v).withHost h) := by
  have hd := decode_encode i
  obtain ⟨h2, hp2, e2⟩ := run_starts he hs hp
  rw [acceptCommand_idle (s := writeStatus 0x4C s) he hd] at e2
  have e3 := step_completes (s := (startCommand (encode i) (writeStatus 0x4C s)).withHost h2) hs rfl
    (latchedInstr_latchOf hd _) (exec_withHost hv h2)
  obtain ⟨h4, hp4, e4⟩ := step_waitIdle (s := finishCommand (v.withHost h2)) ((exec_sched hv).trans hs) rfl hp2
  exact ⟨h4, hp4, by rw [e2, stepN_succ e3, stepN_succ e4]; rfl⟩

/-- A word that is no command raises its error on an idle block (43_control.md R221). -/
theorem acceptCommand_noCommand (he : s.eng = .idle) (hw : ∀ i, decode w ≠ .cmd i) :
    acceptCommand w s = raiseCmdError (if decode w = .illegal then .illegalOpcode else .reservedField) w s := by
  cases hd : decode w with
  | cmd i => exact absurd hd (hw i)
  | illegal => exact acceptCommand_illegal he hd
  | reserved => exact acceptCommand_reserved he hd

/-- `run` of a word that is no command: BUSY reads 0 at once. -/
theorem run_noCommand (he : s.eng = .idle) (hs : s.sched = []) (hp : s.host.prog = hostRun w)
    (hw : ∀ i, decode w ≠ .cmd i) :
    ∃ h, h.prog = [] ∧ stepN 3 s = some ((raiseCmdError
      (if decode w = .illegal then .illegalOpcode else .reservedField) w (writeStatus 0x4C s)).withHost h) := by
  obtain ⟨h2, hp2, e2⟩ := run_starts he hs hp
  rw [acceptCommand_noCommand (s := writeStatus 0x4C s) he hw] at e2
  generalize (if decode w = .illegal then CmdErr.illegalOpcode else .reservedField) = e at e2 ⊢
  obtain ⟨h3, hp3, e3⟩ := step_waitIdle (s := (raiseCmdError e w (writeStatus 0x4C s)).withHost h2)
    ((raiseCmdError_sched e w _).trans hs) ((raiseCmdError_eng e w _).trans he) hp2
  exact ⟨h3, hp3, by rw [e2, stepN_succ e3, State.withHost_withHost, stepN]⟩

end

/-- Settles O57: the four turns of a command's run (`run_command`) and the three of another word's (`run_noCommand`). -/
theorem runPseudoInstructionCompletes : Obligations.RunPseudoInstructionCompletes := by
  unfold Obligations.RunPseudoInstructionCompletes
  refine ⟨fun s i he hs hp => ?_, fun s w he hs hp hw => run_noCommand he hs hp hw⟩
  obtain ⟨v, hv⟩ := exec_total i (startCommand (encode i) (writeStatus 0x4C s))
  obtain ⟨h, hprog, ht⟩ := run_command he hs hp hv
  obtain ⟨herr, hinfo, hcmd, hberr⟩ := exec_noErrors hv (writeStatus_clrst_noErrors s)
  have hdone : v.done = true := exec_done hv
  have hwinbuf : v.winbuf = s.winbuf := (exec_buffers hv).1
  exact ⟨_, v, ht, hv, hprog, rfl, hdone, rfl, rfl, rfl, rfl, rfl, rfl, rfl, hwinbuf, herr, hinfo, hcmd, hberr⟩

end Sys2Proof.Machine
end

section
/-! PROOFS. SYNTH writes its slot and nothing else, and a second SYNTH changes nothing (O25, O26). -/

namespace Sys2Proof.Machine

/-- Writing a block again over itself changes nothing. -/
theorem Memory.writeBlock_writeBlock {m : Memory} (h : m.wf = true) {o : Nat} {bs : List Byte}
    (hin : o + bs.length ≤ bufferBytes) : (m.writeBlock o bs).writeBlock o bs = m.writeBlock o bs := by
  have hwf := wf_writeBlock h hin
  refine ext_read (wf_writeBlock hwf hin) hwf fun a => ?_
  by_cases ha : o ≤ a ∧ a < o + bs.length
  · rw [read_writeBlock, read_writeBlock, if_pos ha, if_pos ha]
  · exact read_writeBlock_frame (by omega)

/-- Byte `k` of a written block. -/
theorem Memory.read_writeBlock_add (m : Memory) (o : Nat) (bs : List Byte) {k : Nat} (hk : k < bs.length) :
    (m.writeBlock o bs).read (o + k) = bs.getD k 0 := by
  rw [read_writeBlock, if_pos (by omega), Nat.add_sub_cancel_left]
  rfl

/-- A SYNTH always completes, with its commit under the parameters at hand (40_synthesis.md R147). -/
theorem commandAt_synth (I : Instance) (d : Depth) (sl : Slot) (i : Nibble) (s : State) :
    commandAt I (.synth d sl i) s = .next (commitSynth I.params d sl i s) := rfl

/-- What a SYNTH leaves in TONEBUF: its tone in its slot, and every other byte as it was (40_synthesis.md R147, R148). -/
theorem commandAt_synth_bytes (I : Instance) (d : Depth) (sl : Slot) (i : Nibble) (s : State) :
    ∃ m, commandAt I (.synth d sl i) s = .next { s with tonebuf := m, done := true } ∧
      (romEntry I.params d i).length = I.params.N * bps d ∧
      (∀ k < I.params.N * bps d, m.read (toneSlotBase I.params sl d + k) = (romEntry I.params d i).getD k 0) ∧
      ∀ a, a < toneSlotBase I.params sl d ∨ toneSlotBase I.params sl d + I.params.N * bps d ≤ a →
        m.read a = s.tonebuf.read a := by
  have hlen := length_romEntry I.params d i
  refine ⟨s.tonebuf.writeBlock (toneSlotBase I.params sl d) (romEntry I.params d i), commandAt_synth I d sl i s, hlen,
    fun k hk => ?_, fun a ha => ?_⟩
  · exact Memory.read_writeBlock_add _ _ _ (hk.trans_eq hlen.symm)
  · exact Memory.read_writeBlock_frame (by rwa [hlen])

/-- Settles O25: `commandAt_synth_bytes`, of which the default command is a case. -/
theorem synthWritesExactlyItsSlot : Obligations.SynthWritesExactlyItsSlot := by
  unfold Obligations.SynthWritesExactlyItsSlot
  refine ⟨fun d sl i s => ?_, commandAt_synth_bytes⟩
  rw [← commandAt_inst]
  exact commandAt_synth_bytes Config.inst d sl i s

/-- A second commit of the same tone changes nothing, as its slot lies inside TONEBUF (20_memory.md R86). -/
theorem commitSynth_commitSynth {P : Params} (hP : P.wellFormed = true) (d : Depth) (sl : Slot) (i : Nibble) {s : State}
    (hs : s.tonebuf.wf = true) : commitSynth P d sl i (commitSynth P d sl i s) = commitSynth P d sl i s := by
  have hroom : toneSlotBase P sl d + (romEntry P d i).length ≤ bufferBytes := by
    obtain ⟨hN, -, hF⟩ := Params.size_bounds hP
    rw [length_romEntry]
    exact slot_room (hN.trans_le hF) sl d
  rw [commitSynth, commitSynth_tonebuf, Memory.writeBlock_writeBlock hs hroom]
  rfl

theorem commandAt_synth_idempotent (I : Instance) (d : Depth) (sl : Slot) (i : Nibble) (s t : State)
    (hI : I.params.wellFormed = true) (hs : s.tonebuf.wf = true) (h : commandAt I (.synth d sl i) s = .next t) :
    commandAt I (.synth d sl i) t = .next t := by
  obtain rfl : commitSynth I.params d sl i s = t := Host.Outcome.next.inj h
  rw [commandAt_synth, commitSynth_commitSynth hI d sl i hs]

/-- Settles O26: `commandAt_synth_idempotent`, of which the default command is a case. -/
theorem synthIsIdempotent : Obligations.SynthIsIdempotent := by
  unfold Obligations.SynthIsIdempotent
  refine ⟨fun d sl i s t hs h => ?_, commandAt_synth_idempotent⟩
  rw [← commandAt_inst] at h ⊢
  exact commandAt_synth_idempotent Config.inst d sl i s t params_wellFormed hs h

end Sys2Proof.Machine
end

section
/-! PROOFS. The bytes of the tone ROM (O31), and where the waveform is exactly zero (O32). -/

namespace Sys2Proof.Machine

open RealSpec

/-! ### The bytes of a ROM entry -/

/-- Byte `j` of group `t`, of groups of `b` bytes laid end to end. -/
theorem getD_flatMap_range {f : Nat → List Byte} {b : Nat} (hf : ∀ t, (f t).length = b) {n t j : Nat} (ht : t < n)
    (hj : j < b) : ((List.range n).flatMap f).getD (b * t + j) 0 = (f t).getD j 0 := by
  have hlen : ∀ n, ((List.range n).flatMap f).length = b * n := fun n => by
    simp [List.length_flatMap, hf, Nat.mul_comm]
  induction n with
  | zero => exact absurd ht t.not_lt_zero
  | succ n ih =>
    rw [List.range_succ, List.flatMap_append, List.flatMap_singleton]
    rcases Nat.lt_succ_iff_lt_or_eq.1 ht with hlt | rfl
    · have hin : b * t + j < b * n := calc
        b * t + j < b * (t + 1) := Nat.add_lt_add_left hj _
        _ ≤ b * n := Nat.mul_le_mul_left b hlt
      rw [List.getD_append _ _ _ _ (by rwa [hlen]), ih hlt]
    · rw [List.getD_append_right _ _ _ _ (by rw [hlen]; exact Nat.le_add_right _ _), hlen, Nat.add_sub_cancel_left]

section
variable (P : Params) (i : Nibble) {t : Nat} (ht : t < P.N)
include ht

/-- Byte `t` of an 8-bit entry (40_synthesis.md R145). -/
theorem romEntry_getD_8bit : (romEntry P 0 i).getD t 0 = BitVec.ofInt 8 (q8 P i t) := by
  have h := getD_flatMap_range (f := sampleBytes P 0 i) (b := 1) (fun _ => rfl) ht Nat.one_pos
  rwa [one_mul] at h

/-- Bytes `2t` and `2t + 1` of a 16-bit entry, the high byte first (40_synthesis.md R145). -/
theorem romEntry_getD_16bit :
    (romEntry P 1 i).getD (2 * t) 0 = (BitVec.ofInt 16 (q16 P i t)).extractLsb' 8 8 ∧
      (romEntry P 1 i).getD (2 * t + 1) 0 = (BitVec.ofInt 16 (q16 P i t)).extractLsb' 0 8 :=
  have hf : ∀ t, (sampleBytes P 1 i t).length = 2 := fun _ => rfl
  ⟨getD_flatMap_range hf ht Nat.two_pos, getD_flatMap_range hf ht Nat.one_lt_two⟩

end

/-- Settles O31: the bytes of the samples, and the samples as `q8_eq_floor` and `q16_eq_trunc` give them. -/
theorem romEntryIsExact : Obligations.RomEntryIsExact := by
  unfold Obligations.RomEntryIsExact
  intro P i hP
  refine ⟨(length_romEntry P 0 i).trans (Nat.mul_one _), (length_romEntry P 1 i).trans (Nat.mul_comm _ _),
    fun t ht => ?_⟩
  obtain ⟨hhigh, hlow⟩ := romEntry_getD_16bit P i ht
  rw [q16_eq_trunc hP i ht] at hhigh hlow
  exact ⟨by rw [romEntry_getD_8bit P i ht, q8_eq_floor hP i ht]; rfl, hhigh, hlow⟩

/-! ### The zeros of the waveform -/

theorem waveZero_iff (P : Params) (i : Nibble) (t : Nat) :
    waveZero P i t = true ↔ t = 0 ∨ t = P.N - 1 ∨ P.SR ∣ 2 * toneFreq P i * t := by
  simp only [waveZero, Bool.or_eq_true, beq_iff_eq, Nat.dvd_iff_mod_eq_zero, or_assoc]

/-- The sine is 0 at whole numbers of half turns alone (40_synthesis.md R146). -/
theorem dvd_of_sin_eq_zero {f sr t : ℕ} (hsr : 0 < sr) (h : Real.sin (2 * Real.pi * f * t / sr) = 0) :
    sr ∣ 2 * f * t := by
  obtain ⟨n, hn⟩ := Real.sin_eq_zero_iff.1 h
  have hsr' : (sr : ℝ) ≠ 0 := Nat.cast_ne_zero.2 hsr.ne'
  have hturns : (sr : ℝ) * n = 2 * f * t := by
    rw [eq_div_iff hsr'] at hn
    exact mul_left_cancel₀ Real.pi_ne_zero (by linear_combination hn)
  exact Int.natCast_dvd_natCast.1 ⟨n, by exact_mod_cast hturns.symm⟩

/-- The window is 0 at its two ends alone (40_synthesis.md R142). -/
theorem eq_end_of_hann_eq_zero {t L : ℕ} (hL : L ≤ 16384) (ht : t < L) (h : hann t L = 0) : t = 0 ∨ t = L - 1 := by
  by_contra! hinside
  obtain ⟨hfirst, hlast⟩ := hinside
  have hpos := hann_pos hL (t := t) (by omega) (by omega)
  rw [h] at hpos
  norm_num at hpos

/-- `waveZero` says exactly where the waveform is 0 (40_synthesis.md R146). -/
theorem waveform_eq_zero_iff {P : Params} (hP : P.wellFormed = true) (i : Nibble) {t : ℕ} (ht : t < P.N) :
    waveform (toneFreq P i) P.SR P.N t = 0 ↔ waveZero P i t = true := by
  obtain ⟨hN, hF, hF'⟩ := Params.size_bounds hP
  obtain ⟨hSR, -⟩ := Params.sample_bounds hP
  refine ⟨fun h => (waveZero_iff P i t).2 ?_, waveform_eq_zero hSR (by omega)⟩
  rcases mul_eq_zero.1 h with hsin | hhann
  · exact .inr (.inr (dvd_of_sin_eq_zero hSR hsin))
  · exact (eq_end_of_hann_eq_zero (hN.trans_le hF') ht hhann).imp_right .inl

theorem toneFloor_of_waveZero {P : Params} {i : Nibble} {t : Nat} (h : waveZero P i t = true) (A B : Int) :
    toneFloor P i t A B = B := by
  rw [toneFloor, if_pos h]

/-- Settles O32: `waveform_eq_zero_iff`, and a floor of 0 times an amplitude is its offset. -/
theorem romExactZeros : Obligations.RomExactZeros := by
  unfold Obligations.RomExactZeros
  intro P i t hP ht
  refine ⟨(waveform_eq_zero_iff hP i ht).trans (waveZero_iff P i t), fun h => ?_⟩
  have hzero := (waveZero_iff P i t).2 h
  rw [q8, q16, toneFloor_of_waveZero hzero, toneFloor_of_waveZero hzero, if_pos le_rfl]
  exact ⟨rfl, rfl⟩

end Sys2Proof.Machine
end

section
/-! PROOFS. What rounding to nearest keeps: order, the bound of a power of two, half of a sum, and the distance between
two f64 values (00_scope.md R11). The detector's bounds rest on these. -/

namespace Sys2Proof.RealSpec

open F64

section
variable {r : ℝ} {y z : F64}

/-- No finite f64 is nearer than the rounded one. -/
theorem IsRNE.dist_le (h : IsRNE r z) (hy : isFinite y = true) : |toReal z - r| ≤ |toReal y - r| := by
  rcases h.2 y hy with heq | hlt | ⟨htie, -⟩
  · rw [heq]
  · exact hlt.le
  · exact htie.le

/-- Rounding does not pass an f64 that lies above. -/
theorem IsRNE.toReal_le (h : IsRNE r z) (hy : isFinite y = true) (hr : r ≤ toReal y) : toReal z ≤ toReal y := by
  have hdist := h.dist_le hy
  by_contra! hlt
  rw [abs_of_nonneg (by linarith), abs_of_nonneg (by linarith)] at hdist
  linarith

/-- Rounding does not pass an f64 that lies below. -/
theorem IsRNE.le_toReal (h : IsRNE r z) (hy : isFinite y = true) (hr : toReal y ≤ r) : toReal y ≤ toReal z := by
  have hdist := h.dist_le hy
  by_contra! hlt
  rw [abs_of_nonpos (by linarith), abs_of_nonpos (by linarith)] at hdist
  linarith

theorem IsRNE.abs_toReal_le (h : IsRNE r z) (hy : isFinite y = true) (hr : |r| ≤ toReal y) : |toReal z| ≤ toReal y := by
  obtain ⟨hlow, hhigh⟩ := abs_le.1 hr
  have hneg := h.le_toReal (y := neg y) (by rwa [isFinite_neg]) (by rwa [toReal_neg])
  rw [toReal_neg] at hneg
  exact abs_le.2 ⟨hneg, h.toReal_le hy hhigh⟩

/-- A real that is an f64 rounds to itself. -/
theorem IsRNE.toReal_eq (h : IsRNE r z) (hy : isFinite y = true) (hr : toReal y = r) : toReal z = r :=
  hr ▸ le_antisymm (h.toReal_le hy hr.ge) (h.le_toReal hy hr.le)

end

end Sys2Proof.RealSpec

namespace Sys2Proof.F64

open RealSpec

theorem toReal_zero : toReal zero = 0 := by
  rw [toReal, show scaled zero = 0 by decide, Int.cast_zero, zero_div]

/-- Zero rounds to a zero. -/
theorem toReal_eq_zero_of_isRNE {z : F64} (h : IsRNE 0 z) : toReal z = 0 :=
  h.toReal_eq (y := zero) (by decide) toReal_zero

theorem abs_toReal (x : F64) : |toReal x| = units x / 2 ^ 1074 := by
  rw [toReal, abs_div, abs_of_pos (by positivity : (0 : ℝ) < 2 ^ 1074), ← Int.cast_abs, ← Nat.cast_natAbs,
    natAbs_scaled]

theorem toReal_of_nonneg {x : F64} (h : sign x = false) : toReal x = units x / 2 ^ 1074 := by
  rw [toReal_eq, h, if_neg Bool.false_ne_true, one_mul]

/-- Nonnegative f64 values order as their magnitude bits do. -/
theorem toReal_lt_iff {x y : F64} (hx : isFinite x = true) (hy : isFinite y = true) (hsx : sign x = false)
    (hsy : sign y = false) : toReal x < toReal y ↔ absBits x < absBits y := by
  rw [isFinite_iff] at hx hy
  rw [toReal_of_nonneg hsx, toReal_of_nonneg hsy, div_lt_div_iff_of_pos_right (by positivity), Nat.cast_lt]
  exact unitsOfBits_lt_iff hx.le hy.le

theorem rne_two_pow {e : ℕ} (he : e ≤ 2044) :
    isFinite (rne false (2 ^ e) 1) = true ∧ toReal (rne false (2 ^ e) 1) = 2 ^ e / 2 ^ 1074 := by
  obtain ⟨hfin, hunits⟩ := roundBits_exact 1 e (by decide) he
  rw [one_mul] at hfin hunits
  refine ⟨by rwa [isFinite_iff, absBits_rne], ?_⟩
  rw [toReal_of_nonneg (sign_rne _ _ _), units_rne, hunits, Nat.cast_pow, Nat.cast_ofNat]

/-- A power of two of the normal range is an f64. -/
theorem exists_toReal_two_pow {e : ℕ} (he : e ≤ 970) : ∃ z : F64, isFinite z = true ∧ toReal z = 2 ^ e := by
  obtain ⟨hfin, hval⟩ := rne_two_pow (e := 1074 + e) (by omega)
  exact ⟨_, hfin, by rw [hval, pow_add, mul_div_cancel_left₀ _ (by positivity)]⟩

theorem half_exact : isFinite half = true ∧ toReal half = 1 / 2 := by
  obtain ⟨hfin, hval⟩ := rne_two_pow (e := 1073) (by norm_num)
  exact ⟨hfin, by rw [half, hval, pow_succ (2 : ℝ) 1073, div_mul_cancel_left₀ (by positivity), one_div]⟩

/-- Twice a nonnegative f64 of moderate size is an f64. -/
theorem exists_toReal_double {x : F64} (hs : sign x = false) {n : ℕ} (hn : n ≤ 969) (hx : toReal x ≤ 2 ^ n) :
    ∃ y : F64, isFinite y = true ∧ toReal y = 2 * toReal x := by
  obtain ⟨e, k, -, hk, hlow, hunits⟩ := unitsOfBits_split (absBits x)
  change units x = k * 2 ^ e at hunits
  rw [toReal_of_nonneg hs] at hx ⊢
  have hle : k * 2 ^ e ≤ 2 ^ (n + 1074) := by
    rw [div_le_iff₀ (by positivity), ← pow_add] at hx
    rw [← hunits]
    exact_mod_cast hx
  have he : e ≤ n + 1074 := by
    rcases Nat.eq_zero_or_pos e with rfl | hpos
    · exact Nat.zero_le _
    · have hk0 : 0 < k := lt_of_lt_of_le (by decide) (hlow hpos)
      exact (Nat.pow_le_pow_iff_right Nat.one_lt_two).1 ((Nat.le_mul_of_pos_left _ hk0).trans hle)
  obtain ⟨hfin, hdouble⟩ := roundBits_exact k (e + 1) hk.le (by omega)
  refine ⟨rne false (k * 2 ^ (e + 1)) 1, by rwa [isFinite_iff, absBits_rne], ?_⟩
  rw [toReal_of_nonneg (sign_rne _ _ _), units_rne, hdouble, hunits, ← mul_div_assoc, pow_succ, ← Nat.mul_assoc,
    Nat.mul_comm _ 2, Nat.cast_mul 2, Nat.cast_ofNat]

/-- An operation whose real result is within a power of two stays finite and within it. -/
theorem Rounds.bounded {r : ℝ} {z : F64} (h : Rounds z r) {e : ℕ} (he : e ≤ 970) (hr : |r| ≤ 2 ^ e) :
    isFinite z = true ∧ |toReal z| ≤ 2 ^ e := by
  have hfin : isFinite z = true := h.2 (hr.trans_lt (pow_lt_pow_right₀ one_lt_two (by omega)))
  obtain ⟨y, hy, hpow⟩ := exists_toReal_two_pow he
  rw [← hpow] at hr ⊢
  exact ⟨hfin, (h.1 hfin).abs_toReal_le hy hr⟩

/-- A sum keeps at least half of its size: f64 addition does not underflow. -/
theorem half_le_abs_add {x y : F64} (hx : isFinite x = true) (hy : isFinite y = true)
    (hz : isFinite (add x y) = true) : |toReal x + toReal y| / 2 ≤ |toReal (add x y)| := by
  have hsum : |toReal x + toReal y| = (scaled x + scaled y).natAbs / 2 ^ 1074 := by
    rw [toReal_add_toReal, abs_div, abs_of_pos (by positivity : (0 : ℝ) < 2 ^ 1074), ← Int.cast_abs, ← Nat.cast_natAbs]
  rw [add_eq_rne hx hy] at hz ⊢
  rw [hsum, abs_toReal, units_rne, div_right_comm]
  rw [isFinite_iff, absBits_rne] at hz
  refine div_le_div_of_nonneg_right ?_ (by positivity)
  generalize (scaled x + scaled y).natAbs = n at *
  rcases Nat.eq_zero_or_pos n with rfl | hn
  · rw [Nat.cast_zero, zero_div]
    exact Nat.cast_nonneg _
  · have herr := rne_units_error one_pos hz
    have hone : (1 : ℝ) ≤ n := by exact_mod_cast hn
    rw [Nat.cast_one, div_one] at herr
    have hmax : max (1 / 2) ((n : ℝ) / 2 ^ 53) ≤ (n : ℝ) / 2 := max_le (by linarith) (by linarith)
    have hlow := (abs_le.1 (herr.trans hmax)).1
    linarith

/-- Two neighbouring magnitudes lie at least 2^-53 of the larger one apart. -/
theorem unitsOfBits_succ_gap (b : Nat) :
    unitsOfBits (b + 1) + 2 ^ 53 * unitsOfBits b ≤ 2 ^ 53 * unitsOfBits (b + 1) := by
  obtain ⟨e, k, hb, hk, hlow, hunits⟩ := unitsOfBits_split (b + 1)
  rw [hunits]
  by_cases hcarry : 0 < e ∧ k = 2 ^ 52
  · obtain ⟨he, rfl⟩ := hcarry
    obtain ⟨e, rfl⟩ := Nat.exists_eq_add_one_of_ne_zero he.ne'
    have hprev : unitsOfBits b = (2 ^ 53 - 1) * 2 ^ e := by
      rw [show b = e * 2 ^ 52 + (2 ^ 53 - 1) by omega]
      exact unitsOfBits_build e _ (by omega) (by omega)
    rw [hprev, pow_succ]
    omega
  · have hk0 : k ≠ 0 := by
      rintro rfl
      rcases Nat.eq_zero_or_pos e with rfl | he
      · omega
      · have := hlow he
        omega
    have hprev : unitsOfBits b = (k - 1) * 2 ^ e := by
      rw [show b = e * 2 ^ 52 + (k - 1) by omega]
      refine unitsOfBits_build e _ (by omega) fun he => ?_
      have := hlow he
      omega
    have hgap : k * 2 ^ e = (k - 1) * 2 ^ e + 2 ^ e := by
      rw [← Nat.succ_mul, Nat.succ_eq_add_one, Nat.sub_add_cancel (Nat.pos_of_ne_zero hk0)]
    have hle : k * 2 ^ e ≤ 2 ^ 53 * 2 ^ e := Nat.mul_le_mul_right _ hk.le
    omega

/-- Two nonnegative f64 values lie at least 2^-53 of the larger one apart. -/
theorem toReal_gap {x y : F64} (hx : isFinite x = true) (hy : isFinite y = true) (hsx : sign x = false)
    (hsy : sign y = false) (h : toReal x < toReal y) : toReal y / 2 ^ 53 ≤ toReal y - toReal x := by
  have hlt := (toReal_lt_iff hx hy hsx hsy).1 h
  rw [isFinite_iff] at hx hy
  rw [toReal_of_nonneg hsx, toReal_of_nonneg hsy]
  have hpred : absBits y - 1 + 1 = absBits y := by omega
  have hle : units x ≤ unitsOfBits (absBits y - 1) := (unitsOfBits_le_iff hx.le (by omega)).2 (by omega)
  have hgap := unitsOfBits_succ_gap (absBits y - 1)
  rw [hpred] at hgap
  have hunits : units y + 2 ^ 53 * units x ≤ 2 ^ 53 * units y :=
    (Nat.add_le_add_left (Nat.mul_le_mul_left _ hle) _).trans hgap
  have hreal : (units y : ℝ) + 2 ^ 53 * units x ≤ 2 ^ 53 * units y := by exact_mod_cast hunits
  rw [div_right_comm, ← sub_div]
  refine div_le_div_of_nonneg_right ?_ (by positivity)
  rw [div_le_iff₀ (by positivity)]
  linarith

theorem absBits_even_of_getLsbD {x : F64} (h : x.getLsbD 0 = false) : absBits x % 2 = 0 := by
  rw [BitVec.getLsbD, Nat.testBit_zero, decide_eq_false_iff_not] at h
  rw [absBits]
  omega

/-- Between two values with even significands lies a third. -/
theorem exists_toReal_between {x z : F64} (hx : isFinite x = true) (hz : isFinite z = true) (hsx : sign x = false)
    (hsz : sign z = false) (hex : x.getLsbD 0 = false) (hez : z.getLsbD 0 = false) (h : toReal x < toReal z) :
    ∃ y : F64, isFinite y = true ∧ toReal x < toReal y ∧ toReal y < toReal z := by
  have hlt := (toReal_lt_iff hx hz hsx hsz).1 h
  have hx2 := absBits_even_of_getLsbD hex
  have hz2 := absBits_even_of_getLsbD hez
  have hzfin := (isFinite_iff z).1 hz
  have hroom : absBits x + 1 < 2 ^ 63 := by
    have := absBits_lt z
    omega
  have hbits := absBits_ofBits false (absBits x + 1) hroom
  have hsign := sign_ofBits false (absBits x + 1) hroom
  have hfin : isFinite (ofBits false (absBits x + 1)) = true := by
    rw [isFinite_iff, hbits]
    omega
  refine ⟨_, hfin, (toReal_lt_iff hx hfin hsx hsign).2 ?_, (toReal_lt_iff hfin hz hsign hsz).2 ?_⟩
  · rw [hbits]
    omega
  · rw [hbits]
    omega

/-- Two roundings of one real are not apart: of two f64 values at one distance with even significands, neither is
nearest. -/
theorem not_lt_of_isRNE {r : ℝ} {x z : F64} (hx : IsRNE r x) (hz : IsRNE r z) (hsx : sign x = false)
    (hsz : sign z = false) : ¬toReal x < toReal z := by
  intro hlt
  have hxz := hx.dist_le hz.1
  have hzx := hz.dist_le hx.1
  obtain ⟨-, hex⟩ := ((hx.2 z hz.1).resolve_left hlt.ne').resolve_left hzx.not_gt
  obtain ⟨-, hez⟩ := ((hz.2 x hx.1).resolve_left hlt.ne).resolve_left hxz.not_gt
  obtain ⟨y, hy, hxy, hyz⟩ := exists_toReal_between hx.1 hz.1 hsx hsz hex hez hlt
  have hyx := hx.dist_le hy
  have hyz' := hz.dist_le hy
  rcases le_total (toReal y) r with hr | hr
  · rw [abs_of_nonpos (by linarith), abs_of_nonpos (by linarith)] at hyx
    linarith
  · rw [abs_of_nonneg (by linarith), abs_of_nonneg (by linarith)] at hyz'
    linarith

/-- Rounding has one value. -/
theorem toReal_unique_of_isRNE {r : ℝ} {x z : F64} (hx : IsRNE r x) (hz : IsRNE r z) (hsx : sign x = false)
    (hsz : sign z = false) : toReal x = toReal z :=
  le_antisymm (not_lt.1 (not_lt_of_isRNE hz hx hsz hsx)) (not_lt.1 (not_lt_of_isRNE hx hz hsx hsz))

/-- Some f64 lies within 2^-53 of a nonnegative real and one and a half of the smallest unit. -/
theorem exists_toReal_near {x : ℝ} (h0 : 0 ≤ x) (h : x ≤ 2 ^ 1000) :
    ∃ z : F64, isFinite z = true ∧ |toReal z - x| ≤ x / 2 ^ 53 + 3 / 2 / 2 ^ 1074 := by
  have hunit : (0 : ℝ) < 2 ^ 1074 := by positivity
  have hfloor : (⌊x * 2 ^ 1074⌋₊ : ℝ) ≤ x * 2 ^ 1074 := Nat.floor_le (by positivity)
  have hceil : x * 2 ^ 1074 < ⌊x * 2 ^ 1074⌋₊ + 1 := Nat.lt_floor_add_one _
  have hsmall : ⌊x * 2 ^ 1074⌋₊ < 2 ^ 2097 := by
    rw [Nat.floor_lt (by positivity), Nat.cast_pow, Nat.cast_ofNat]
    refine (mul_le_mul_of_nonneg_right h hunit.le).trans_lt ?_
    rw [← pow_add]
    exact pow_lt_pow_right₀ one_lt_two (by norm_num)
  generalize ⌊x * 2 ^ 1074⌋₊ = n at *
  have hfin := roundBits_finite one_pos (by rwa [Nat.div_one])
  have herr := rne_units_error one_pos hfin
  refine ⟨rne false n 1, by rwa [isFinite_iff, absBits_rne], ?_⟩
  rw [toReal_of_nonneg (sign_rne _ _ _), units_rne]
  rw [Nat.cast_one, div_one] at herr
  generalize (unitsOfBits (roundBits n 1) : ℝ) = u at *
  generalize (2 : ℝ) ^ 1074 = U at *
  have hmax : max (1 / 2) ((n : ℝ) / 2 ^ 53) ≤ 1 / 2 + x * U / 2 ^ 53 :=
    max_le (by linarith [div_nonneg (mul_nonneg h0 hunit.le) (by norm_num : (0 : ℝ) ≤ 2 ^ 53)]) (by linarith)
  obtain ⟨hlow, hhigh⟩ := abs_le.1 (herr.trans hmax)
  rw [show u / U - x = (u - x * U) / U by field_simp, show x / 2 ^ 53 + 3 / 2 / U = (x * U / 2 ^ 53 + 3 / 2) / U by
    field_simp, abs_div, abs_of_pos hunit]
  exact div_le_div_of_nonneg_right (abs_le.2 ⟨by linarith, by linarith⟩) hunit.le

end Sys2Proof.F64
end

section
/-! PROOFS. What DETECT gives MAG: the dequantized samples (O35), the window table (O36) and their products (O37). -/

namespace Sys2Proof.Machine

open F64 RealSpec

/-! ### Dequantization -/

/-- The quotient of a small integer and a power of two is exact. -/
theorem toReal_div_two_pow {a : Int} {e : Nat} (ha : a.natAbs ≤ 2 ^ 53) (he : e ≤ 53) :
    isFinite (div (ofInt a) (ofInt (2 ^ e))) = true ∧ toReal (div (ofInt a) (ofInt (2 ^ e))) = a / 2 ^ e := by
  obtain ⟨hfin, hsign, hunits⟩ := div_pow_exact ha he
  have hsigned : (if a < 0 then -1 else 1 : ℝ) * a.natAbs = a := by
    rw [Nat.cast_natAbs, Int.cast_abs]
    split
    · next hneg => rw [abs_of_neg (Int.cast_lt_zero.2 hneg), neg_mul_neg, one_mul]
    · next hpos => rw [abs_of_nonneg (Int.cast_nonneg (not_lt.1 hpos)), one_mul]
  have hpow : (2 : ℝ) ^ 1074 = 2 ^ e * 2 ^ (1074 - e) := by rw [← pow_add, Nat.add_sub_of_le (by omega)]
  refine ⟨hfin, ?_⟩
  rw [toReal_eq, hsign, hunits, hpow, Nat.cast_mul, Nat.cast_pow, Nat.cast_ofNat, ← mul_assoc,
    mul_div_mul_right _ _ (by positivity)]
  simp only [decide_eq_true_eq, hsigned]

theorem dequant8_exact {P : Params} (h : P.BIAS8 ≤ 255) (b : Byte) :
    isFinite (dequant8 P b) = true ∧ toReal (dequant8 P b) = (b.toNat - (P.BIAS8 : ℝ)) / 128 := by
  have hb := b.isLt
  obtain ⟨hfin, hval⟩ := toReal_div_two_pow (a := (b.toNat : Int) - P.BIAS8) (e := 7) (by omega) (by decide)
  refine ⟨hfin, hval.trans ?_⟩
  push_cast
  norm_num

theorem dequant16_exact (h l : Byte) :
    isFinite (dequant16 h l) = true ∧ toReal (dequant16 h l) = (sext16 h l : ℝ) / 32768 := by
  obtain ⟨hlow, hhigh⟩ := sext16_bounds h l
  obtain ⟨hfin, hval⟩ := toReal_div_two_pow (a := sext16 h l) (e := 15) (by omega) (by decide)
  refine ⟨hfin, hval.trans ?_⟩
  norm_num

/-- A sample of 8 bits lies between -255/128 and 255/128 (41_detection.md R162). -/
theorem abs_dequant8_le {P : Params} (h : P.BIAS8 ≤ 255) (b : Byte) : |toReal (dequant8 P b)| ≤ 255 / 128 := by
  have hb : (b.toNat : ℝ) ≤ 255 := by exact_mod_cast Nat.le_of_lt_succ b.isLt
  have hbias : (P.BIAS8 : ℝ) ≤ 255 := by exact_mod_cast h
  rw [(dequant8_exact h b).2, abs_div, abs_of_pos (by norm_num : (0 : ℝ) < 128)]
  refine div_le_div_of_nonneg_right (abs_le.2 ⟨?_, ?_⟩) (by norm_num)
  · linarith [Nat.cast_nonneg (α := ℝ) b.toNat]
  · linarith [Nat.cast_nonneg (α := ℝ) P.BIAS8]

/-- A sample of 16 bits lies between -1 and 32767/32768 (41_detection.md R163). -/
theorem dequant16_mem (h l : Byte) : -1 ≤ toReal (dequant16 h l) ∧ toReal (dequant16 h l) ≤ 32767 / 32768 := by
  obtain ⟨hlow, hhigh⟩ := sext16_bounds h l
  have hlow' : (-32768 : ℝ) ≤ sext16 h l := by exact_mod_cast hlow
  have hhigh' : (sext16 h l : ℝ) ≤ 32767 := by exact_mod_cast hhigh
  rw [(dequant16_exact h l).2]
  constructor <;> linarith

theorem windowSample_8bit (P : Params) (m : Memory) (b n : Nat) :
    windowSample P 0 m b n = dequant8 P (m.read (b + n)) := if_pos rfl

theorem windowSample_16bit (P : Params) (m : Memory) (b n : Nat) :
    windowSample P 1 m b n = dequant16 (m.read (b + 2 * n)) (m.read (b + 2 * n + 1)) :=
  if_neg (by decide)

/-- Settles O35: each depth's quotient is exact, and its numerator has the range of a byte or of a pair. -/
theorem dequantizationIsExact : Obligations.DequantizationIsExact := by
  unfold Obligations.DequantizationIsExact
  intro P m b n hP
  obtain ⟨-, -, hsum, -⟩ := Params.sample_bounds hP
  have hbias : P.BIAS8 ≤ 255 := by omega
  obtain ⟨hfin8, hval8⟩ := dequant8_exact hbias (m.read (b + n))
  obtain ⟨hfin16, hval16⟩ := dequant16_exact (m.read (b + 2 * n)) (m.read (b + 2 * n + 1))
  rw [windowSample_8bit, windowSample_16bit]
  refine ⟨hfin8, hval8, abs_dequant8_le hbias _, fun h128 => ?_, hfin16, hval16, dequant16_mem _ _⟩
  have hbyte : ((m.read (b + n)).toNat : ℝ) ≤ 255 := by exact_mod_cast Nat.le_of_lt_succ (m.read (b + n)).isLt
  have hbyte0 : (0 : ℝ) ≤ (m.read (b + n)).toNat := Nat.cast_nonneg _
  rw [hval8, h128]
  constructor <;> norm_num <;> linarith

/-! ### The window table -/

theorem hannFloor_end {F n : Nat} (h : n = 0 ∨ n = F - 1) (A : Int) : hannFloor F n A = 0 := by
  rw [hannFloor, if_pos h]

theorem windowCoeff_end {F n : Nat} (h : n = 0 ∨ n = F - 1) : windowCoeff F n = 0 := by
  rw [windowCoeff, hannFloor_end h, hannFloor_end h, sub_self, Int.toNat_zero, Nat.zero_mul, rne_zero]
  rfl

/-- The table rounds the middle of the floor and the ceiling of the window in units of 2^-80. -/
theorem windowCoeff_isRNE_middle {F n : ℕ} (hF : 8 ≤ F) (hF' : F ≤ 16384) (hn : n < F) :
    IsRNE (((⌊2 ^ 80 * hann n F⌋ + ⌈2 ^ 80 * hann n F⌉ : ℤ) : ℝ) / 2 ^ 81) (windowCoeff F n) := by
  have hlow : hannFloor F n (2 ^ 80) = ⌊2 ^ 80 * hann n F⌋ := by
    rw [hannFloor_eq (by omega) hn (by norm_num)]
    norm_num
  have hhigh : hannFloor F n (-2 ^ 80) = -⌈2 ^ 80 * hann n F⌉ := by
    rw [hannFloor_eq (by omega) hn (by norm_num), ← Int.floor_neg]
    norm_num
  have hnonneg : 0 ≤ ⌊2 ^ 80 * hann n F⌋ + ⌈2 ^ 80 * hann n F⌉ := by
    have h0 := mul_nonneg (by positivity : (0 : ℝ) ≤ 2 ^ 80) (FixedTrig.hann_mem n F).1
    exact add_nonneg (Int.floor_nonneg.2 h0) (Int.ceil_nonneg h0)
  have hfin := (windowCoeff_bound (by omega) hF' hn).1
  rw [windowCoeff, hlow, hhigh, sub_neg_eq_add] at hfin ⊢
  rw [isFinite_iff, absBits_rne] at hfin
  have hrne := isRNE_rne false one_pos hfin
  rw [if_neg Bool.false_ne_true, one_mul, Nat.cast_one, div_one] at hrne
  generalize ⌊2 ^ 80 * hann n F⌋ + ⌈2 ^ 80 * hann n F⌉ = i at *
  convert hrne using 1
  have hcast : ((i.toNat : ℕ) : ℝ) = i := by exact_mod_cast Int.toNat_of_nonneg hnonneg
  rw [Nat.cast_mul, hcast, Nat.cast_pow, Nat.cast_ofNat, show 1074 = 81 + 993 from rfl, pow_add,
    mul_div_mul_right _ _ (by positivity)]

/-- Between two multiples of 2^-80 a real from 2^-26 on rounds as their middle does; on one it is the middle itself. -/
theorem isRNE_of_middle {w : ℝ} {z : F64} (hw : w = 0 ∨ 1 / 2 ^ 26 ≤ w)
    (h : IsRNE (((⌊2 ^ 80 * w⌋ + ⌈2 ^ 80 * w⌉ : ℤ) : ℝ) / 2 ^ 81) z) : IsRNE w z := by
  have hscale : (0 : ℝ) < 2 ^ 80 := by positivity
  have hdouble : (2 : ℝ) ^ 81 = 2 * 2 ^ 80 := by rw [pow_succ, mul_comm]
  have hfloor := Int.floor_le (2 ^ 80 * w)
  have hceil := Int.le_ceil (2 ^ 80 * w)
  rw [hdouble] at h
  by_cases hint : ⌈2 ^ 80 * w⌉ = ⌊2 ^ 80 * w⌋
  · have hvalue : w = ((⌊2 ^ 80 * w⌋ + ⌈2 ^ 80 * w⌉ : ℤ) : ℝ) / (2 * 2 ^ 80) := by
      rw [hint] at hceil ⊢
      rw [eq_div_iff (by positivity)]
      push_cast
      linarith
    rwa [← hvalue] at h
  · have hnext : ⌈2 ^ 80 * w⌉ = ⌊2 ^ 80 * w⌋ + 1 :=
      le_antisymm (Int.ceil_le_floor_add_one _)
        (Int.add_one_le_iff.2 (lt_of_le_of_ne (Int.floor_le_ceil _) (Ne.symm hint)))
    have hlarge : 1 / 2 ^ 26 ≤ w := hw.resolve_left fun h0 => hint (by simp [h0])
    have hbig : 2 ^ 54 ≤ ⌊2 ^ 80 * w⌋ := by
      rw [Int.le_floor]
      push_cast
      linarith
    have hbig' : (2 : ℝ) ^ 54 ≤ ⌊2 ^ 80 * w⌋ := by exact_mod_cast hbig
    have hne : (⌊2 ^ 80 * w⌋ : ℝ) ≠ 2 ^ 80 * w := fun he => hint (by rw [← he, Int.ceil_intCast, Int.floor_intCast])
    have hbelow : (⌊2 ^ 80 * w⌋ : ℝ) < 2 ^ 80 * w := lt_of_le_of_ne hfloor hne
    have habove : 2 ^ 80 * w < ⌊2 ^ 80 * w⌋ + 1 := Int.lt_floor_add_one _
    rw [hnext] at h
    generalize ⌊2 ^ 80 * w⌋ = a at *
    refine isRNE_of_between (a := a) h ?_ ?_ ?_ ?_ ?_
    · rw [div_le_div_iff₀ (by positivity) (by positivity)]
      push_cast
      linarith
    · rw [div_lt_div_iff₀ hscale (by positivity)]
      push_cast
      linarith
    · rw [div_lt_div_iff₀ (by positivity) hscale]
      push_cast
      linarith
    · rwa [div_lt_iff₀' hscale]
    · rwa [lt_div_iff₀' hscale]

theorem hann_end {t L : ℕ} (hL : 2 ≤ L) (h : t = 0 ∨ t = L - 1) : hann t L = 0 := by
  have hlast : ((L - 1 : ℕ) : ℝ) = (L : ℝ) - 1 := by rw [Nat.cast_sub (by omega), Nat.cast_one]
  have hne : ((L - 1 : ℕ) : ℝ) ≠ 0 := Nat.cast_ne_zero.2 (by omega)
  rw [FixedTrig.hann_eq_sin_sq, ← hlast]
  rcases h with rfl | rfl
  · rw [Nat.cast_zero, mul_zero, zero_div, Real.sin_zero, zero_pow two_ne_zero]
  · rw [mul_div_cancel_right₀ _ hne, Real.sin_pi, zero_pow two_ne_zero]

/-- A coefficient is the rounded window (41_detection.md R164). -/
theorem windowCoeff_isRNE {F n : ℕ} (hF : 8 ≤ F) (hF' : F ≤ 16384) (hn : n < F) :
    IsRNE (hann n F) (windowCoeff F n) := by
  refine isRNE_of_middle ?_ (windowCoeff_isRNE_middle hF hF' hn)
  by_cases hend : n = 0 ∨ n = F - 1
  · exact .inl (hann_end (by omega) hend)
  · exact .inr (hann_pos hF' (by omega) (by omega))

/-- Settles O36. -/
theorem windowTableIsRounded : Obligations.WindowTableIsRounded := by
  unfold Obligations.WindowTableIsRounded
  intro P hP
  obtain ⟨-, hF, hF'⟩ := Params.size_bounds hP
  exact ⟨fun n hn => windowCoeff_isRNE hF hF' hn, windowCoeff_end (.inl rfl), windowCoeff_end (.inr rfl)⟩

/-! ### The windowed samples -/

/-- A dequantized sample under a valid record, at either depth (41_detection.md R162, R163). -/
theorem windowSample_bounds {P : Params} (hP : P.wellFormed = true) (d : Depth) (m : Memory) (b n : Nat) :
    isFinite (windowSample P d m b n) = true ∧ |toReal (windowSample P d m b n)| ≤ 255 / 128 := by
  obtain ⟨-, -, hsum, -⟩ := Params.sample_bounds hP
  have hbias : P.BIAS8 ≤ 255 := by omega
  rcases depth_cases d with rfl | rfl
  · rw [windowSample_8bit]
    exact ⟨(dequant8_exact hbias _).1, abs_dequant8_le hbias _⟩
  · rw [windowSample_16bit]
    obtain ⟨hlow, hhigh⟩ := dequant16_mem (m.read (b + 2 * n)) (m.read (b + 2 * n + 1))
    exact ⟨(dequant16_exact _ _).1, abs_le.2 ⟨by linarith, by linarith⟩⟩

/-- A coefficient is a finite f64 between 0 and 1 (41_detection.md R164). -/
theorem windowCoeff_mem {F n : ℕ} (hF : 8 ≤ F) (hF' : F ≤ 16384) (hn : n < F) :
    isFinite (windowCoeff F n) = true ∧ |toReal (windowCoeff F n)| ≤ 1 := by
  obtain ⟨h0, h1⟩ := FixedTrig.hann_mem n F
  have hrne := windowCoeff_isRNE hF hF' hn
  obtain ⟨hone, hval⟩ := ofInt_exact (i := 1) (by decide)
  rw [Int.cast_one] at hval
  exact ⟨hrne.1, hval ▸ hrne.abs_toReal_le hone (by rwa [hval, abs_of_nonneg h0])⟩

section
variable {P : Params} (hP : P.wellFormed = true) (d : Depth) (sl : Slot) (m : Memory) {n : Nat} (hn : n < P.F)
include hP hn

/-- A windowed sample is the rounded product (41_detection.md R165). -/
theorem getD_windowed_isRNE :
    IsRNE (toReal (windowSample P d m (winSlotBase P sl d) n) * toReal (windowCoeff P.F n))
      ((windowed P d sl m).getD n 0#64) := by
  obtain ⟨-, hF, hF'⟩ := Params.size_bounds hP
  obtain ⟨hx, hxle⟩ := windowSample_bounds hP d m (winSlotBase P sl d) n
  obtain ⟨hw, hwle⟩ := windowCoeff_mem hF hF' hn
  have hrounds := rounds_mul hx hw
  rw [getD_windowed hn]
  refine hrounds.1 (hrounds.bounded (e := 1) (by decide) ?_).1
  rw [abs_mul]
  have := mul_le_mul hxle hwle (abs_nonneg _) (by norm_num)
  linarith

theorem abs_getD_windowed_le : |toReal ((windowed P d sl m).getD n 0#64)| ≤ 255 / 128 := by
  obtain ⟨-, hF, hF'⟩ := Params.size_bounds hP
  obtain ⟨hbound, hval⟩ := toReal_div_two_pow (a := 255) (e := 7) (by decide) (by decide)
  have hval' : toReal (div (ofInt 255) (ofInt (2 ^ 7))) = 255 / 128 := by
    rw [hval]
    norm_num
  rw [← hval']
  refine (getD_windowed_isRNE hP d sl m hn).abs_toReal_le hbound ?_
  have := mul_le_mul (windowSample_bounds hP d m (winSlotBase P sl d) n).2 (windowCoeff_mem hF hF' hn).2 (abs_nonneg _)
    (by norm_num)
  rwa [hval', abs_mul, ← mul_one (255 / 128 : ℝ)]

/-- A factor of zero gives a zero. -/
theorem toReal_getD_windowed_eq_zero
    (h : toReal (windowSample P d m (winSlotBase P sl d) n) = 0 ∨ toReal (windowCoeff P.F n) = 0) :
    toReal ((windowed P d sl m).getD n 0#64) = 0 := by
  have hrne := getD_windowed_isRNE hP d sl m hn
  rw [mul_eq_zero.2 h] at hrne
  exact toReal_eq_zero_of_isRNE hrne

end

/-- Settles O37. -/
theorem windowedSamplesAreBounded : Obligations.WindowedSamplesAreBounded := by
  unfold Obligations.WindowedSamplesAreBounded
  intro P d sl m n hP hn
  refine ⟨getD_windowed hn d sl m 0#64, (getD_windowed_isRNE hP d sl m hn).1, abs_getD_windowed_le hP d sl m hn,
    fun hend => ?_⟩
  have hzero : toReal (windowCoeff P.F n) = 0 := by
    rw [windowCoeff_end hend]
    exact toReal_zero
  exact toReal_getD_windowed_eq_zero hP d sl m hn (.inr hzero)

end Sys2Proof.Machine
end

section
/-! PROOFS. The peak scan, by an invariant over the bins it has passed (O38), and what a DETECT commits with a peak and
without one (O39, O28). -/

namespace Sys2Proof.Machine

open F64 RealSpec

/-! ### The scan -/

theorem magnitudes_of_getD {m : List F64}
    (h : ∀ k < m.length, isFinite (m.getD k 0#64) = true ∧ sign (m.getD k 0#64) = false) : Magnitudes m := by
  intro x hx
  obtain ⟨k, hk, rfl⟩ := List.mem_iff_getElem.1 hx
  rw [← List.getD_eq_getElem _ 0#64 hk]
  exact h k hk

theorem Magnitudes.getD {m : List F64} (hm : Magnitudes m) (k : Nat) :
    isFinite (m.getD k 0#64) = true ∧ sign (m.getD k 0#64) = false := by
  rcases Nat.lt_or_ge k m.length with hk | hk
  · rw [List.getD_eq_getElem _ _ hk]
    exact hm _ (List.getElem_mem hk)
  · rw [List.getD_eq_default _ _ hk]
    decide

theorem Magnitudes.toReal_nonneg {m : List F64} (hm : Magnitudes m) (k : Nat) : 0 ≤ toReal (m.getD k 0#64) := by
  rw [toReal_of_nonneg (hm.getD k).2]
  positivity

/-- A strict local maximum lies above its neighbours, so above 0. -/
theorem StrictLocalMax.pos {m : List F64} {k : Nat} (h : StrictLocalMax m k) (hm : Magnitudes m) :
    0 < toReal (m.getD k 0#64) := by
  obtain ⟨-, -, hleft, -⟩ := h
  exact (hm.toReal_nonneg (k - 1)).trans_lt hleft

/-- What the scan holds when it reaches bin `k`: the lowest of the largest strict local maxima below `k`, or 0 as bin
and magnitude when there is none (41_detection.md R170, R171). -/
structure ScanState (m : List F64) (k peak : Nat) (best : F64) : Prop where
  /-- The bin held is 0 or a strict local maximum, and the magnitude held is its own. -/
  held : (peak = 0 ∧ best = zero) ∨ (StrictLocalMax m peak ∧ best = m.getD peak 0#64)
  /-- The bin held was passed. -/
  passed : peak < k
  /-- No strict local maximum passed is larger, and none below the bin held is as large. -/
  largest : ∀ j < k, StrictLocalMax m j →
    toReal (m.getD j 0#64) ≤ toReal best ∧ (j < peak → toReal (m.getD j 0#64) < toReal best)

namespace ScanState

variable {m : List F64} {k peak : Nat} {best : F64}

theorem start (m : List F64) : ScanState m 1 0 zero where
  held := .inl ⟨rfl, rfl⟩
  passed := Nat.one_pos
  largest := fun j hj ⟨hj', _⟩ => absurd hj (by omega)

theorem isFinite_best (h : ScanState m k peak best) (hm : Magnitudes m) : isFinite best = true := by
  rcases h.held with ⟨-, rfl⟩ | ⟨-, rfl⟩
  · decide
  · exact (hm.getD peak).1

/-- A larger strict local maximum is taken. -/
theorem take (h : ScanState m k peak best) (hk : StrictLocalMax m k) (hlt : toReal best < toReal (m.getD k 0#64)) :
    ScanState m (k + 1) k (m.getD k 0#64) where
  held := .inr ⟨hk, rfl⟩
  passed := Nat.lt_succ_self k
  largest := fun j hj hmax => by
    rcases Nat.lt_succ_iff_lt_or_eq.1 hj with hlow | rfl
    · have hj' := (h.largest j hlow hmax).1.trans_lt hlt
      exact ⟨hj'.le, fun _ => hj'⟩
    · exact ⟨le_rfl, fun hself => absurd hself (lt_irrefl _)⟩

/-- Any other bin is left. -/
theorem leave (h : ScanState m k peak best)
    (hk : StrictLocalMax m k → toReal (m.getD k 0#64) ≤ toReal best) : ScanState m (k + 1) peak best where
  held := h.held
  passed := h.passed.trans (Nat.lt_succ_self k)
  largest := fun j hj hmax => by
    rcases Nat.lt_succ_iff_lt_or_eq.1 hj with hlow | rfl
    · exact h.largest j hlow hmax
    · exact ⟨hk hmax, fun hself => absurd h.passed (Nat.lt_asymm hself)⟩

end ScanState

/-- The scan's three comparisons say that a bin is a strict local maximum above the best one. -/
theorem scan_test_iff {m : List F64} (hm : Magnitudes m) {k : Nat} {best : F64} (hbest : isFinite best = true)
    (hk : k + 2 < m.length) :
    (gt (m.getD (k + 1) 0#64) (m.getD k 0#64) && gt (m.getD (k + 1) 0#64) (m.getD (k + 2) 0#64)
        && gt (m.getD (k + 1) 0#64) best) = true ↔
      StrictLocalMax m (k + 1) ∧ toReal best < toReal (m.getD (k + 1) 0#64) := by
  have hfin := fun j => (hm.getD j).1
  rw [Bool.and_eq_true, Bool.and_eq_true, gt_iff (hfin _) (hfin _), gt_iff (hfin _) (hfin _), gt_iff (hfin _) hbest]
  refine and_congr_left fun _ => ⟨fun ⟨hleft, hright⟩ => ⟨Nat.succ_pos k, hk, hleft, hright⟩, ?_⟩
  rintro ⟨-, -, hleft, hright⟩
  exact ⟨hleft, hright⟩

/-- The scan ends with the lowest of the largest strict local maxima of the whole spectrum. -/
theorem scanFrom_result {m : List F64} (hm : Magnitudes m) {k peak : Nat} {best : F64}
    (h : ScanState m (k + 1) peak best) :
    ∃ k' best', m.length ≤ k' + 1 ∧ ScanState m k' (scanFrom (k + 1) peak best (m.drop k)) best' := by
  generalize hl : m.drop k = l
  induction l generalizing k peak best with
  | nil => exact ⟨k + 1, best, by have := List.drop_eq_nil_iff.1 hl; omega, h⟩
  | cons α l ih =>
    have hlen : m.length - k = l.length + 1 := by rw [← List.length_drop, hl, List.length_cons]
    have htail : m.drop (k + 1) = l := by rw [← List.drop_drop, hl]; rfl
    have hget : ∀ j, m.getD (k + j) 0#64 = (α :: l).getD j 0#64 := fun j => by
      rw [← hl, List.getD_eq_getElem?_getD, List.getD_eq_getElem?_getD, List.getElem?_drop]
    match l with
    | [] => exact ⟨k + 1, best, by simp only [List.length_cons, List.length_nil] at hlen; omega, h⟩
    | [_] => exact ⟨k + 1, best, by simp only [List.length_cons, List.length_nil] at hlen; omega, h⟩
    | β :: γ :: rest =>
      obtain ⟨rfl, rfl, rfl⟩ : m.getD k 0#64 = α ∧ m.getD (k + 1) 0#64 = β ∧ m.getD (k + 2) 0#64 = γ :=
        ⟨hget 0, hget 1, hget 2⟩
      have htest := scan_test_iff hm (k := k) (h.isFinite_best hm) (by simp only [List.length_cons, List.length_nil] at hlen; omega)
      rw [scanFrom]
      split
      · next htrue =>
        obtain ⟨hmax, hlt⟩ := htest.1 htrue
        exact ih (h.take hmax hlt) htail
      · next hfalse => exact ih (h.leave fun hmax => not_lt.1 fun hlt => hfalse (htest.2 ⟨hmax, hlt⟩)) htail

/-- The scan of a whole spectrum. -/
theorem scan_result {m : List F64} (hm : Magnitudes m) :
    ∃ k best, m.length ≤ k + 1 ∧ ScanState m k (scan m) best := by
  rw [scan]
  exact scanFrom_result hm (k := 0) (ScanState.start m)

theorem scan_eq_zero_iff {m : List F64} (hm : Magnitudes m) : scan m = 0 ↔ ∀ k, ¬StrictLocalMax m k := by
  obtain ⟨k, best, hend, hstate⟩ := scan_result hm
  constructor
  · intro h0 j hmax
    have hj : j < k := by
      obtain ⟨-, hin, -⟩ := hmax
      omega
    rcases hstate.held with ⟨-, rfl⟩ | ⟨⟨hpos, -⟩, -⟩
    · have hle := (hstate.largest j hj hmax).1
      rw [toReal_zero] at hle
      exact absurd (hmax.pos hm) hle.not_gt
    · omega
  · intro hnone
    rcases hstate.held with ⟨h0, -⟩ | ⟨hmax, -⟩
    · exact h0
    · exact absurd hmax (hnone _)

/-- A bin other than 0 is the lowest of the largest strict local maxima (41_detection.md R171). -/
theorem scan_spec {m : List F64} (hm : Magnitudes m) (h : scan m ≠ 0) :
    StrictLocalMax m (scan m) ∧ ∀ j, StrictLocalMax m j →
      toReal (m.getD j 0#64) ≤ toReal (m.getD (scan m) 0#64) ∧
      (j < scan m → toReal (m.getD j 0#64) < toReal (m.getD (scan m) 0#64)) := by
  obtain ⟨k, best, hend, hstate⟩ := scan_result hm
  rcases hstate.held with ⟨h0, -⟩ | ⟨hmax, rfl⟩
  · exact absurd h0 h
  · refine ⟨hmax, fun j hj => hstate.largest j ?_ hj⟩
    obtain ⟨-, hin, -⟩ := hj
    omega

/-- Settles O38, by the invariant `ScanState`. -/
theorem scanFindsLowestLargestPeak : Obligations.ScanFindsLowestLargestPeak := by
  unfold Obligations.ScanFindsLowestLargestPeak
  exact fun m hm => ⟨scan_eq_zero_iff hm, scan_spec hm⟩

/-! ### What is committed -/

theorem commitDetect_noPeak (P : Params) {m : List F64} (h : scan m = 0) (s : State) :
    commitDetect (detectSpectrum P m) s = { s with
      resPeak := 0, resCorr := 0, resFreq := 0, resNibble := 0, peak := false, nibv := false, done := true } := by
  rw [detectSpectrum_noPeak h]
  rfl

/-- Settles O39: without a strict local maximum the scan gives 0. -/
theorem noLocalMaximumMeansNoPeak : Obligations.NoLocalMaximumMeansNoPeak := by
  unfold Obligations.NoLocalMaximumMeansNoPeak
  exact fun P m s hm hnone => commitDetect_noPeak P ((scan_eq_zero_iff hm).2 hnone) s

/-- A DETECT always completes, with its commit under the parameters and the MAG at hand (41_detection.md R178). -/
theorem commandAt_detect (I : Instance) (d : Depth) (sl : Slot) (s : State) :
    commandAt I (.detect d sl) s =
      .next (commitDetect (detectSpectrum I.params (I.mag.fn (windowed I.params d sl s.winbuf))) s) := rfl

/-- Settles O28: the two cases of `detectSpectrum`, with the constants of `correction_eq`. -/
theorem detectCommitsItsResult : Obligations.DetectCommitsItsResult := by
  unfold Obligations.DetectCommitsItsResult
  intro after
  have hcommand : ∀ (I : Instance) (d : Depth) (sl : Slot) (s : State),
      commandAt I (.detect d sl) s = .next (after I d sl s) := by
    intro I d sl s
    rw [commandAt_detect]
    simp only [after]
    generalize I.mag.fn (windowed I.params d sl s.winbuf) = m
    by_cases h : scan m = 0
    · rw [commitDetect_noPeak _ h, if_neg (not_not.2 h)]
    · obtain ⟨c, f, hc, hf, hdet⟩ := detectSpectrum_found I.params h
      rw [correction_eq] at hc
      rw [hdet, if_pos h, ← hc, ← freqEstimate, ← hf]
      rfl
  exact ⟨fun d sl s => (commandAt_inst _ s).symm.trans (hcommand Config.inst d sl s), hcommand⟩

end Sys2Proof.Machine
end

section
/-! PROOFS. Magnitude spectra: silence under any MAG (O40), and the correctly rounded spectrum, within MAG_ACC (O43) and
flat for an impulse (O44). -/

namespace Sys2Proof

/-- MAG_TOL is at most 2^-40; the bounds here need only that it is at most 1 (00_scope.md R5). -/
theorem Params.tol_le_one {P : Params} (hP : P.wellFormed = true) : (P.magTolNum : ℝ) / P.magTolDen ≤ 1 := by
  simp only [Params.wellFormed, Params.tolOk, Bool.and_eq_true, decide_eq_true_eq] at hP
  obtain ⟨-, -, hnum⟩ := hP
  have hle : (P.magTolNum : ℝ) ≤ P.magTolDen := by exact_mod_cast (by omega : P.magTolNum ≤ P.magTolDen)
  exact div_le_one_of_le₀ hle (Nat.cast_nonneg _)

end Sys2Proof

namespace Sys2Proof.Machine

open F64 RealSpec

/-! ### Flat spectra -/

/-- A spectrum of one value has no peak. -/
theorem scan_eq_zero_of_flat {m : List F64} (hm : Magnitudes m) {v : ℝ}
    (h : ∀ k < m.length, toReal (m.getD k 0#64) = v) : scan m = 0 := by
  refine (scan_eq_zero_iff hm).2 fun k hmax => ?_
  obtain ⟨-, hin, -, hright⟩ := hmax
  rw [h k (by omega), h (k + 1) hin] at hright
  exact lt_irrefl v hright

theorem absSum_nonneg (F : ℕ) (y : List F64) : 0 ≤ absSum F y := Finset.sum_nonneg fun _ _ => abs_nonneg _

/-! ### The magnitudes of a MAG -/

/-- What any MAG answers is a spectrum of magnitudes (41_detection.md R166). -/
theorem mag_magnitudes (I : Instance) (y : List F64) : Magnitudes (I.mag.fn y) := by
  obtain ⟨hlen, hbin⟩ := I.mag.acc y
  refine magnitudes_of_getD fun k hk => ?_
  obtain ⟨hfin, hsign, -⟩ := hbin k (hlen ▸ hk)
  exact ⟨hfin, hsign⟩

/-- No magnitude of a window is more than twice its absolute sum (41_detection.md R166). -/
theorem mag_le_absSum {I : Instance} (hI : I.params.wellFormed = true) (d : Depth) (sl : Slot) (w : Memory) {k : Nat}
    (hk : k < I.params.F / 2) :
    toReal ((I.mag.fn (windowed I.params d sl w)).getD k 0#64) ≤
      2 * absSum I.params.F (windowed I.params d sl w) := by
  have hin := windowed_magInput hI d sl w
  have htol := Params.tol_le_one hI
  generalize windowed I.params d sl w = y at *
  obtain ⟨-, hbin⟩ := I.mag.acc y
  obtain ⟨-, -, hacc⟩ := hbin k hk
  have hnear := (abs_le.1 (hacc hin)).2
  have hdft := Magnitude.norm_dft_le I.params.F y k
  have := mul_le_mul_of_nonneg_right htol (absSum_nonneg I.params.F y)
  linarith

/-- The absolute sum of at most 16384 windowed samples (41_detection.md R165). -/
theorem absSum_windowed_le {P : Params} (hP : P.wellFormed = true) (d : Depth) (sl : Slot) (w : Memory) :
    absSum P.F (windowed P d sl w) ≤ 2 ^ 15 := by
  obtain ⟨-, -, hF⟩ := Params.size_bounds hP
  have hF' : (P.F : ℝ) ≤ 16384 := by exact_mod_cast hF
  have hsum := Finset.sum_le_card_nsmul (Finset.range P.F) (fun n => |toReal ((windowed P d sl w).getD n 0#64)|) 2
    fun n hn => (abs_getD_windowed_le hP d sl w (Finset.mem_range.1 hn)).trans (by norm_num)
  rw [Finset.card_range, nsmul_eq_mul] at hsum
  rw [absSum]
  linarith

/-! ### Silence -/

/-- Every sample of a silent window is a zero (41_detection.md R180). -/
theorem windowSample_silent {P : Params} (hP : P.wellFormed = true) {d : Depth} {sl : Slot} {w : Memory}
    (h : SilentWindow P d sl w) {n : Nat} (hn : n < P.F) :
    toReal (windowSample P d w (winSlotBase P sl d) n) = 0 := by
  obtain ⟨-, -, hsum, -⟩ := Params.sample_bounds hP
  obtain ⟨hbytes, hpairs⟩ := h n hn
  rcases depth_cases d with rfl | rfl
  · have hbias : (BitVec.ofNat 8 P.BIAS8).toNat = P.BIAS8 := by
      rw [BitVec.toNat_ofNat]
      exact Nat.mod_eq_of_lt (by omega)
    rw [windowSample_8bit, hbytes rfl, (dequant8_exact (by omega) _).2, hbias, sub_self, zero_div]
  · obtain ⟨hhigh, hlow⟩ := hpairs rfl
    rw [windowSample_16bit, hhigh, hlow, (dequant16_exact _ _).2, show sext16 0 0 = 0 by decide, Int.cast_zero,
      zero_div]

theorem absSum_silent {P : Params} (hP : P.wellFormed = true) {d : Depth} {sl : Slot} {w : Memory}
    (h : SilentWindow P d sl w) : absSum P.F (windowed P d sl w) = 0 := by
  refine Finset.sum_eq_zero fun n hn => ?_
  have hn' := Finset.mem_range.1 hn
  rw [toReal_getD_windowed_eq_zero hP d sl w hn' (.inl (windowSample_silent hP h hn')), abs_zero]

/-- The magnitudes of silence are zeros under every MAG (41_detection.md R169). -/
theorem scan_silent {I : Instance} (hI : I.params.wellFormed = true) {d : Depth} {sl : Slot} {w : Memory}
    (h : SilentWindow I.params d sl w) : scan (I.mag.fn (windowed I.params d sl w)) = 0 := by
  have hm := mag_magnitudes I (windowed I.params d sl w)
  obtain ⟨hlen, -⟩ := I.mag.acc (windowed I.params d sl w)
  refine scan_eq_zero_of_flat hm fun k hk => le_antisymm ?_ (hm.toReal_nonneg k)
  have hle := mag_le_absSum hI d sl w (hlen ▸ hk)
  rwa [absSum_silent hI h, mul_zero] at hle

/-- Settles O40: the spectrum of silence is flat. -/
theorem silenceGivesNoPeak : Obligations.SilenceGivesNoPeak := by
  unfold Obligations.SilenceGivesNoPeak
  intro after
  have hcommand : ∀ (I : Instance) (d : Depth) (sl : Slot) (s : State), I.params.wellFormed = true →
      SilentWindow I.params d sl s.winbuf → commandAt I (.detect d sl) s = .next (after s) := by
    intro I d sl s hI h
    rw [commandAt_detect, commitDetect_noPeak _ (scan_silent hI h)]
  exact ⟨fun d sl s h => (commandAt_inst _ s).symm.trans (hcommand Config.inst d sl s params_wellFormed h), hcommand⟩

/-! ### The reference magnitude -/

theorem magnitudes_of_isMagRef {F : ℕ} {y m : List F64} (h : IsMagRef F y m) : Magnitudes m := by
  obtain ⟨hlen, hbin⟩ := h
  refine magnitudes_of_getD fun k hk => ?_
  obtain ⟨hsign, hfin, -⟩ := hbin k (hlen ▸ hk)
  exact ⟨hfin, hsign⟩

/-- The smallest unit is far below a moderate value. -/
theorem smallest_units_le {S : ℝ} (h : 1 / 2 ^ 1000 ≤ S) : 3 / 2 / 2 ^ 1074 ≤ S / 2 ^ 53 := by
  have hS : 0 ≤ S := le_trans (by positivity) h
  calc (3 / 2 / 2 ^ 1074 : ℝ) = 1 / 2 ^ 1000 * (3 / 2 / 2 ^ 74) := by
        rw [pow_add 2 1000 74, one_div_mul_eq_div, mul_comm (2 ^ 1000 : ℝ), ← div_div]
    _ ≤ S * (3 / 2 / 2 ^ 74) := mul_le_mul_of_nonneg_right h (by positivity)
    _ ≤ S * (1 / 2 ^ 53) := mul_le_mul_of_nonneg_left (by norm_num) hS
    _ = S / 2 ^ 53 := mul_one_div S _

/-- A rounded modulus of an input of moderate size is within 2^-52 of the absolute sum (41_detection.md R167). -/
theorem magRef_error {F : ℕ} {y : List F64} {k : ℕ} {z : F64} (hy : MagInput F y) (hz : IsRNE ‖dft F y k‖ z) :
    |toReal z - ‖dft F y k‖| ≤ 1 / 2 ^ 52 * absSum F y := by
  have hle := Magnitude.norm_dft_le F y k
  have h0 := norm_nonneg (dft F y k)
  obtain ⟨-, -, hsum | ⟨hlow, hhigh⟩⟩ := hy
  · rw [hsum] at hle ⊢
    have hnorm : ‖dft F y k‖ = 0 := le_antisymm hle h0
    rw [hnorm] at hz ⊢
    rw [toReal_eq_zero_of_isRNE hz, sub_zero, abs_zero, mul_zero]
  · obtain ⟨x, hx, hnear⟩ := exists_toReal_near h0 (hle.trans hhigh)
    refine ((hz.dist_le hx).trans hnear).trans ?_
    have hunit := smallest_units_le hlow
    linarith

/-- Settles O43: `magRef_error`. -/
theorem magRefMeetsMagAcc : Obligations.MagRefMeetsMagAcc := by
  unfold Obligations.MagRefMeetsMagAcc
  intro F y m tol hy hm htol k hk
  have hmag := magnitudes_of_isMagRef hm
  obtain ⟨-, hbin⟩ := hm
  exact ⟨(hmag.getD k).1, hmag.toReal_nonneg k,
    (magRef_error hy (hbin k hk).2).trans (mul_le_mul_of_nonneg_right htol (absSum_nonneg F y))⟩

/-! ### An impulse -/

/-- With at most one nonzero sample every bin has the same modulus (41_detection.md R180). -/
theorem norm_dft_impulse {F : ℕ} {y : List F64} {n₀ : ℕ} (hlen : y.length = F)
    (h : ∀ n, n ≠ n₀ → toReal (y.getD n 0#64) = 0) (k : ℕ) : ‖dft F y k‖ = absSum F y := by
  have hout : n₀ ∉ Finset.range F → toReal (y.getD n₀ 0#64) = 0 := fun hn => by
    rw [List.getD_eq_default _ _ (by rw [hlen]; simpa using hn)]
    exact toReal_zero
  have hphase : -2 * (Real.pi : ℂ) * Complex.I * k * n₀ / F = ((-(2 * Real.pi * k * n₀ / F) : ℝ) : ℂ) * Complex.I := by
    push_cast
    ring
  rw [dft, absSum, Finset.sum_eq_single n₀ (fun n _ hn => by rw [h n hn, Complex.ofReal_zero, zero_mul])
      (fun hn => by rw [hout hn, Complex.ofReal_zero, zero_mul]),
    Finset.sum_eq_single n₀ (fun n _ hn => by rw [h n hn, abs_zero]) (fun hn => by rw [hout hn, abs_zero]),
    norm_mul, hphase, Complex.norm_exp_ofReal_mul_I, mul_one, Complex.norm_real, Real.norm_eq_abs]

/-- Settles O44: every bin rounds the same modulus. -/
theorem impulseGivesNoPeakUnderMagRef : Obligations.ImpulseGivesNoPeakUnderMagRef := by
  unfold Obligations.ImpulseGivesNoPeakUnderMagRef
  intro F y m n₀ hy hm himpulse
  have hmag := magnitudes_of_isMagRef hm
  obtain ⟨hlen, -⟩ := hy
  obtain ⟨hmlen, hbin⟩ := hm
  refine scan_eq_zero_of_flat hmag (v := toReal (m.getD 0 0#64)) fun k hk => ?_
  obtain ⟨hsk, hk'⟩ := hbin k (hmlen ▸ hk)
  obtain ⟨hs0, h0'⟩ := hbin 0 (by omega)
  rw [norm_dft_impulse hlen himpulse] at hk' h0'
  exact toReal_unique_of_isRNE hk' h0' hsk hs0

end Sys2Proof.Machine
end

section
/-! PROOFS. The parabolic interpolation at a peak: its denominator is negative (O41), and its results are finite
(O42). -/

namespace Sys2Proof.Machine

open F64 RealSpec

/-- Three magnitudes around a peak (41_detection.md R170, R174): `β` above its nonnegative neighbours, and of moderate
size. -/
structure PeakTriple (α β γ : F64) : Prop where
  finiteLeft : isFinite α = true
  finitePeak : isFinite β = true
  finiteRight : isFinite γ = true
  /-- The gap between `γ` and `β` is that of two values of one sign. -/
  signPeak : sign β = false
  signRight : sign γ = false
  nonnegLeft : 0 ≤ toReal α
  nonnegRight : 0 ≤ toReal γ
  leftBelow : toReal α < toReal β
  rightBelow : toReal γ < toReal β
  /-- So no operation on the three overflows. -/
  peakBound : toReal β ≤ 2 ^ 16

/-- The denominator of the correction (41_detection.md R173). -/
def peakDenominator (α β γ : F64) : F64 := add (sub α (mul (ofInt 2) β)) γ

theorem correction_eq_div (α β γ : F64) :
    correction α β γ = div (mul half (sub α γ)) (peakDenominator α β γ) := rfl

namespace PeakTriple

variable {α β γ : F64} (h : PeakTriple α β γ)
include h

/-- Doubling a magnitude is exact. -/
theorem double_exact : isFinite (mul (ofInt 2) β) = true ∧ toReal (mul (ofInt 2) β) = 2 * toReal β := by
  obtain ⟨hfin2, hval2⟩ := ofInt_exact (i := 2) (by decide)
  have hpos := h.nonnegLeft.trans_lt h.leftBelow
  have hβ := h.peakBound
  have hrounds := rounds_mul hfin2 h.finitePeak
  rw [hval2, Int.cast_ofNat] at hrounds
  obtain ⟨hfin, -⟩ := hrounds.bounded (e := 17) (by decide) (abs_le.2 ⟨by linarith, by linarith⟩)
  obtain ⟨y, hy, hval⟩ := exists_toReal_double h.signPeak (by decide) hβ
  exact ⟨hfin, (hrounds.1 hfin).toReal_eq hy hval⟩

/-- The first sum is at most `-β`: rounding does not pass the f64 `-β` (41_detection.md R174). -/
theorem first_sum_le : isFinite (sub α (mul (ofInt 2) β)) = true ∧
    toReal (sub α (mul (ofInt 2) β)) ≤ -toReal β ∧ |toReal (sub α (mul (ofInt 2) β))| ≤ 2 ^ 17 := by
  obtain ⟨hfin2, hval2⟩ := h.double_exact
  have hα := h.nonnegLeft
  have hleft := h.leftBelow
  have hβ := h.peakBound
  have hrounds := rounds_sub h.finiteLeft hfin2
  rw [hval2] at hrounds
  obtain ⟨hfin, hle⟩ := hrounds.bounded (e := 17) (by decide) (abs_le.2 ⟨by linarith, by linarith⟩)
  have hneg := (hrounds.1 hfin).toReal_le (y := neg β) (by rw [isFinite_neg]; exact h.finitePeak)
    (by rw [toReal_neg]; linarith)
  rw [toReal_neg] at hneg
  exact ⟨hfin, hneg, hle⟩

/-- The denominator is finite and negative, and not small beside the peak (41_detection.md R174). -/
theorem denominator : isFinite (peakDenominator α β γ) = true ∧
    toReal (peakDenominator α β γ) ≤ -(toReal β / 2 ^ 54) := by
  obtain ⟨hfin1, hle1, habs1⟩ := h.first_sum_le
  have hγ := h.nonnegRight
  have hright := h.rightBelow
  have hβ := h.peakBound
  have hgap := toReal_gap h.finiteRight h.finitePeak h.signRight h.signPeak hright
  have hrounds := rounds_add hfin1 h.finiteRight
  have hlow1 := (abs_le.1 habs1).1
  obtain ⟨hfin, -⟩ := hrounds.bounded (e := 18) (by decide) (abs_le.2 ⟨by linarith, by linarith⟩)
  have hhalf := half_le_abs_add hfin1 h.finiteRight hfin
  have hneg := (hrounds.1 hfin).toReal_le (y := zero) (by decide) (by rw [toReal_zero]; linarith)
  rw [toReal_zero] at hneg
  rw [abs_of_nonpos (by linarith), abs_of_nonpos hneg] at hhalf
  refine ⟨hfin, ?_⟩
  rw [peakDenominator]
  linarith

/-- The correction is finite: its numerator is at most the peak. -/
theorem correction_bounded : isFinite (correction α β γ) = true ∧ |toReal (correction α β γ)| ≤ 2 ^ 54 := by
  obtain ⟨hfinDen, hden⟩ := h.denominator
  have hα := h.nonnegLeft
  have hγ := h.nonnegRight
  have hleft := h.leftBelow
  have hright := h.rightBelow
  have hβ := h.peakBound
  have hdiff := rounds_sub h.finiteLeft h.finiteRight
  have hdiffFin := (hdiff.bounded (e := 16) (by decide) (abs_le.2 ⟨by linarith, by linarith⟩)).1
  have hdiffLe := (hdiff.1 hdiffFin).abs_toReal_le h.finitePeak (abs_le.2 ⟨by linarith, by linarith⟩)
  obtain ⟨hhalfFin, hhalfVal⟩ := half_exact
  have hnum := rounds_mul hhalfFin hdiffFin
  have hnumLe : |toReal half * toReal (sub α γ)| ≤ toReal β := by
    rw [hhalfVal, abs_mul, abs_of_pos (by norm_num : (0 : ℝ) < 1 / 2)]
    linarith [abs_nonneg (toReal (sub α γ))]
  have hnumFin := (hnum.bounded (e := 16) (by decide) (hnumLe.trans hβ)).1
  have hnumLe' := (hnum.1 hnumFin).abs_toReal_le h.finitePeak hnumLe
  have hpos : 0 < toReal β := hα.trans_lt hleft
  have hden0 : toReal (peakDenominator α β γ) < 0 := hden.trans_lt (neg_neg_of_pos (div_pos hpos (by positivity)))
  rw [correction_eq_div]
  refine (rounds_div hnumFin hfinDen hden0.ne).bounded (e := 54) (by decide) ?_
  rw [abs_div, abs_of_neg hden0, div_le_iff₀ (neg_pos.2 hden0)]
  linarith

end PeakTriple

/-- The frequency of a bin and a bounded correction is finite (41_detection.md R176). -/
theorem freqEstimate_finite {P : Params} (hP : P.wellFormed = true) {k : Nat} (hk : k ≤ P.F) {c : F64}
    (hc : isFinite c = true) (hcle : |toReal c| ≤ 2 ^ 54) : isFinite (freqEstimate P k c) = true := by
  obtain ⟨-, hF, hF'⟩ := Params.size_bounds hP
  obtain ⟨hSR, -⟩ := Params.register_bounds hP
  obtain ⟨hkFin, hkVal⟩ := ofInt_exact (i := k) (by omega)
  obtain ⟨hSRFin, hSRVal⟩ := ofInt_exact (i := P.SR) (by omega)
  obtain ⟨hFFin, hFVal⟩ := ofInt_exact (i := P.F) (by omega)
  rw [Int.cast_natCast] at hkVal hSRVal hFVal
  have hkR : (k : ℝ) ≤ 2 ^ 14 := by exact_mod_cast hk.trans hF'
  have hSRR : (P.SR : ℝ) ≤ 2 ^ 32 := by exact_mod_cast hSR.le
  have hFR : (1 : ℝ) ≤ P.F := by exact_mod_cast (by omega : 1 ≤ P.F)
  have hbin : |toReal (ofInt k) + toReal c| ≤ 2 ^ 55 := by
    rw [hkVal]
    refine (abs_add_le _ _).trans ?_
    rw [Nat.abs_cast]
    linarith
  obtain ⟨hbinFin, hbinLe⟩ := (rounds_add hkFin hc).bounded (by decide) hbin
  have hprod : |toReal (add (ofInt k) c) * toReal (ofInt P.SR)| ≤ 2 ^ 87 := by
    rw [abs_mul, hSRVal, Nat.abs_cast, show (2 : ℝ) ^ 87 = 2 ^ 55 * 2 ^ 32 by rw [← pow_add]]
    exact mul_le_mul hbinLe hSRR (Nat.cast_nonneg _) (by positivity)
  obtain ⟨hprodFin, hprodLe⟩ := (rounds_mul hbinFin hSRFin).bounded (by decide) hprod
  refine ((rounds_div hprodFin hFFin (by rw [hFVal]; linarith)).bounded (e := 87) (by decide) ?_).1
  rw [abs_div, hFVal, Nat.abs_cast]
  exact (div_le_self (abs_nonneg _) hFR).trans hprodLe

/-- The bin of a peak lies inside the spectrum (41_detection.md R170). -/
theorem scan_mag_lt {I : Instance} {y : List F64} (h : scan (I.mag.fn y) ≠ 0) :
    scan (I.mag.fn y) < I.params.F / 2 := by
  obtain ⟨hlen, -⟩ := I.mag.acc y
  have := (scan_range h).2
  omega

/-- The magnitudes around the bin of a peak (41_detection.md R170, R174). -/
theorem peakTriple_of_scan {I : Instance} (hI : I.params.wellFormed = true) (d : Depth) (sl : Slot) (w : Memory)
    {m : List F64} (hm : m = I.mag.fn (windowed I.params d sl w)) (h : scan m ≠ 0) :
    PeakTriple (m.getD (scan m - 1) 0#64) (m.getD (scan m) 0#64) (m.getD (scan m + 1) 0#64) := by
  subst hm
  have hbound := (mag_le_absSum hI d sl w (scan_mag_lt h)).trans
    (mul_le_mul_of_nonneg_left (absSum_windowed_le hI d sl w) zero_le_two)
  have hmag := mag_magnitudes I (windowed I.params d sl w)
  generalize I.mag.fn (windowed I.params d sl w) = m at *
  obtain ⟨⟨-, -, hleft, hright⟩, -⟩ := scan_spec hmag h
  exact {
    finiteLeft := (hmag.getD _).1
    finitePeak := (hmag.getD _).1
    finiteRight := (hmag.getD _).1
    signPeak := (hmag.getD _).2
    signRight := (hmag.getD _).2
    nonnegLeft := hmag.toReal_nonneg _
    nonnegRight := hmag.toReal_nonneg _
    leftBelow := hleft
    rightBelow := hright
    peakBound := hbound.trans (by norm_num) }

/-- Settles O41: `PeakTriple.denominator` at the scanned bin. -/
theorem peakDenominatorIsNegative : Obligations.PeakDenominatorIsNegative := by
  unfold Obligations.PeakDenominatorIsNegative
  intro I d sl w hI m den hk
  have htriple := peakTriple_of_scan hI d sl w rfl hk
  obtain ⟨hfin, hle⟩ := htriple.denominator
  have hpos := htriple.nonnegLeft.trans_lt htriple.leftBelow
  exact ⟨hfin, hle.trans_lt (neg_neg_of_pos (div_pos hpos (by positivity)))⟩

/-- A commit with a peak has the correction and the frequency of its bin (41_detection.md R178). -/
theorem commitDetect_found {P : Params} {m : List F64} {s : State}
    (h : (commitDetect (detectSpectrum P m) s).peak = true) :
    scan m ≠ 0 ∧
      (commitDetect (detectSpectrum P m) s).resCorr =
        correction (m.getD (scan m - 1) 0#64) (m.getD (scan m) 0#64) (m.getD (scan m + 1) 0#64) ∧
      (commitDetect (detectSpectrum P m) s).resFreq =
        freqEstimate P (scan m) (commitDetect (detectSpectrum P m) s).resCorr := by
  rw [commitDetect_peak, (detectSpectrum_peak P m).2, decide_eq_true_eq] at h
  obtain ⟨c, f, hc, hf, hdet⟩ := detectSpectrum_found P h
  rw [commitDetect_resCorr, commitDetect_resFreq, hdet]
  exact ⟨h, hc, hf⟩

/-- A DETECT with a peak leaves finite results under every valid record (41_detection.md R175). -/
theorem commandAt_detect_finite {I : Instance} (hI : I.params.wellFormed = true) {d : Depth} {sl : Slot} {s t : State}
    (ht : commandAt I (.detect d sl) s = .next t) (hpeak : t.peak = true) :
    isFinite t.resCorr = true ∧ isFinite t.resFreq = true := by
  rw [commandAt_detect] at ht
  cases ht
  obtain ⟨hk, hcorr, hfreq⟩ := commitDetect_found hpeak
  obtain ⟨hfin, hle⟩ := (peakTriple_of_scan hI d sl s.winbuf rfl hk).correction_bounded
  have hbin := scan_mag_lt hk
  rw [hfreq, hcorr]
  exact ⟨hfin, freqEstimate_finite hI (by omega) hfin hle⟩

/-- The exact correction of three values with the middle one largest (41_detection.md R175). -/
theorem abs_exact_correction_lt {α β γ : ℝ} (hleft : α < β) (hright : γ < β) :
    |0.5 * (α - γ) / (α - 2 * β + γ)| < 1 / 2 := by
  have hden : α - 2 * β + γ < 0 := by linarith
  rw [abs_div, abs_of_neg hden, div_lt_iff₀ (by linarith), abs_lt]
  constructor <;> linarith

/-- Settles O42: `commandAt_detect_finite`, of which the default command is a case, and the exact bound. -/
theorem peakResultsAreFinite : Obligations.PeakResultsAreFinite := by
  unfold Obligations.PeakResultsAreFinite
  refine ⟨fun d sl s t ht => ?_, fun I d sl s t hI => commandAt_detect_finite hI, ?_⟩
  · rw [← commandAt_inst] at ht
    exact commandAt_detect_finite (I := Config.inst) params_wellFormed ht
  · intro I d sl w hI m α β γ hk
    have htriple := peakTriple_of_scan hI d sl w rfl hk
    exact abs_exact_correction_lt htriple.leftBelow htriple.rightBelow

end Sys2Proof.Machine
end

section
/-! PROOFS. The f64 facts that the mapping rests on: differences and quotients that do not overflow, the rounding half
away from zero on the real value, and the gap between two values from 512 on (00_scope.md R11, R12). -/

namespace Sys2Proof.F64

open RealSpec

theorem isFinite_eq_false_of_special {x : F64} (h : isNaN x = true ∨ isInf x = true) : isFinite x = false := by
  simp only [isNaN, isInf, isFinite, decide_eq_true_eq, decide_eq_false_iff_not] at *
  omega

/-- The largest magnitude and 2^1106 units more, less than half of its last place, do not round to infinity. -/
theorem roundBits_finite_of_le {n : Nat} (h : n ≤ unitsOfBits (infBits - 1) + 2 ^ 1106) : roundBits n 1 < infBits := by
  have hmax : roundBits (unitsOfBits (infBits - 1) + 2 ^ 1106) 1 < infBits := by decide +kernel
  exact (roundBits_mono one_pos one_pos (by rwa [Nat.mul_one, Nat.mul_one])).trans_lt hmax

/-- A difference with a value within 2^32 does not overflow, whatever the finite minuend: the subtrahend is less than
half a step at the largest f64. -/
theorem isFinite_sub_of_abs_le {x y : F64} (hx : isFinite x = true) (hy : isFinite y = true)
    (h : |toReal y| ≤ 2 ^ 32) : isFinite (sub x y) = true := by
  have hux : units x ≤ unitsOfBits (infBits - 1) := by
    have hbits := (isFinite_iff x).1 hx
    exact (unitsOfBits_le_iff hbits.le (Nat.sub_le _ _)).2 (by omega)
  have huy : units y ≤ 2 ^ 1106 := by
    rw [abs_toReal, div_le_iff₀ (by positivity), ← pow_add] at h
    exact_mod_cast h
  have hsum : (scaled x + scaled (neg y)).natAbs ≤ unitsOfBits (infBits - 1) + 2 ^ 1106 := by
    refine (Int.natAbs_add_le _ _).trans ?_
    rw [natAbs_scaled, natAbs_scaled, units_neg]
    exact Nat.add_le_add hux huy
  rw [sub, add_eq_rne hx (by rwa [isFinite_neg]), isFinite_iff, absBits_rne]
  exact roundBits_finite_of_le hsum

/-- A quotient by a value of at least 1 does not overflow: it rounds to no larger magnitude. -/
theorem isFinite_div_of_one_le {x y : F64} (hx : isFinite x = true) (hy : isFinite y = true)
    (h : 1 ≤ |toReal y|) : isFinite (div x y) = true := by
  have hu : 2 ^ 1074 ≤ units y := by
    rw [abs_toReal, one_le_div₀ (by positivity)] at h
    exact_mod_cast h
  have hpos : 0 < units y := (Nat.two_pow_pos _).trans_le hu
  have hle : roundBits (units x * 2 ^ 1074) (units y) ≤ roundBits (units x) 1 :=
    roundBits_mono hpos one_pos (by rw [Nat.mul_one]; exact Nat.mul_le_mul_left _ hu)
  rw [isFinite_iff] at hx
  rw [units, roundBits_units _ hx.le] at hle
  rw [div_finite ((isFinite_iff x).2 hx) hy hpos.ne', isFinite_iff, absBits_rne]
  exact hle.trans_lt hx

theorem toReal_nonpos {x : F64} (h : sign x = true) : toReal x ≤ 0 := by
  rw [toReal_eq, h, if_pos rfl, neg_one_mul, neg_div]
  exact neg_nonpos.2 (by positivity)

/-- The model's rounding on units is that of the real value (42_mapping.md R202). -/
theorem roundHalfAway_eq_real (x : F64) : F64.roundHalfAway x = RealSpec.roundHalfAway (toReal x) := by
  have hfloor : ⌊|toReal x| + 1 / 2⌋ = (((2 * units x + 2 ^ 1074) / 2 ^ 1075 : ℕ) : ℤ) := by
    rw [abs_toReal, ← Nat.floor_div_eq_div (K := ℝ), Int.natCast_floor_eq_floor (by positivity)]
    congr 1
    push_cast
    rw [pow_succ (2 : ℝ) 1074]
    have hT : (2 : ℝ) ^ 1074 ≠ 0 := by positivity
    generalize (2 : ℝ) ^ 1074 = T at *
    field_simp
  rw [F64.roundHalfAway, ← hfloor, RealSpec.roundHalfAway]
  cases hs : sign x
  · have hx : 0 ≤ toReal x := by rw [toReal_of_nonneg hs]; positivity
    rw [if_neg Bool.false_ne_true, if_pos hx, abs_of_nonneg hx]
  · have hx := toReal_nonpos hs
    rw [if_pos rfl, abs_of_nonpos hx]
    split
    · next h0 =>
      rw [le_antisymm hx h0]
      norm_num
    · rfl

/-- An f64 from 512 on lies at least 2^-44 above every smaller one. -/
theorem toReal_add_gap_le {x y : F64} (hx : isFinite x = true) (hy : isFinite y = true) (h : toReal x < toReal y)
    (hlow : 512 ≤ toReal y) : toReal x + 1 / 2 ^ 44 ≤ toReal y := by
  cases hsx : sign x
  · cases hsy : sign y
    · have := toReal_gap hx hy hsx hsy h
      linarith
    · linarith [toReal_nonpos hsy]
  · linarith [toReal_nonpos hsx]

end Sys2Proof.F64
end

section
/-! PROOFS. The mapping of a frequency to a nibble: the table of quotients (O33), the tolerance bands at the defaults
(O34) and the MAP command (O27). -/

namespace Sys2Proof

/-- The base and the step of a valid record (00_scope.md R5). -/
theorem Params.map_bounds {P : Params} (h : P.wellFormed = true) :
    P.BASE < 2 ^ 31 ∧ 1 ≤ P.STEP ∧ P.STEP < 2 ^ 31 := by
  simp only [Params.wellFormed, Params.baseOk, Params.stepOk, Bool.and_eq_true, decide_eq_true_eq] at h
  omega

end Sys2Proof

namespace Sys2Proof.RealSpec

/-- The reals that round to a number of 0 or more: the tie below belongs to it, but not to 0 (42_mapping.md R203). -/
theorem roundHalfAway_eq_natCast_iff {r : ℝ} {n : ℕ} :
    roundHalfAway r = n ↔ n - 1 / 2 ≤ r ∧ r < n + 1 / 2 ∧ (n = 0 → -(1 / 2) < r) := by
  rw [roundHalfAway]
  split
  · next hr =>
    rw [Int.floor_eq_iff, Int.cast_natCast]
    exact ⟨fun ⟨hlow, hhigh⟩ => ⟨by linarith, by linarith, fun _ => by linarith⟩,
      fun ⟨hlow, hhigh, _⟩ => ⟨by linarith, by linarith⟩⟩
  · next hr =>
    rw [neg_eq_iff_eq_neg, Int.floor_eq_iff, Int.cast_neg, Int.cast_natCast]
    rcases Nat.eq_zero_or_pos n with rfl | hn
    · rw [Nat.cast_zero]
      exact ⟨fun ⟨hlow, hhigh⟩ => ⟨by linarith, by linarith, fun _ => by linarith⟩,
        fun ⟨hlow, hhigh, hopen⟩ => ⟨by linarith, by linarith [hopen rfl]⟩⟩
    · have hone : (1 : ℝ) ≤ n := by exact_mod_cast hn
      exact ⟨fun ⟨_, hhigh⟩ => by linarith, fun ⟨hlow, _⟩ => by linarith⟩

end Sys2Proof.RealSpec

namespace Sys2Proof.Machine

open F64 RealSpec

theorem mapNibble_of_not_finite (P : Params) {f : F64} (h : isFinite f = false) : mapNibble P f = (false, 0) := by
  rw [mapNibble, h, if_neg Bool.false_ne_true]

/-- The result is the rounded quotient where that is a nibble (42_mapping.md R201). -/
theorem mapNibble_of_finite (P : Params) {f : F64} (h : isFinite f = true) :
    mapNibble P f = if 0 ≤ RealSpec.roundHalfAway (toReal (mapQuotient P f)) ∧
        RealSpec.roundHalfAway (toReal (mapQuotient P f)) ≤ 15 then
      (true, BitVec.ofInt 4 (RealSpec.roundHalfAway (toReal (mapQuotient P f)))) else (false, 0) := by
  rw [mapNibble, if_pos h, roundHalfAway_eq_real]

/-- The band of quotients of each nibble (42_mapping.md R203). -/
theorem mapNibble_eq_iff (P : Params) {f : F64} (h : isFinite f = true) (n : Nibble) :
    mapNibble P f = (true, n) ↔
      n.toNat - 1 / 2 ≤ toReal (mapQuotient P f) ∧ toReal (mapQuotient P f) < n.toNat + 1 / 2 ∧
        (n.toNat = 0 → -(1 / 2) < toReal (mapQuotient P f)) := by
  rw [mapNibble_of_finite P h, ← roundHalfAway_eq_natCast_iff]
  generalize RealSpec.roundHalfAway (toReal (mapQuotient P f)) = r
  have hn := n.isLt
  constructor
  · intro heq
    split at heq
    · next hr =>
      obtain ⟨m, rfl⟩ := Int.eq_ofNat_of_zero_le hr.1
      rw [Prod.mk.injEq, BitVec.ofInt_natCast] at heq
      rw [← heq.2, BitVec.toNat_ofNat, Nat.mod_eq_of_lt (by omega)]
    · exact absurd heq (by simp)
  · rintro rfl
    rw [if_pos (by omega), BitVec.ofInt_natCast, BitVec.ofNat_toNat, BitVec.setWidth_eq]

/-- What is no nibble's is unrecognized (42_mapping.md R201). -/
theorem mapNibble_eq_unrecognized {P : Params} {f : F64} (h : ∀ n, mapNibble P f ≠ (true, n)) :
    mapNibble P f = (false, 0) := by
  cases hv : (mapNibble P f).1
  · exact Prod.ext hv (mapNibble_unrecognized hv)
  · exact (h (mapNibble P f).2 (Prod.ext hv rfl)).elim

section
variable {P : Params} (hP : P.wellFormed = true)
include hP

theorem toF64_base_exact : isFinite (ofInt P.BASE) = true ∧ toReal (ofInt P.BASE) = P.BASE := by
  obtain ⟨hbase, -, -⟩ := Params.map_bounds hP
  simpa only [Int.cast_natCast] using ofInt_exact (i := P.BASE) (by omega)

theorem toF64_step_exact : isFinite (ofInt P.STEP) = true ∧ toReal (ofInt P.STEP) = P.STEP := by
  obtain ⟨-, -, hstep⟩ := Params.map_bounds hP
  simpa only [Int.cast_natCast] using ofInt_exact (i := P.STEP) (by omega)

variable {f : F64} (hf : isFinite f = true)
include hf

/-- Both operations of the quotient stay finite (42_mapping.md R201). -/
theorem mapQuotient_finite :
    isFinite (sub f (ofInt P.BASE)) = true ∧ isFinite (mapQuotient P f) = true := by
  obtain ⟨hbaseFin, hbaseVal⟩ := toF64_base_exact hP
  obtain ⟨hstepFin, hstepVal⟩ := toF64_step_exact hP
  obtain ⟨hbase, hstep, -⟩ := Params.map_bounds hP
  have hbaseR : (P.BASE : ℝ) ≤ 2 ^ 32 := by exact_mod_cast (by omega : P.BASE ≤ 2 ^ 32)
  have hsub := isFinite_sub_of_abs_le hf hbaseFin (by rwa [hbaseVal, Nat.abs_cast])
  refine ⟨hsub, isFinite_div_of_one_le hsub hstepFin ?_⟩
  rw [hstepVal, Nat.abs_cast]
  exact_mod_cast hstep

/-- The two roundings of the quotient (42_mapping.md R201). -/
theorem mapQuotient_isRNE :
    IsRNE (toReal f - P.BASE) (sub f (ofInt P.BASE)) ∧
      IsRNE (toReal (sub f (ofInt P.BASE)) / P.STEP) (mapQuotient P f) := by
  obtain ⟨hsubFin, hquotFin⟩ := mapQuotient_finite hP hf
  obtain ⟨hbaseFin, hbaseVal⟩ := toF64_base_exact hP
  obtain ⟨hstepFin, hstepVal⟩ := toF64_step_exact hP
  obtain ⟨-, hstep, -⟩ := Params.map_bounds hP
  have hstep0 : toReal (ofInt P.STEP) ≠ 0 := by rw [hstepVal]; exact_mod_cast (by omega : P.STEP ≠ 0)
  rw [← hbaseVal, ← hstepVal]
  exact ⟨(rounds_sub hf hbaseFin).1 hsubFin, (rounds_div hsubFin hstepFin hstep0).1 hquotFin⟩

/-- The quotient does not pass an f64 `y` above, when an f64 `x` for the difference shows it to be above. -/
theorem mapQuotient_le {x y : F64} (hx : isFinite x = true) (hy : isFinite y = true)
    (hdiff : toReal f - P.BASE ≤ toReal x) (hquot : toReal x / P.STEP ≤ toReal y) :
    toReal (mapQuotient P f) ≤ toReal y := by
  obtain ⟨hsub, hdiv⟩ := mapQuotient_isRNE hP hf
  exact hdiv.toReal_le hy ((div_le_div_of_nonneg_right (hsub.toReal_le hx hdiff) (Nat.cast_nonneg _)).trans hquot)

/-- The quotient does not pass an f64 `y` below, when an f64 `x` for the difference shows it to be below. -/
theorem le_mapQuotient {x y : F64} (hx : isFinite x = true) (hy : isFinite y = true)
    (hdiff : toReal x ≤ toReal f - P.BASE) (hquot : toReal y ≤ toReal x / P.STEP) :
    toReal y ≤ toReal (mapQuotient P f) := by
  obtain ⟨hsub, hdiv⟩ := mapQuotient_isRNE hP hf
  exact hdiv.le_toReal hy (hquot.trans (div_le_div_of_nonneg_right (hsub.le_toReal hx hdiff) (Nat.cast_nonneg _)))

end

/-- Settles O33: each row of the table is `mapNibble_eq_iff` at its nibble or, outside, at every nibble. -/
theorem mapOutcomeForEachQuotient : Obligations.MapOutcomeForEachQuotient := by
  unfold Obligations.MapOutcomeForEachQuotient
  refine ⟨fun P f h => mapNibble_of_not_finite P (isFinite_eq_false_of_special h),
    by decide +kernel, by decide +kernel, ?_⟩
  intro P f hP hf qf q r
  have band (n : Nibble) := mapNibble_eq_iff P hf n
  refine ⟨(mapQuotient_finite hP hf).2, mapNibble_of_finite P hf, fun hq => ?_, fun hlow hhigh => ?_,
    fun n hn1 hn15 hlow hhigh => ?_, fun hq => ?_⟩
  · refine mapNibble_eq_unrecognized fun n hn => ?_
    obtain ⟨hlow, -, hopen⟩ := (band n).1 hn
    change (n.toNat : ℝ) - 1 / 2 ≤ q at hlow
    have hn0 : n.toNat = 0 := by
      have : (n.toNat : ℝ) ≤ 0 := by linarith
      exact_mod_cast le_antisymm this (Nat.cast_nonneg _)
    exact (hopen hn0).not_ge hq
  · refine (band 0).2 ⟨?_, ?_, fun _ => hlow⟩
    · exact le_of_eq_of_le (by norm_num) hlow.le
    · exact lt_of_lt_of_eq hhigh (by norm_num)
  · have hval : (BitVec.ofNat 4 n).toNat = n := by rw [BitVec.toNat_ofNat, Nat.mod_eq_of_lt (by omega)]
    refine (band _).2 ?_
    rw [hval]
    exact ⟨hlow, hhigh, fun h0 => by omega⟩
  · refine mapNibble_eq_unrecognized fun n hn => ?_
    obtain ⟨-, hhigh, -⟩ := (band n).1 hn
    change q < n.toNat + 1 / 2 at hhigh
    have hn15 : (n.toNat : ℝ) ≤ 15 := by exact_mod_cast Nat.le_of_lt_succ n.isLt
    linarith

/-! ### The tolerance bands at the defaults (42_mapping.md R205) -/

/-- A fraction of at most 53 bits over a small power of two is an f64. -/
theorem exists_toReal_dyadic {a : ℤ} {e : ℕ} (ha : a.natAbs ≤ 2 ^ 53) (he : e ≤ 53) :
    ∃ z : F64, isFinite z = true ∧ toReal z = a / 2 ^ e := ⟨_, toReal_div_two_pow ha he⟩

section
variable {f : F64} (hf : isFinite f = true)
include hf

/-- The edge at `k/2` steps, and just below it: a difference 2^-44 smaller gives a quotient 2^-49 smaller. -/
theorem mapQuotient_le_edge {k j : ℤ} (hk : k.natAbs ≤ 31) (hj0 : 0 ≤ j) (hj1 : j ≤ 1)
    (h : toReal f ≤ 1000 + 25 / 2 * k - j / 2 ^ 44) :
    toReal (mapQuotient Config.params f) ≤ k / 2 - j / 2 ^ 49 := by
  obtain ⟨x, hx, hxval⟩ := exists_toReal_dyadic (a := 25 * k * 2 ^ 43 - j) (e := 44) (by omega) (by decide)
  obtain ⟨y, hy, hyval⟩ := exists_toReal_dyadic (a := k * 2 ^ 48 - j) (e := 49) (by omega) (by decide)
  have hjR : (0 : ℝ) ≤ j := by exact_mod_cast hj0
  push_cast at hxval hyval
  have hle := mapQuotient_le params_wellFormed hf hx hy
    (by rw [hxval, show Config.params.BASE = 1000 from rfl]; push_cast; linarith)
    (by rw [hxval, hyval, show Config.params.STEP = 25 from rfl]; push_cast; linarith)
  rw [hyval] at hle
  linarith

/-- The edge at `k/2` steps, and just above it. -/
theorem edge_le_mapQuotient {k j : ℤ} (hk : k.natAbs ≤ 31) (hj0 : 0 ≤ j) (hj1 : j ≤ 1)
    (h : 1000 + 25 / 2 * k + j / 2 ^ 44 ≤ toReal f) :
    k / 2 + j / 2 ^ 49 ≤ toReal (mapQuotient Config.params f) := by
  obtain ⟨x, hx, hxval⟩ := exists_toReal_dyadic (a := 25 * k * 2 ^ 43 + j) (e := 44) (by omega) (by decide)
  obtain ⟨y, hy, hyval⟩ := exists_toReal_dyadic (a := k * 2 ^ 48 + j) (e := 49) (by omega) (by decide)
  have hjR : (0 : ℝ) ≤ j := by exact_mod_cast hj0
  push_cast at hxval hyval
  have hle := le_mapQuotient params_wellFormed hf hx hy
    (by rw [hxval, show Config.params.BASE = 1000 from rfl]; push_cast; linarith)
    (by rw [hxval, hyval, show Config.params.STEP = 25 from rfl]; push_cast; linarith)
  rw [hyval] at hle
  linarith

end

/-- The edges are f64 values. -/
theorem exists_toReal_edge {k : ℤ} (hk : k.natAbs ≤ 31) :
    ∃ c : F64, isFinite c = true ∧ toReal c = 1000 + 25 / 2 * k := by
  obtain ⟨c, hc, hval⟩ := exists_toReal_dyadic (a := 2000 + 25 * k) (e := 1) (by omega) (by decide)
  refine ⟨c, hc, hval.trans ?_⟩
  push_cast
  ring

/-- No rounding carries a quotient onto an edge from below. -/
theorem mapQuotient_lt_iff {f : F64} (hf : isFinite f = true) {k : ℤ} (hk : k.natAbs ≤ 31) :
    toReal (mapQuotient Config.params f) < k / 2 ↔ toReal f < 1000 + 25 / 2 * k := by
  have hkR : (-31 : ℝ) ≤ k := by exact_mod_cast (by omega : -31 ≤ k)
  constructor
  · intro hq
    by_contra! hge
    have := edge_le_mapQuotient hf hk (j := 0) le_rfl zero_le_one (by push_cast; linarith)
    push_cast at this
    linarith
  · intro hlt
    obtain ⟨c, hc, hcval⟩ := exists_toReal_edge hk
    rw [← hcval] at hlt
    have hgap := toReal_add_gap_le hf hc hlt (by linarith)
    have := mapQuotient_le_edge hf hk (j := 1) zero_le_one le_rfl (by push_cast; linarith)
    push_cast at this
    linarith

/-- No rounding carries a quotient onto an edge from above. -/
theorem lt_mapQuotient_iff {f : F64} (hf : isFinite f = true) {k : ℤ} (hk : k.natAbs ≤ 31) :
    k / 2 < toReal (mapQuotient Config.params f) ↔ 1000 + 25 / 2 * k < toReal f := by
  have hkR : (-31 : ℝ) ≤ k := by exact_mod_cast (by omega : -31 ≤ k)
  constructor
  · intro hq
    by_contra! hge
    have := mapQuotient_le_edge hf hk (j := 0) le_rfl zero_le_one (by push_cast; linarith)
    push_cast at this
    linarith
  · intro hlt
    obtain ⟨c, hc, hcval⟩ := exists_toReal_edge hk
    rw [← hcval] at hlt
    have hgap := toReal_add_gap_le hc hf hlt (by linarith)
    have := edge_le_mapQuotient hf hk (j := 1) zero_le_one le_rfl (by push_cast; linarith)
    push_cast at this
    linarith

/-- Settles O34: the band of quotients, each edge of it carried over to the frequency. -/
theorem mapToleranceBands : Obligations.MapToleranceBands := by
  unfold Obligations.MapToleranceBands
  intro f n hf
  have hn := n.isLt
  have hlow : toReal (mapQuotient Config.params f) < n.toNat - 1 / 2 ↔ toReal f < 987.5 + 25 * n.toNat := by
    convert mapQuotient_lt_iff hf (k := 2 * n.toNat - 1) (by omega) using 2 <;> push_cast <;> ring
  have hhigh : toReal (mapQuotient Config.params f) < n.toNat + 1 / 2 ↔ toReal f < 1012.5 + 25 * n.toNat := by
    convert mapQuotient_lt_iff hf (k := 2 * n.toNat + 1) (by omega) using 2 <;> push_cast <;> ring
  have hopen : -(1 / 2) < toReal (mapQuotient Config.params f) ↔ 987.5 < toReal f := by
    convert lt_mapQuotient_iff hf (k := -1) (by decide) using 2 <;> norm_num
  have hzero : n.toNat = 0 ↔ n = 0 := by rw [← BitVec.toNat_inj]; rfl
  rw [mapNibble_eq_iff _ hf, hzero, le_iff_le_iff_lt_iff_lt.2 hlow, hhigh, hopen]

/-! ### The command -/

/-- A MAP always completes, with the nibble of the latched MAP_IN under the parameters at hand (42_mapping.md R206). -/
theorem commandAt_map (I : Instance) (s : State) :
    commandAt I .map s = .next (commitMap (mapNibble I.params s.latch.mapin) s) := rfl

/-- Settles O27: the writes of `commitMap` are the three; the default command is a case of the general one. -/
theorem mapWritesNibbleOnly : Obligations.MapWritesNibbleOnly := by
  unfold Obligations.MapWritesNibbleOnly
  exact ⟨fun s => (commandAt_inst .map s).symm.trans (commandAt_map Config.inst s), commandAt_map⟩

end Sys2Proof.Machine
end

section
/-! PROOFS. The acceptance of a command (O6, O7) and the two housekeeping commands (O23, O24). -/

namespace Sys2Proof.Machine

/-! ### Acceptance -/

/-- The acceptance procedure as one chain of checks, in the order of 43_control.md R221. -/
theorem acceptCommand_eq_ite (c : Word) (s : State) :
    acceptCommand c s =
      if s.eng = .init then raiseCmdError .notReady c s
      else if s.eng = .busy then raiseCmdError .busy c s
      else if decode c = .illegal then raiseCmdError .illegalOpcode c s
      else if decode c = .reserved then raiseCmdError .reservedField c s
      else startCommand c s := by
  rcases acceptCommand_cases c s with ⟨he, e⟩ | ⟨he, e⟩ | ⟨he, hd, e⟩ | ⟨he, hd, e⟩ | ⟨he, ⟨i, hd⟩, e⟩
  · simp [e, he]
  · simp [e, he]
  · simp [e, he, hd]
  · simp [e, he, hd]
  · simp [e, he, hd]

/-- A write of another width or with a partial strobe is refused, whatever its address (60_exceptions.md R259). -/
theorem refusal_write_badWidth {size : Nat} {strobe : BitVec 4} (h : size ≠ 4 ∨ strobe ≠ 0xF) (a : Addr) (v : Word)
    (s : State) : refusal (.write a size strobe v) s = some .badWidth := by
  have hbad : (Transaction.write a size strobe v).badWidth = true := by simpa [Transaction.badWidth] using h
  rw [refusal, if_pos hbad]

/-- Settles O6: the port hands a whole word to the acceptance procedure and refuses any other write. -/
theorem acceptanceProcedure : Obligations.AcceptanceProcedure := by
  unfold Obligations.AcceptanceProcedure
  refine fun P s c => ⟨?_, fun size strobe hbad => ?_⟩
  · rw [transact_cmdWrite, acceptCommand_eq_ite]
    rfl
  · exact transact_of_refused P (Option.isSome_of_eq_some (refusal_write_badWidth hbad addrCmd c s))

/-- An idle block accepts a command word (43_control.md R223, R224). -/
theorem transact_accepts (P : Params) {c : Word} {i : Instr} {s : State} (he : s.eng = .idle)
    (hd : decode c = .cmd i) : (transact P (cmdWrite c) s).1 = startCommand c s := by
  rw [transact_cmdWrite, acceptCommand_idle he hd]

/-- BUSY is bit 1 of STATUS (10_state.md R37, R39). -/
theorem readReg_status_busy (P : Params) {s : State} (he : s.eng ≠ .idle) :
    (readReg P .status s).getLsbD 1 = true := by
  obtain ⟨-, hbusy, -⟩ := getLsbD_statusWord s
  exact hbusy.trans (s.busy_eq.trans (decide_eq_true he))

/-- Settles O7: the accepted state is that of `startCommand`. -/
theorem acceptChangesOnlyLatchAndEng : Obligations.AcceptChangesOnlyLatchAndEng := by
  unfold Obligations.AcceptChangesOnlyLatchAndEng
  intro P s c i he hd
  rw [transact_accepts P he hd]
  exact ⟨latchOf c s, rfl, latchedInstr_latchOf hd s, rfl, readReg_status_busy P (s := startCommand c s) nofun⟩

/-! ### NOP and SRESET -/

/-- NOP always completes and sets DONE alone (43_control.md R229). -/
theorem commandAt_nop (I : Instance) (s : State) : commandAt I .nop s = .next { s with done := true } := rfl

/-- Settles O23: the default command is a case of `commandAt_nop`. -/
theorem nopSetsDoneOnly : Obligations.NopSetsDoneOnly := by
  unfold Obligations.NopSetsDoneOnly
  exact ⟨fun s => (commandAt_inst .nop s).symm.trans (commandAt_nop Config.inst s), commandAt_nop⟩

/-- SRESET always completes and clears the results and the errors (43_control.md R230). -/
theorem commandAt_sreset (I : Instance) (s : State) :
    commandAt I .sreset s = .next { s with
      err := false, errinfo := 0, errCmd := 0, berr := false, peak := false, nibv := false,
      resPeak := 0, resNibble := 0, resCorr := 0, resFreq := 0, done := true } := rfl

/-- Settles O24: the default command is a case of `commandAt_sreset`. -/
theorem sresetClearsResultsAndErrors : Obligations.SresetClearsResultsAndErrors := by
  unfold Obligations.SresetClearsResultsAndErrors
  exact ⟨fun s => (commandAt_inst .sreset s).symm.trans (commandAt_sreset Config.inst s), commandAt_sreset⟩

end Sys2Proof.Machine
end

section
/-! PROOFS. The engine's turn: InitDone (O46), the completion that sets DONE (O48), what host transactions made while a
command runs leave of its result (O51), and the end of BUSY and INIT after any number of host turns (O56). -/

namespace Sys2Proof.Machine

/-! ### InitDone -/

/-- In INIT the engine's turn is InitDone, whatever the parameters and MAG (43_control.md R228). -/
theorem turnAt_engine_init (I : Instance) {s : State} (he : s.eng = .init) :
    turnAt I .engine s = .next (initDone s) := by
  simp only [turnAt, engineTurnAt, he]

/-- A buffer that lists no byte reads 0x00 everywhere (70_reset_and_hazards.md R293). -/
theorem Memory.read_nil (o : Nat) : Memory.read [] o = 0x00 := rfl

/-- Settles O46: `initDone` leaves both buffers with no byte listed. -/
theorem initDoneClearsBothBuffers : Obligations.InitDoneClearsBothBuffers := by
  unfold Obligations.InitDoneClearsBothBuffers
  exact fun s he => ⟨[], [], turnAt_engine_init Config.inst he, fun I => turnAt_engine_init I he,
    fun o => ⟨Memory.read_nil o, Memory.read_nil o⟩⟩

/-! ### DONE -/

section
variable {s t : State}

/-- A completion leaves DONE set (43_control.md R226). -/
theorem complete_done (h : complete s = .next t) : t.done = true := by
  obtain ⟨i, u, -, hu, rfl⟩ := complete_next h
  exact (finishCommand_done u).trans (exec_done hu)

/-- A step that is no completion sets no DONE: it keeps the flag or clears it (43_control.md R226). -/
theorem StepEffect.done_false_or_completes (h : StepEffect s t) (hs : s.done = false) :
    t.done = false ∨ ((nextTurn s).1 = .engine ∧ s.eng = .busy ∧ t.eng = .idle) := by
  cases h with
  | reset => exact .inl rfl
  | complete hg he => exact .inr ⟨hg, he, rfl⟩
  | @statusWrite h v => exact .inl ((congrArg (· && !v.getLsbD 2) hs).trans (Bool.false_and _))
  | rejected h e => exact .inl ((raiseCmdError_done e _ s.inTurn).trans hs)
  | _ => exact .inl hs

/-- The engine's turn in BUSY is a completion (43_control.md R227). -/
theorem complete_of_step (h : step s = .next t) (hg : (nextTurn s).1 = .engine) (he : s.eng = .busy) :
    complete s.inTurn = .next t := by
  have hturn := turn_of_step h
  rw [hg] at hturn
  simp only [turn, turnAt, engineTurnAt, he] at hturn
  exact hturn

end

/-- Settles O48, by `complete_done` and `StepEffect.done_false_or_completes`. -/
theorem doneIsSetByCompleteOnly : Obligations.DoneIsSetByCompleteOnly := by
  unfold Obligations.DoneIsSetByCompleteOnly
  refine fun s t h => ⟨fun hg he => complete_done (complete_of_step h hg he), fun hs ht => ?_⟩
  exact ((step_effect h).done_false_or_completes hs).resolve_left (ne_false_of_eq_true ht)

/-! ### Host transactions while the engine works -/

/-- `s` with the host's settings, DONE and the error state of `r`: what a transaction can change while the engine
works. -/
def State.withHostVisible (s r : State) : State :=
  { s with ctrl := r.ctrl, mapIn := r.mapIn, done := r.done, err := r.err, errinfo := r.errinfo, errCmd := r.errCmd,
           berr := r.berr }

theorem State.withHostVisible_withHostVisible (s r v : State) :
    (s.withHostVisible r).withHostVisible v = s.withHostVisible v := rfl

/-- A rejected command touches the error state alone (60_exceptions.md R253). -/
theorem raiseCmdError_hostVisible (e : CmdErr) (c : Word) (s : State) :
    raiseCmdError e c s = s.withHostVisible (raiseCmdError e c s) := by
  by_cases herr : s.err = true
  · rw [raiseCmdError_of_err herr]
    rfl
  · rw [raiseCmdError_of_noErr herr]
    rfl

/-- While the engine works no transaction reaches LATCH, the buffers or the results (20_memory.md R95, 43_control.md
R221, R223). -/
theorem transact_hostVisible (P : Params) (t : Transaction) {s : State} (he : s.eng ≠ .idle) :
    ∃ r, (transact P t s).1 = s.withHostVisible r := by
  refine ⟨(transact P t s).1, ?_⟩
  rcases transact_effect P t s with e | e | ⟨v, e⟩ | ⟨v, e⟩ | ⟨c, e⟩ | ⟨x, e⟩ | ⟨o, v, hidle, -, -⟩
  case inr.inr.inr.inr.inl =>
    rw [e]
    rcases acceptCommand_rejects_or_starts c s with ⟨-, code, hrej⟩ | ⟨hidle, -, -⟩
    · rw [hrej]
      exact raiseCmdError_hostVisible code c s
    · exact absurd hidle he
  case inr.inr.inr.inr.inr.inr => exact absurd hidle he
  all_goals
    rw [e]
    rfl

theorem transactAll_hostVisible (P : Params) (ts : List Transaction) {s : State} (he : s.eng ≠ .idle) :
    ∃ r, transactAll P ts s = s.withHostVisible r := by
  induction ts generalizing s with
  | nil => exact ⟨s, rfl⟩
  | cons t ts ih =>
    obtain ⟨r, hr⟩ := transact_hostVisible P t he
    obtain ⟨v, hv⟩ := ih (s := s.withHostVisible r) he
    exact ⟨v, by rw [transactAll, hr, hv, State.withHostVisible_withHostVisible]⟩

/-! ### The result is fixed at the accept -/

section
variable {i : Instr} {s t u : State}

/-- A command reads nothing that a transaction can change while it runs (43_control.md R223). -/
theorem exec_hostVisible (h : exec i s = .next u) (r : State) :
    ∃ v, exec i (s.withHostVisible r) = .next (u.withHostVisible v) := by
  obtain ⟨v, hv⟩ := exec_total i (s.withHostVisible r)
  have hvu : v = u.withHostVisible v := by cases i <;> cases h <;> cases hv <;> rfl
  exact ⟨v, hv.trans (congrArg _ hvu)⟩

theorem complete_of_exec (hl : latchedInstr s.latch = some i) (h : exec i s = .next u) :
    complete s = .next (finishCommand u) := by
  simp only [complete, completeAt, hl, commandAt_inst, h]

/-- Complete after a change that a transaction can make: the same state but for such a change (43_control.md R223). -/
theorem complete_hostVisible (h : complete s = .next t) (r : State) :
    ∃ v, complete (s.withHostVisible r) = .next (t.withHostVisible v) := by
  obtain ⟨i, u, hl, hu, rfl⟩ := complete_next h
  obtain ⟨v, hv⟩ := exec_hostVisible hu r
  exact ⟨v, complete_of_exec (s := s.withHostVisible r) hl hv⟩

end

/-- Settles O51: the accepting write is `startCommand`; host transactions change only what `exec_hostVisible` says no
command reads, and every completion sets DONE. -/
theorem resultIsFixedAtAccept : Obligations.ResultIsFixedAtAccept := by
  unfold Obligations.ResultIsFixedAtAccept
  refine ⟨fun P s c i he hd => by rw [transact_accepts P he hd]; rfl, fun s t ts he h => ?_⟩
  obtain ⟨r, hr⟩ := transactAll_hostVisible Config.params ts (s := s) (by rw [he]; nofun)
  obtain ⟨v, hv⟩ := complete_hostVisible h r
  rw [hr]
  exact ⟨t.withHostVisible v, hv, rfl, (complete_done hv).trans (complete_done h).symm, rfl, rfl, rfl, rfl, rfl, rfl,
    rfl, rfl⟩

/-! ### BUSY and INIT end -/

section
variable {s t : State}

/-- A step takes one turn off the schedule (00_scope.md R8). -/
theorem StepEffect.sched_eq_tail (h : StepEffect s t) : t.sched = s.sched.tail := by
  cases h with
  | complete _ _ _ hu => exact exec_sched hu
  | rejected h e => exact raiseCmdError_sched e _ s.inTurn
  | _ => rfl

/-- A turn of the host does not move a working engine (10_state.md R31). -/
theorem StepEffect.eng_of_hostTurn (h : StepEffect s t) (hg : (nextTurn s).1 = .host) (he : s.eng ≠ .idle) :
    t.eng = s.eng := by
  by_contra hne
  rcases h.eng_change hne with ⟨hreset, -⟩ | ⟨hengine, -⟩ | ⟨hengine, -⟩ | ⟨-, hidle, -⟩
  · exact nomatch hg.symm.trans hreset
  · exact nomatch hg.symm.trans hengine
  · exact nomatch hg.symm.trans hengine
  · exact he hidle

/-- Under the invariant a scheduled turn is a step that keeps the invariant and leaves the rest of the schedule. -/
theorem step_scheduled {g : Agent} {rest : List Agent} (hinv : s.Inv) (hs : s.sched = g :: rest) :
    ∃ t, step s = .next t ∧ (nextTurn s).1 = g ∧ t.Inv ∧ t.sched = rest := by
  obtain ⟨t, ht⟩ := stepAt_total (I := Config.inst) params_wellFormed hinv
  refine ⟨t, ht, by rw [nextTurn_cons hs], State.InvAt.stepAt (I := Config.inst) hinv ht, ?_⟩
  rw [(step_effect ht).sched_eq_tail, hs, List.tail_cons]

end

/-- Settles O56, by induction on the number of host turns before the engine's. -/
theorem engineTurnEndsBusy : Obligations.EngineTurnEndsBusy := by
  unfold Obligations.EngineTurnEndsBusy
  intro s n rest hinv he hs
  induction n generalizing s with
  | zero =>
    obtain ⟨t, ht, hg, -, hrest⟩ := step_scheduled hinv hs
    exact ⟨s, t, rfl, rfl, stepN_succ ht 0, eng_idle_of_engineTurn ht hg, hrest⟩
  | succ n ih =>
    obtain ⟨v, hv, hg, hinv', hrest⟩ := step_scheduled hinv hs
    have heng : v.eng = s.eng := (step_effect hv).eng_of_hostTurn hg he
    obtain ⟨u, t, hu, hueng, ht, hidle, htrest⟩ := ih v hinv' (heng ▸ he) hrest
    exact ⟨u, t, (stepN_succ hv n).trans hu, hueng.trans heng, (stepN_succ hv (n + 1)).trans ht, hidle, htrest⟩

end Sys2Proof.Machine
end

section
/-! PROOFS. Command errors: what raising one changes (O8, O10) and which of a run of them is kept (O9); bus errors:
exactly which transactions are refused (O11) and what a refusal leaves (O12). -/

namespace Sys2Proof.Machine

/-! ### ERRINFO's fields after a first and after a later error -/

/-- Clearing the fields of ERRINFO clears CODE. -/
theorem errCode_clear (w : Word) : errCode (w &&& ~~~errinfoMask) = 0 := by
  have hmask : (~~~errinfoMask).extractLsb' 0 4 = 0 := by decide
  rw [errCode, BitVec.extractLsb'_and, hmask]
  exact BitVec.and_zero

theorem errCode_errinfoFirst (w : Word) (e : CmdErr) : errCode (errinfoFirst w e.code) = e.code := by
  obtain ⟨-, hcode, -⟩ := e.code_errinfo
  calc errCode (errinfoFirst w e.code)
      = errCode (w &&& ~~~errinfoMask) ||| errCode (e.code.zeroExtend 32) := BitVec.extractLsb'_or
    _ = e.code := by rw [errCode_clear, hcode]; exact BitVec.zero_or

/-- OVF lies in the mask that a first error clears, and above every code. -/
theorem errOvf_errinfoFirst (w : Word) (code : BitVec 4) : errOvf (errinfoFirst w code) = false := by
  have hmask : (~~~errinfoMask).getLsbD 8 = false := by decide
  have hcode : (code.zeroExtend 32).getLsbD 8 = false := by
    rw [BitVec.getLsbD_setWidth, BitVec.getLsbD_of_ge code 8 (by decide), Bool.and_false]
  rw [errOvf, errinfoFirst, BitVec.getLsbD_or, BitVec.getLsbD_and, hmask, hcode, Bool.and_false, Bool.or_false]

theorem errinfoFirst_reserved (w : Word) (e : CmdErr) :
    errinfoFirst w e.code &&& ~~~errinfoMask = w &&& ~~~errinfoMask := by
  obtain ⟨hcode, -⟩ := e.code_errinfo
  rw [errinfoFirst, BitVec.and_or_distrib_right, hcode, BitVec.and_assoc, BitVec.and_self]
  exact BitVec.or_zero

theorem errOvf_errinfoOverflow (w : Word) : errOvf (errinfoOverflow w) = true := by
  have hbit : (0x00000100 : Word).getLsbD 8 = true := by decide
  rw [errOvf, errinfoOverflow, BitVec.getLsbD_or, hbit, Bool.or_true]

/-- A second overflow changes nothing. -/
theorem errinfoOverflow_idem (w : Word) : errinfoOverflow (errinfoOverflow w) = errinfoOverflow w := by
  rw [errinfoOverflow, errinfoOverflow, BitVec.or_assoc, BitVec.or_self]

/-! ### Raising a command error -/

/-- A command error writes ERR, ERRINFO and ERR_CMD only (60_exceptions.md R252, R253). -/
theorem raiseCmdError_frame (e : CmdErr) (c : Word) (s : State) :
    raiseCmdError e c s = { s with
      err := true, errinfo := (raiseCmdError e c s).errinfo, errCmd := (raiseCmdError e c s).errCmd } := by
  by_cases herr : s.err = true
  · rw [raiseCmdError_of_err herr, ← herr]
  · rw [raiseCmdError_of_noErr herr]

/-- ERR drives IRQ when CTRL enables it (10_state.md R55). -/
theorem irq_of_err {s : State} (herr : s.err = true) (hie : s.ctrl.getLsbD 1 = true) : irq s = true := by
  rw [irq, errIe, herr, hie, Bool.and_self, Bool.or_true]

/-- Settles O8: the two cases of `raiseCmdError`, with ERRINFO's fields after `errinfoFirst` and `errinfoOverflow`. -/
theorem commandErrorEffect : Obligations.CommandErrorEffect := by
  unfold Obligations.CommandErrorEffect
  refine ⟨fun P s c => congrArg Prod.snd (transact_cmdWrite P c s), by decide, fun e c s => ⟨fun hie => ?_, ?_, ?_⟩⟩
  · exact irq_of_err (raiseCmdError_err e c s) (by rwa [raiseCmdError_ctrl])
  · intro herr
    exact ⟨_, raiseCmdError_of_noErr (by rw [herr]; nofun) e c, errCode_errinfoFirst s.errinfo e,
      errOvf_errinfoFirst s.errinfo e.code, errinfoFirst_reserved s.errinfo e⟩
  · intro herr
    exact ⟨_, raiseCmdError_of_err herr e c, errCode_errinfoOverflow s.errinfo, errOvf_errinfoOverflow s.errinfo,
      errinfoOverflow_reserved s.errinfo⟩

/-- Settles O10: the acceptance procedure rejects or starts a command, and a start is excluded. -/
theorem rejectedCommandDoesNothingElse : Obligations.RejectedCommandDoesNothingElse := by
  unfold Obligations.RejectedCommandDoesNothingElse
  intro P s c hno
  rcases acceptCommand_rejects_or_starts c s with ⟨-, e, hrej⟩ | ⟨hidle, hcmd, -⟩
  · exact ⟨e, _, _, by rw [transact_cmdWrite, hrej], raiseCmdError_frame e c s⟩
  · exact absurd ⟨hidle, hcmd⟩ hno

/-! ### A run of rejections -/

/-- The state after a run of rejections, the first of them first. -/
def raiseAll (errs : List (CmdErr × Word)) (s : State) : State := errs.foldl (fun t p => raiseCmdError p.1 p.2 t) s

/-- While ERR is set, a run of rejections sets OVF if it is not empty and changes nothing else (60_exceptions.md
R254). -/
theorem raiseAll_of_err (errs : List (CmdErr × Word)) {s : State} (herr : s.err = true) :
    raiseAll errs s = { s with errinfo := if errs = [] then s.errinfo else errinfoOverflow s.errinfo } := by
  induction errs generalizing s with
  | nil => rfl
  | cons p errs ih =>
    have hfirst : raiseAll (p :: errs) s = raiseAll errs { s with errinfo := errinfoOverflow s.errinfo } :=
      congrArg (raiseAll errs) (raiseCmdError_of_err herr p.1 p.2)
    rw [hfirst, ih (s := { s with errinfo := errinfoOverflow s.errinfo }) herr, errinfoOverflow_idem, ite_self,
      if_neg (List.cons_ne_nil p errs)]

/-- Settles O9: the first rejection is captured with OVF 0, and the run after it is `raiseAll_of_err`. -/
theorem firstErrorIsKept : Obligations.FirstErrorIsKept := by
  unfold Obligations.FirstErrorIsKept
  intro s e c more herr
  have hrun := raiseAll_of_err more (raiseCmdError_err e c s)
  rw [raiseCmdError_of_noErr (by rw [herr]; nofun) e c] at hrun ⊢
  refine ⟨_, hrun, ?_⟩
  by_cases hmore : more = []
  · rw [if_pos hmore, decide_eq_false (not_not_intro hmore)]
    exact ⟨errCode_errinfoFirst s.errinfo e, errOvf_errinfoFirst s.errinfo e.code⟩
  · rw [if_neg hmore, decide_eq_true hmore, errCode_errinfoOverflow]
    exact ⟨errCode_errinfoFirst s.errinfo e, errOvf_errinfoOverflow _⟩

/-! ### Refused transactions -/

/-- Settles O12: SLVERR is the answer to a refusal alone, and a refusal raises the bus error. -/
theorem busErrorEffect : Obligations.BusErrorEffect := by
  unfold Obligations.BusErrorEffect
  intro P t s hresp
  exact transact_of_refused P ((transact_slverr_iff P t s).1 hresp)

/-- The unmapped addresses (20_memory.md R82). -/
theorem regionOf_eq_unmapped_iff (a : Addr) :
    regionOf a = .unmapped ↔ (0x00100 ≤ a.toNat ∧ a.toNat ≤ 0x0FFFF) ∨ 0x30000 ≤ a.toNat := by
  unfold regionOf
  split_ifs <;> simp only [false_iff, true_iff] <;> omega

/-- The buffer addresses (20_memory.md R82). -/
theorem regionOf_buffer_iff (a : Addr) :
    (regionOf a = .winbuf ∨ regionOf a = .tonebuf) ↔ 0x10000 ≤ a.toNat ∧ a.toNat ≤ 0x2FFFF := by
  unfold regionOf
  split_ifs <;> simp only [false_iff, true_iff, or_self, or_true, true_or] <;> omega

/-- The addresses of TONEBUF (20_memory.md R82). -/
theorem regionOf_eq_tonebuf_iff (a : Addr) : regionOf a = .tonebuf ↔ 0x20000 ≤ a.toNat ∧ a.toNat ≤ 0x2FFFF := by
  unfold regionOf
  split_ifs <;> simp only [false_iff, true_iff] <;> omega

/-- The causes of a refusal (60_exceptions.md R258 to R261). -/
theorem refusal_isSome_iff (t : Transaction) (s : State) :
    (refusal t s).isSome ↔
      t.badWidth = true ∨ t.addr.toNat % 4 ≠ 0 ∨ regionOf t.addr = .unmapped ∨
        ((regionOf t.addr = .winbuf ∨ regionOf t.addr = .tonebuf) ∧ s.eng ≠ .idle) ∨
        (regionOf t.addr = .tonebuf ∧ t.isWrite = true) := by
  by_cases hwidth : t.badWidth = true
  · simp [refusal, hwidth]
  by_cases halign : t.addr.toNat % 4 ≠ 0
  · simp [refusal, hwidth, halign]
  rw [refusal, if_neg hwidth, if_neg halign, State.busy_eq]
  cases regionOf t.addr with
  | regs => simp [hwidth, halign]
  | unmapped => simp
  | winbuf => by_cases he : s.eng = .idle <;> simp [hwidth, halign, he]
  | tonebuf => by_cases he : s.eng = .idle <;> simp [hwidth, halign, he]

/-- Settles O11: the causes of `refusal_isSome_iff`, with the regions as ranges of addresses. -/
theorem transactionsRefusedExactly : Obligations.TransactionsRefusedExactly := by
  unfold Obligations.TransactionsRefusedExactly
  intro P s a size strobe v
  constructor
  · have hwidth : (Transaction.read a size).badWidth = true ↔ size ≠ 4 := bne_iff_ne
    have hread : (Transaction.read a size).isWrite = true ↔ False := by simp [Transaction.isWrite]
    rw [transact_slverr_iff, refusal_isSome_iff, hwidth, hread, Transaction.addr, regionOf_eq_unmapped_iff,
      regionOf_buffer_iff, and_false, or_false, or_assoc, and_assoc]
  · have hwidth : (Transaction.write a size strobe v).badWidth = true ↔ size ≠ 4 ∨ strobe ≠ 0xF := by
      simp [Transaction.badWidth]
    have hwrite : (Transaction.write a size strobe v).isWrite = true ↔ True := by simp [Transaction.isWrite]
    rw [transact_slverr_iff, refusal_isSome_iff, hwidth, hwrite, Transaction.addr, regionOf_eq_unmapped_iff,
      regionOf_buffer_iff, regionOf_eq_tonebuf_iff, and_true, or_assoc, or_assoc, and_assoc]

end Sys2Proof.Machine
end

section
/-! PROOFS. Pairing the nibbles of a payload (O58). -/

namespace Sys2Proof.Machine

/-- The two nibbles of a byte, laid side by side, are the byte (70_reset_and_hazards.md R326). -/
theorem append_nibbles (b : Byte) : b.extractLsb' 4 4 ++ b.extractLsb' 0 4 = b :=
  (BitVec.extractLsb'_append_extractLsb'_eq_extractLsb' rfl).trans BitVec.extractLsb'_eq_self

theorem payloadNibbles_cons (b : Byte) (p : List Byte) :
    payloadNibbles (b :: p) = b.extractLsb' 4 4 :: b.extractLsb' 0 4 :: payloadNibbles p := rfl

theorem pairNibbles_payloadNibbles (p : List Byte) : pairNibbles (payloadNibbles p) = some p := by
  induction p with
  | nil => rfl
  | cons b p ih => rw [payloadNibbles_cons, pairNibbles, ih, Option.map_some, append_nibbles]

/-- Pairing takes two nibbles at a time, so it fails exactly when one is left over (70_reset_and_hazards.md R330). -/
theorem pairNibbles_eq_none_iff (ns : List Nibble) : pairNibbles ns = none ↔ ns.length % 2 = 1 := by
  induction ns using pairNibbles.induct with
  | case1 => simp [pairNibbles]
  | case2 h => simp [pairNibbles]
  | case3 h l rest ih =>
    rw [pairNibbles, Option.map_eq_none_iff, ih, List.length_cons, List.length_cons, Nat.add_assoc, Nat.add_mod_right]

/-- Settles O58: by induction on the payload's bytes and on the pairs of nibbles. -/
theorem nibblePairingRoundTrip : Obligations.NibblePairingRoundTrip := by
  unfold Obligations.NibblePairingRoundTrip
  exact ⟨pairNibbles_payloadNibbles, fun ns => (pairNibbles_eq_none_iff ns).symm⟩

end Sys2Proof.Machine
end
